-- ==== Sys2Proof/Word.lean ====
section
/-! DEFINITION. The byte, the unit of the frame buffer (spec/00_scope.md R12). -/

namespace Sys2Proof

/-- R12: a byte is 8 bits, an unsigned value 0 to 255. -/
abbrev Byte := BitVec 8

end Sys2Proof
end

