-- ==== Sys2Proof/Config.lean ====
section
/-! DEFINITION. What one FHV instance fixes: the parameters of spec/00_scope.md R4 to R9 and the closed set of
codec names of spec/30_encoding.md R70. -/

namespace Sys2Proof

/-- R5: the kind ROUTE reports for a frame shorter than 9 bytes. -/
inductive ShortFrameKind where
  | preconditionError
  | invalidHeader
deriving DecidableEq, Repr

/-- R8: what TSD does with a timestamp whose bit 63 is 1. -/
inductive TsBit63Policy where
  | malformed
  | wrap
deriving DecidableEq, Repr

/-- The parameters that are data (R4, R5, R6, R8). "They are not registers and no operation changes them"; they
stand in `State` because `step` takes no other argument (log 3, DESIGN CHOICE, safe). -/
structure Params where
  /-- R4 `FRAME_MAX`: `none` is a frame of any finite length. -/
  frameMax : Option Nat
  /-- R5 `SHORT_FRAME_KIND`. -/
  shortFrameKind : ShortFrameKind
  /-- R6 `STRICT_LENGTH`. -/
  strictLength : Bool
  /-- R8 `TS_BIT63_POLICY`. -/
  tsBit63 : TsBit63Policy
deriving DecidableEq, Repr

/-- The defaults of R5, R6 and R8; R4 gives no bound (log 3). -/
def Params.default : Params where
  frameMax := none
  shortFrameKind := .preconditionError
  strictLength := false
  tsBit63 := .malformed

/-- R7 `LENGTH_CONSISTENT(declLen, flen)`: a total Boolean function of its two arguments of which nothing else is
assumed. No body: no proof can see a value of it (log 4, safe). -/
opaque Config.lengthConsistent (declLen : BitVec 32) (flen : Nat) : Bool

/-- R70: the seven codecs, a closed set. -/
inductive Codec where
  | codec8
  | codec8Extended
  | codec12
  | codec13
  | codec14
  | codec15
  | codec16
deriving DecidableEq, Repr

end Sys2Proof
end

