-- ==== Sys2Proof/Syntax.lean ====
section
/-! DEFINITION. The instructions: one constructor per row of spec/opcode_table.json. -/

namespace Sys2Proof

/-- The seven PREFIX rows (spec/30_encoding.md R61, R70) carry the declared length; the seven CTRL rows (R75,
spec/10_state.md R25) carry the five reserved bits 7:3, which the block ignores. -/
inductive Instr where
  /-- R103, `0x08`. -/
  | codec8 (declLen : BitVec 32)
  /-- R104, `0x8E`. -/
  | codec8Extended (declLen : BitVec 32)
  /-- R105, `0x0C`. -/
  | codec12 (declLen : BitVec 32)
  /-- R106, `0x0D`. -/
  | codec13 (declLen : BitVec 32)
  /-- R107, `0x0E`. -/
  | codec14 (declLen : BitVec 32)
  /-- R108, `0x0F`. -/
  | codec15 (declLen : BitVec 32)
  /-- R109, `0x10`. -/
  | codec16 (declLen : BitVec 32)
  /-- R160, `OP = 0`. -/
  | frame (rsv : BitVec 5)
  /-- R95, `OP = 1`. -/
  | route (rsv : BitVec 5)
  /-- R151, `OP = 2`, the row REC. -/
  | recOp (rsv : BitVec 5)
  /-- R115, `OP = 3`. -/
  | ts (rsv : BitVec 5)
  /-- R122, `OP = 4`. -/
  | gps (rsv : BitVec 5)
  /-- R132, `OP = 5`. -/
  | ioe (rsv : BitVec 5)
  /-- R89, `OP = 6`. -/
  | field (rsv : BitVec 5)
deriving DecidableEq, Repr

end Sys2Proof
end

