-- ==== Sys2Proof/WellFormed.lean ====
section
/-! DEFINITION. Which instructions a host may write as they stand (spec/10_state.md R25). -/

namespace Sys2Proof

/-- R25: the bits 7:3 of `CTRL` are "reserved, written as zero, ignored". A well-formed CTRL instruction has them
zero; the block runs the others all the same. A codec row has no check: any declared length is legal (R74). -/
def Instr.wellFormed : Instr → Bool
  | .codec8 _ | .codec8Extended _ | .codec12 _ | .codec13 _ | .codec14 _ | .codec15 _ | .codec16 _ => true
  | .frame r | .route r | .recOp r | .ts r | .gps r | .ioe r | .field r => r == 0

end Sys2Proof
end

