-- ==== Sys2Proof/Decode.lean ====
section
/-! DEFINITION. Decoding a CTRL word (spec/30_encoding.md R75, R76) and a frame PREFIX (R61, R70 to R72), the
encoder written from the same tables, and the byte order they share (spec/00_scope.md R15). -/

namespace Sys2Proof

/-- Why a code is no instruction. -/
inductive DecodeError where
  /-- R25: a CTRL word with `START = 0` starts nothing. -/
  | notAStart
  /-- R76: `OP = 7`. -/
  | reservedOp
  /-- A prefix is exactly 9 bytes (R61). -/
  | prefixLength
  /-- R72: a non-zero header. -/
  | invalidHeader
  /-- R71: one of the 249 other codec ids. -/
  | unknownCodec
deriving DecidableEq, Repr

/-- The two kinds of code: a CTRL word, and the bytes of a PREFIX in wire order. -/
inductive Code where
  | ctrlWord (w : BitVec 9)
  | framePrefix (b : List Byte)
deriving DecidableEq, Repr

/-- R15, R88 `BE`: the byte at the lowest offset is the most significant. -/
def be (b : List Byte) : Nat :=
  b.foldl (fun v x => v * 256 + x.toNat) 0

/-- The `n` bytes of `v`, most significant first: what `be` reads back as `v mod 256^n`. -/
def beBytes : Nat → Nat → List Byte
  | 0, _ => []
  | n + 1, v => BitVec.ofNat 8 (v / 256 ^ n) :: beBytes n v

/-- R25: bit 8. -/
def ctrlStart (w : BitVec 9) : Bool := w.getLsbD 8

/-- R25: bits 2:0. -/
def ctrlOp (w : BitVec 9) : BitVec 3 := w.extractLsb' 0 3

/-- R25: bits 7:3. -/
def ctrlReserved (w : BitVec 9) : BitVec 5 := w.extractLsb' 3 5

/-- R75, R76: the operation a CTRL word starts. -/
def decodeCtrl (w : BitVec 9) : Except DecodeError Instr :=
  if ctrlStart w then
    match (ctrlOp w).toNat with
    | 0 => .ok (.frame (ctrlReserved w))
    | 1 => .ok (.route (ctrlReserved w))
    | 2 => .ok (.recOp (ctrlReserved w))
    | 3 => .ok (.ts (ctrlReserved w))
    | 4 => .ok (.gps (ctrlReserved w))
    | 5 => .ok (.ioe (ctrlReserved w))
    | 6 => .ok (.field (ctrlReserved w))
    | _ => .error .reservedOp
  else .error .notAStart

/-- R70, the codec map: the id of a codec. -/
def Codec.id : Codec → Byte
  | .codec8 => 0x08
  | .codec8Extended => 0x8E
  | .codec12 => 0x0C
  | .codec13 => 0x0D
  | .codec14 => 0x0E
  | .codec15 => 0x0F
  | .codec16 => 0x10

/-- R70, R71, R102: the codec of an id, matched on the full byte; `none` for the other 249. -/
def Codec.ofId (b : Byte) : Option Codec :=
  if b = 0x08 then some .codec8
  else if b = 0x8E then some .codec8Extended
  else if b = 0x0C then some .codec12
  else if b = 0x0D then some .codec13
  else if b = 0x0E then some .codec14
  else if b = 0x0F then some .codec15
  else if b = 0x10 then some .codec16
  else none

/-- R70: the `CODEC_SEL` number of a codec. -/
def Codec.sel : Codec → BitVec 3
  | .codec8 => 0
  | .codec8Extended => 1
  | .codec12 => 2
  | .codec13 => 3
  | .codec14 => 4
  | .codec15 => 5
  | .codec16 => 6

/-- The PREFIX row of a codec, with its declared length. -/
def Codec.instr (c : Codec) (declLen : BitVec 32) : Instr :=
  match c with
  | .codec8 => .codec8 declLen
  | .codec8Extended => .codec8Extended declLen
  | .codec12 => .codec12 declLen
  | .codec13 => .codec13 declLen
  | .codec14 => .codec14 declLen
  | .codec15 => .codec15 declLen
  | .codec16 => .codec16 declLen

/-- R61, R70 to R72: the codec row that 9 wire bytes hold. The header is judged before the codec id (R97). -/
def decodePrefix : List Byte → Except DecodeError Instr
  | [h0, h1, h2, h3, l0, l1, l2, l3, c] =>
    if h0 = 0 ∧ h1 = 0 ∧ h2 = 0 ∧ h3 = 0 then
      match Codec.ofId c with
      | some codec => .ok (codec.instr (BitVec.ofNat 32 (be [l0, l1, l2, l3])))
      | none => .error .unknownCodec
    else .error .invalidHeader
  | _ => .error .prefixLength

/-- Total on any code; what is no instruction is rejected by name. -/
def decode : Code → Except DecodeError Instr
  | .ctrlWord w => decodeCtrl w
  | .framePrefix b => decodePrefix b

/-- R25, R75: the CTRL word of an operation code, `1 rrrrr ooo`. -/
def encodeCtrl (op : BitVec 3) (rsv : BitVec 5) : BitVec 9 :=
  (1 : BitVec 1) ++ rsv ++ op

/-- R61: the 9 bytes of a prefix. -/
def encodePrefix (c : Codec) (declLen : BitVec 32) : List Byte :=
  [0, 0, 0, 0] ++ beBytes 4 declLen.toNat ++ [c.id]

/-- The code of an instruction. -/
def encode : Instr → Code
  | .codec8 l => .framePrefix (encodePrefix .codec8 l)
  | .codec8Extended l => .framePrefix (encodePrefix .codec8Extended l)
  | .codec12 l => .framePrefix (encodePrefix .codec12 l)
  | .codec13 l => .framePrefix (encodePrefix .codec13 l)
  | .codec14 l => .framePrefix (encodePrefix .codec14 l)
  | .codec15 l => .framePrefix (encodePrefix .codec15 l)
  | .codec16 l => .framePrefix (encodePrefix .codec16 l)
  | .frame r => .ctrlWord (encodeCtrl 0 r)
  | .route r => .ctrlWord (encodeCtrl 1 r)
  | .recOp r => .ctrlWord (encodeCtrl 2 r)
  | .ts r => .ctrlWord (encodeCtrl 3 r)
  | .gps r => .ctrlWord (encodeCtrl 4 r)
  | .ioe r => .ctrlWord (encodeCtrl 5 r)
  | .field r => .ctrlWord (encodeCtrl 6 r)

/-- A code as one number, numbered as spec/opcode_table.json numbers its bits: a PREFIX has its first wire bit at
bit 71 (R61), a CTRL word is the register. -/
def Code.number : Code → Nat
  | .ctrlWord w => w.toNat
  | .framePrefix b => be b

/-- The code that a table row's number is laid out as: 72 bits are the 9 wire bytes, the first byte highest (R61);
up to 16 bits are a CTRL write, of which the register keeps 9 (log 14, log 17). -/
def tableCode (nbits w : Nat) : Option Code :=
  if nbits = 72 then some (.framePrefix (beBytes 9 w))
  else if nbits ≤ 16 then some (.ctrlWord (BitVec.ofNat 9 w))
  else none

/-- The instruction the decoder reads from a table row's word. -/
def decodeTableWord (nbits w : Nat) : Option Instr :=
  match tableCode nbits w with
  | some c =>
    match decode c with
    | .ok i => some i
    | .error _ => none
  | none => none

end Sys2Proof
end

