-- ==== Sys2Proof/Machine/State.lean ====
section
/-! DEFINITION. The state of one FHV instance (spec/10_state.md R20 to R44) as plain data, and what it is after
reset. -/

namespace Sys2Proof.Machine

/-- R171, R172: why an operation ends without a result. The first six are the error kinds, `noLayout` is the
refusal of R161. -/
inductive Cause where
  | invalidHeader
  | unknownCodec
  | malformedField
  | truncatedRecord
  | lengthMismatch
  | preconditionError
  | noLayout
deriving DecidableEq, Repr

/-- R26, R171 `STATUS.KIND`. Codes 9 to 15 are never produced, so no name stands for them. -/
inductive Kind where
  /-- No operation has finished since reset or since the last start. -/
  | none
  | ok
  | failed (c : Cause)
deriving DecidableEq, Repr

/-- R26 `STATUS`, read-only, eight bits without a reserved one. -/
structure Status where
  kind : Kind
  busy : Bool
  done : Bool
  ioTrunc : Bool
  ioMismatch : Bool
deriving DecidableEq, Repr

/-- R28 `VALID`, one bit per result group. -/
structure Valid where
  route : Bool
  recs : Bool
  ts : Bool
  gps : Bool
  io : Bool
  field : Bool
deriving DecidableEq, Repr

/-- All six bits clear. -/
def Valid.clear : Valid := ⟨false, false, false, false, false, false⟩

/-- R30, the route group. -/
structure RouteGroup where
  declLen : BitVec 32
  codecId : BitVec 8
  /-- `CODEC_SEL`, 3 bits, of which 7 is never written: seven names. -/
  codecSel : Codec
  payOff : Nat
  payLen : Nat
deriving DecidableEq, Repr

/-- R34, one IO element. -/
structure Elem where
  id : BitVec 16
  w : BitVec 4
  val : BitVec 64
deriving DecidableEq, Repr

/-- R32, one entry of the record store. -/
structure Record where
  ts : BitVec 64
  prio : BitVec 8
  lat : BitVec 64
  lon : BitVec 64
  alt : BitVec 64
  ang : BitVec 64
  sat : BitVec 64
  spd : BitVec 64
  ioTotal : BitVec 32
  ioN : BitVec 11
  ioTr : Bool
  ioMm : Bool
  elems : List Elem
deriving DecidableEq, Repr

/-- What an entry holds that nothing has written (log 6, DESIGN CHOICE; the host never sees it, R42). -/
def Record.zero : Record := ⟨0, 0, 0, 0, 0, 0, 0, 0, 0, 0, false, false, []⟩

/-- R37, R40: what a start latches, the CTRL word with the one reading of `FLEN`, `ARG_OFF` and `ARG_W`. -/
structure Job where
  word : BitVec 9
  flen : Nat
  argOff : Nat
  argW : BitVec 4
deriving DecidableEq, Repr

/-- R178: a raised error or the refusal: its cause, the value of `ERR_OFF`, and where the cursor stood. -/
structure Failure where
  cause : Cause
  off : Nat
  cur : Nat
deriving DecidableEq, Repr

/-- R43, the registers the host reaches by number, in the order of their numbers. -/
inductive RegName where
  | ctrl | status | flen | argOff | argW | errOff | valid | endCur
  | declLen | codec | payOff | payLen | recN | recCnt | ioConsumed | field
  | fieldW | recSel | recTs | recPrio | recLat | recLon | recAlt | recAng
  | recSat | recSpd | recIoTotal | recIoN | recIoFlags | elemSel | elemIdW | elemVal
deriving DecidableEq, Repr

/-- What a host can do to the block (R43, R45, R172, R190, R194). -/
inductive Access where
  /-- Write a register by number. -/
  | writeReg (n v : Nat)
  /-- Read a register by number. -/
  | readReg (n : Nat)
  /-- Write one byte of the frame buffer. -/
  | writeFB (off : Nat) (b : Byte)
  /-- Read one byte of the frame buffer. -/
  | readFB (off : Nat)
  /-- One clock edge with `rst` high. -/
  | reset
deriving DecidableEq, Repr

/-- The host's next move: one access, or leaving the block alone for a step (R194 steps 1 and 4). -/
inductive Move where
  | wait
  | access (a : Access)
deriving DecidableEq, Repr

/-- R176 (b) and (c), U15, U16: the two starts that are refused before any operation runs. -/
inductive RefusedStart where
  /-- R76: `OP = 7`. -/
  | reservedOp
  /-- R90: FIELD with `ARG_W` outside 1 to 8. -/
  | illegalWidth
deriving DecidableEq, Repr

/-- What becomes of a write to `CTRL` (R25, R76, R90, R196, R198). -/
inductive StartVerdict where
  /-- `START = 0`: "writing 0 does nothing" (R25). -/
  | noStart
  /-- R198: a start while `BUSY = 1` is ignored. -/
  | ignoredBusy
  /-- R76, R90: the start is refused and starts nothing. -/
  | refused (why : RefusedStart)
  /-- R196: `FLEN` above `FRAME_MAX`: no step. -/
  | overCapacity
  /-- R40: the start happens. -/
  | accepted
deriving DecidableEq, Repr

/-- The state of one instance: everything the spec gives it (INVENTORY.md, State), and last the three fields of the
model's own: the mark of R176 (log 8) and the two that stand for the host (log 2). -/
structure State where
  /-- The instance's parameters, constants (log 3). -/
  params : Params
  /-- R21 `FB`, canonical (see `Memory.wf`). -/
  fb : List Host.Cell
  /-- R22 `FLEN`. -/
  flen : Nat
  /-- R23 `ARG_OFF`. -/
  argOff : Nat
  /-- R24 `ARG_W`. -/
  argW : BitVec 4
  /-- R26 `STATUS`. -/
  status : Status
  /-- R27 `ERR_OFF`. -/
  errOff : Nat
  /-- R28 `VALID`. -/
  valid : Valid
  /-- R30, the route group. -/
  route : RouteGroup
  /-- R31 `REC_N`. -/
  recN : BitVec 8
  /-- R31 `REC_CNT`. -/
  recCnt : BitVec 9
  /-- R32, the record store, `REC[0]` first. -/
  recs : List Record
  /-- R29 `END_CUR`. -/
  endCur : Nat
  /-- R35 `IO_CONSUMED`. -/
  ioConsumed : Nat
  /-- R36 `FIELD_VAL`. -/
  fieldVal : BitVec 64
  /-- R36 `FIELD_W`. -/
  fieldW : BitVec 4
  /-- R43 `REC_SEL`. -/
  recSel : BitVec 8
  /-- R43 `ELEM_SEL`. -/
  elemSel : BitVec 10
  /-- R29 `cur`. -/
  cur : Nat
  /-- R37, R40: the latched operation and its arguments. -/
  job : Job
  /-- The model's own mark of R176: the latest start was refused, and why; `none` when it was not. No register shows
  it, and it bears on nothing (log 8). -/
  refusedStart : Option RefusedStart
  /-- The model's own: the host's moves still to come, the first one first. -/
  host : List Move
  /-- The model's own: the answer of the host's last read; `none` is no value (R42). -/
  rdata : Option Nat
deriving DecidableEq, Repr

/-- R44, R190. A field whose reset value the spec leaves unspecified holds zero or nothing here (log 6, DESIGN
CHOICE, unsafe; the host reads no value there, R42); `fb` lists nothing (log 5). -/
def State.reset : State where
  params := Params.default
  fb := []
  flen := 0
  argOff := 0
  argW := 0
  status := ⟨.none, false, false, false, false⟩
  errOff := 0
  valid := Valid.clear
  route := ⟨0, 0, .codec8, 0, 0⟩
  recN := 0
  recCnt := 0
  recs := []
  endCur := 0
  ioConsumed := 0
  fieldVal := 0
  fieldW := 0
  recSel := 0
  elemSel := 0
  cur := 0
  job := ⟨0, 0, 0, 0⟩
  refusedStart := none
  host := []
  rdata := none

/-- Where the model stops because the spec gives the situation no meaning. -/
inductive Fault where
  /-- Raised by a host write to `FB` while `BUSY = 1` (R195, R197: "undefined"). Safe: the hardware goes on. -/
  | bufferWrittenWhileBusy
  /-- Raised by a start with `FLEN` above `FRAME_MAX` (R196: "a model has no step for such a start"). Safe. -/
  | flenAboveFrameMax
  /-- Raised by a host access to an offset the buffer does not have (R21). Safe. -/
  | noSuchOffset (off : Nat)
  /-- Raised by a host access to a register number that R43 does not list. Safe. -/
  | noSuchRegister (n : Nat)
  /-- Raised by a host write to a register that R43 makes read-only. Safe. -/
  | readOnlyRegister (r : RegName)
deriving DecidableEq, Repr

/-- Where the model gives a step no meaning. -/
inductive Refusal where
  /-- Raised by an arm of `exec` whose instruction has no meaning yet. Safe. No arm raises it. -/
  | notModelled (mnemonic : String)
  /-- Raised by `step` in a state that no run reaches: busy, with a latched word that is no operation. Safe. -/
  | noLatchedOperation (e : DecodeError)
deriving DecidableEq, Repr

end Sys2Proof.Machine
end

