-- ==== Sys2Proof/Machine/Flags.lean ====
section
/-! DEFINITION. The report flags (spec/10_state.md R39, spec/44_io_elements.md R146, R147) and the numbers and
signals a host sees of the status (R26, R28, R171, R177). -/

namespace Sys2Proof.Machine

/-- R147 `IO_MM`: the declared total differs from the number of elements decoded. -/
def ioMismatch (total : Nat) (elems : List Elem) : Bool := total != elems.length

/-- R39: `STATUS.IO_TRUNC`, the OR of `IO_TR` over the records produced. -/
def anyTruncated (rs : List Record) : Bool := rs.any (·.ioTr)

/-- R39: `STATUS.IO_MISMATCH`, the OR of `IO_MM` over the records produced. -/
def anyMismatch (rs : List Record) : Bool := rs.any (·.ioMm)

/-- R171: the codes of the causes. -/
def Cause.code : Cause → BitVec 4
  | .invalidHeader => 2
  | .unknownCodec => 3
  | .malformedField => 4
  | .truncatedRecord => 5
  | .lengthMismatch => 6
  | .preconditionError => 7
  | .noLayout => 8

/-- R171 `STATUS.KIND`. -/
def Kind.code : Kind → BitVec 4
  | .none => 0
  | .ok => 1
  | .failed c => c.code

/-- R26: bits 3:0 `KIND`, 4 `BUSY`, 5 `DONE`, 6 `IO_TRUNC`, 7 `IO_MISMATCH`. -/
def Status.word (s : Status) : BitVec 8 :=
  BitVec.ofBool s.ioMismatch ++ BitVec.ofBool s.ioTrunc ++ BitVec.ofBool s.done ++ BitVec.ofBool s.busy ++ s.kind.code

/-- R28: bit 0 `V_ROUTE`, 1 `V_RECS`, 2 `V_TS`, 3 `V_GPS`, 4 `V_IO`, 5 `V_FIELD`. -/
def Valid.word (v : Valid) : BitVec 6 :=
  BitVec.ofBool v.field ++ BitVec.ofBool v.io ++ BitVec.ofBool v.gps ++ BitVec.ofBool v.ts ++ BitVec.ofBool v.recs ++
    BitVec.ofBool v.route

/-- R177: the level signal `done`. -/
def State.doneSignal (s : State) : Bool := s.status.done

/-- R177: the level signal `err`, `DONE` with a `KIND` of 2 or more. -/
def State.errSignal (s : State) : Bool := s.status.done && decide (2 ≤ s.status.kind.code.toNat)

/-- R176: the run is marked as refused: the operation ended with `NoLayout` (a), or the latest start was refused (b)
and (c). -/
def State.runRefused (s : State) : Bool :=
  decide (s.status.kind = .failed .noLayout) || s.refusedStart.isSome

end Sys2Proof.Machine
end

