-- ==== Sys2Proof/Machine/Operands.lean ====
section
/-! DEFINITION. The operand forms: the field extractor FX, the byte strings of an IO element, the codec layout slot
(spec/40_field_extract_unpack.md R85 to R91, spec/10_state.md R34, spec/45_record_sequencer.md R162). -/

namespace Sys2Proof.Machine

/-- R17 `avail(c, n)`, on natural numbers without wrap. -/
def avail (fr : List Byte) (c n : Nat) : Bool := c + n ≤ fr.length

/-- R85 `FX(c, n)`: all `n` bytes at the cursor or nothing. -/
def fx (fr : List Byte) (c n : Nat) : Option (List Byte) :=
  if avail fr c n then some ((fr.drop c).take n) else none

/-- R13: the bytes at offsets `a` to `b - 1` of a byte string. -/
def slice (b : List Byte) (lo hi : Nat) : List Byte := (b.drop lo).take (hi - lo)

/-- R15 `zext_64`, R68: a field's value in a 64-bit container. -/
def zext64 (v : Nat) : BitVec 64 := BitVec.ofNat 64 v

/-- R16: one hex digit, lower case. -/
def hexDigit (n : Nat) : Char :=
  if n < 10 then Char.ofNat (48 + n) else Char.ofNat (87 + n)

/-- R16 `hexstr`: two lower-case digits per byte, first byte first. -/
def hexstr : List Byte → List Char
  | [] => []
  | b :: bs => hexDigit (b.toNat / 16) :: hexDigit (b.toNat % 16) :: hexstr bs

/-- R34, R138, R140: the element that `1 + w` wire bytes hold. -/
def mkElem (w : Nat) (e : List Byte) : Elem where
  id := BitVec.ofNat 16 (be (e.take 1))
  w := BitVec.ofNat 4 w
  val := zext64 (be (e.drop 1))

/-- R34: the `W` value bytes, recovered from the low `8*W` bits of `VAL`, most significant first. -/
def Elem.valueBytes (e : Elem) : List Byte := beBytes e.w.toNat e.val.toNat

/-- R34 `valueHex`. -/
def Elem.valueHex (e : Elem) : List Char := hexstr e.valueBytes

/-- R24, R90: the widths FIELD takes. -/
def legalWidth (w : BitVec 4) : Bool := 1 ≤ w.toNat && w.toNat ≤ 8

/-- R10: the value widths of the four IO groups, in wire order. -/
def widthClasses : List Nat := [1, 2, 4, 8]

/-- R162: the record layouts the sources give. -/
inductive RecordLayout where
  | codec8
deriving DecidableEq, Repr

/-- R9, R161 `CODEC_LAYOUT`: known for Codec8 only (log 23). -/
def codecLayout : Codec → Option RecordLayout
  | .codec8 => some .codec8
  | .codec8Extended | .codec12 | .codec13 | .codec14 | .codec15 | .codec16 => none

end Sys2Proof.Machine
end

