-- ==== Sys2Proof/Machine/Ops.lean ====
section
/-! DEFINITION. The named operations: the frame buffer (spec/20_memory.md), a start and a finish (spec/10_state.md
R40, R41), raising an error or the refusal (spec/60_exceptions.md R178), reset (spec/70_reset_and_hazards.md R190,
R191), and the writes of each result group. -/

namespace Sys2Proof.Machine

/-- What a byte of the buffer reads as that nothing has written (log 5, DESIGN CHOICE, unsafe). -/
def Memory.unlisted : Byte := 0

/-- One byte of a memory. -/
def Memory.read : List Host.Cell → Nat → Byte
  | [], _ => Memory.unlisted
  | (k, v) :: m, a => if k = a then v else Memory.read m a

/-- Write one byte, keeping the canonical form: addresses strictly rising, no entry equal to `Memory.unlisted`. -/
def Memory.write : List Host.Cell → Nat → Byte → List Host.Cell
  | [], a, b => if b = Memory.unlisted then [] else [(a, b)]
  | (k, v) :: m, a, b =>
    if a < k then (if b = Memory.unlisted then (k, v) :: m else (a, b) :: (k, v) :: m)
    else if a = k then (if b = Memory.unlisted then m else (a, b) :: m)
    else (k, v) :: Memory.write m a b

/-- Write a byte string at rising addresses. -/
def Memory.writeBytes (m : List Host.Cell) (a : Nat) : List Byte → List Host.Cell
  | [] => m
  | b :: bs => Memory.writeBytes (Memory.write m a b) (a + 1) bs

/-- Every listed address is at least `lo`, they rise strictly, and no entry is redundant. -/
def Memory.wfFrom : Nat → List Host.Cell → Bool
  | _, [] => true
  | lo, (k, v) :: m => decide (lo ≤ k) && v != Memory.unlisted && Memory.wfFrom (k + 1) m

/-- The canonical form. -/
def Memory.wf (m : List Host.Cell) : Bool := Memory.wfFrom 0 m

/-- R12, R51: the frame of the running operation, the bytes `FB[0 : flen]` with the `flen` of the start. -/
def State.frame (s : State) : List Byte := (List.range s.job.flen).map (Memory.read s.fb)

/-- R4, R22: a number of bytes the buffer can hold. -/
def State.fits (s : State) (n : Nat) : Bool :=
  match s.params.frameMax with
  | none => true
  | some m => n ≤ m

/-- R43: entry `k` of the record store. -/
def State.recAt (s : State) (k : Nat) : Record := s.recs.getD k Record.zero

/-- R25, R76, R90, R196, R198: what becomes of a write of `w` to `CTRL`. -/
def startVerdict (s : State) (w : BitVec 9) : StartVerdict :=
  if ctrlStart w = false then .noStart
  else if s.status.busy then .ignoredBusy
  else if ctrlOp w = 7 then .refused .reservedOp
  else if ctrlOp w = 6 && !legalWidth s.argW then .refused .illegalWidth
  else if s.fits s.flen then .accepted
  else .overCapacity

/-- R29: the cursor starts at 0 for FRAME and ROUTE and at `ARG_OFF` for the others. -/
def startCursor (w : BitVec 9) (argOff : Nat) : Nat :=
  if ctrlOp w = 0 ∨ ctrlOp w = 1 then 0 else argOff

/-- R40, the start: latch the operation and its arguments, clear `KIND`, `DONE`, the flags and `VALID`, go busy. The
mark of an earlier refused start is gone (log 8). -/
def State.startOp (s : State) (w : BitVec 9) : State :=
  { s with
    job := ⟨w, s.flen, s.argOff, s.argW⟩
    status := ⟨.none, true, false, false, false⟩
    valid := Valid.clear
    cur := startCursor w s.argOff
    refusedStart := none }

/-- R176, R76, R90: a refused start marks the run, and no register changes (log 8). -/
def State.refuseStart (s : State) (why : RefusedStart) : State :=
  { s with refusedStart := some why }

/-- R41, the finish of a successful operation: the `VALID` bits `v` and no other, the flags, `KIND`, `BUSY`, `DONE`,
and the cursor. The results are written by the caller in the same step. -/
def State.finishOk (s : State) (v : Valid) (trunc mismatch : Bool) (cur : Nat) : State :=
  { s with
    status := ⟨.ok, false, true, trunc, mismatch⟩
    valid := v
    cur := cur }

/-- R178, raising an error or the refusal: no result, `VALID` and the flags clear, `ERR_OFF` and `KIND` written, the
block idle and done. There is no handler, no vector and no return instruction: the return is the next start (R179). -/
def State.fail (s : State) (f : Failure) : State :=
  { s with
    status := ⟨.failed f.cause, false, true, false, false⟩
    valid := Valid.clear
    errOff := f.off
    cur := f.cur }

/-- R89, R90 in a state that no run reaches (FIELD latched with an illegal width): "the operation is refused", which
the mark says; the sequencer goes idle and no other register changes (log 18). -/
def State.abandon (s : State) : State :=
  { s.refuseStart .illegalWidth with status := { s.status with busy := false } }

/-- R30: the route group a successful ROUTE or FRAME writes; `PAY_LEN` is `flen - 9`. -/
def State.setRoute (s : State) (c : Codec) (declLen : BitVec 32) : State :=
  { s with route := ⟨declLen, c.id, c, 9, s.job.flen - 9⟩ }

/-- R28, R32: change `REC[0]`, the result place of TS, GPS and IOE. -/
def State.modifyRec0 (s : State) (f : Record → Record) : State :=
  { s with recs := f (s.recAt 0) :: s.recs.tail }

/-- R151 `commit`: the records, their counts and `END_CUR`. -/
def State.setRecords (s : State) (n : BitVec 8) (rs : List Record) (fin : Nat) : State :=
  { s with
    recN := n
    recCnt := BitVec.ofNat 9 rs.length
    recs := rs
    endCur := fin }

/-- R132: the numbers IOE writes beside `REC[0]`. -/
def State.setConsumed (s : State) (consumed fin : Nat) : State :=
  { s with
    ioConsumed := consumed
    endCur := fin }

/-- R89: the results of FIELD. -/
def State.setField (s : State) (v : BitVec 64) (w : BitVec 4) (fin : Nat) : State :=
  { s with
    fieldVal := v
    fieldW := w
    endCur := fin }

/-- R44, R190, R191: reset, in the middle of an operation too. `FB` is untouched, the parameters are no state, and
the host's own moves are not the block's. -/
def State.resetBlock (s : State) : State :=
  { State.reset with
    params := s.params
    fb := s.fb
    host := s.host
    rdata := s.rdata }

end Sys2Proof.Machine
end

