-- ==== Sys2Proof/Machine/Field.lean ====
section
/-! DEFINITION. Operation FIELD: FX then BEU (spec/40_field_extract_unpack.md R89, R90). -/

namespace Sys2Proof.Machine

/-- R89. `ARG_W` outside 1 to 8 never gets past the start (R90, `startVerdict`). -/
def execField (_rsv : BitVec 5) (s : State) : Host.Outcome State Fault Refusal :=
  if legalWidth s.job.argW then
    match fx s.frame s.job.argOff s.job.argW.toNat with
    | none => .next (s.fail ⟨.malformedField, s.job.argOff, s.job.argOff⟩)
    | some b =>
      let fin := s.job.argOff + s.job.argW.toNat
      .next ((s.setField (zext64 (be b)) s.job.argW fin).finishOk { Valid.clear with field := true } false false fin)
  else .next s.abandon

end Sys2Proof.Machine
end

