-- ==== Sys2Proof/Machine/Gps.lean ====
section
/-! DEFINITION. The GPS decoder GPD and operation GPS (spec/43_gps.md). -/

namespace Sys2Proof.Machine

/-- R123: the six integers of a fix, each in its 64-bit container. -/
structure Fix where
  lat : BitVec 64
  lon : BitVec 64
  alt : BitVec 64
  ang : BitVec 64
  sat : BitVec 64
  spd : BitVec 64
deriving DecidableEq, Repr

/-- R123 to R127 `GPD`: byte 13 is not read, speed is byte 14 alone, nothing is signed. -/
def gpd (b : List Byte) : Fix where
  lat := zext64 (be (slice b 0 4))
  lon := zext64 (be (slice b 4 8))
  alt := zext64 (be (slice b 8 10))
  ang := zext64 (be (slice b 10 12))
  sat := zext64 (be (slice b 12 13))
  spd := zext64 (be (slice b 14 15))

/-- R122: the six GPS fields of a record entry. -/
def Record.withFix (r : Record) (f : Fix) : Record :=
  { r with lat := f.lat, lon := f.lon, alt := f.alt, ang := f.ang, sat := f.sat, spd := f.spd }

/-- R122, R124. -/
def execGps (_rsv : BitVec 5) (s : State) : Host.Outcome State Fault Refusal :=
  match fx s.frame s.job.argOff 15 with
  | none => .next (s.fail ⟨.malformedField, s.job.argOff, s.job.argOff⟩)
  | some b =>
    .next ((s.modifyRec0 fun r => r.withFix (gpd b)).finishOk { Valid.clear with gps := true } false false
      (s.job.argOff + 15))

end Sys2Proof.Machine
end

