-- ==== Sys2Proof/Machine/IoElements.lean ====
section
/-! DEFINITION. The IO element list parser IOP and operation IOE (spec/44_io_elements.md). -/

namespace Sys2Proof.Machine

/-- What parsing a part of the groups gives: the elements in wire order, the cursor, whether a lenient stop ended it. -/
structure GroupResult where
  elems : List Elem
  cur : Nat
  stopped : Bool
deriving DecidableEq, Repr

/-- R148 step 2b, R138, R139: `g` elements of value width `w`. -/
def parseGroup (fr : List Byte) (w : Nat) : Nat → Nat → GroupResult
  | 0, cur => ⟨[], cur, false⟩
  | g + 1, cur =>
    match fx fr cur (1 + w) with
    | none => ⟨[], cur, true⟩
    | some e =>
      let r := parseGroup fr w g (cur + 1 + w)
      ⟨mkElem w e :: r.elems, r.cur, r.stopped⟩

/-- R148 step 2, R133, R136, R137: the width classes in order, each headed by its count byte. -/
def parseGroups (fr : List Byte) : List Nat → Nat → GroupResult
  | [], cur => ⟨[], cur, false⟩
  | w :: ws, cur =>
    match fx fr cur 1 with
    | none => ⟨[], cur, true⟩
    | some c =>
      let r := parseGroup fr w (be c) (cur + 1)
      if r.stopped then r
      else
        let q := parseGroups fr ws r.cur
        ⟨r.elems ++ q.elems, q.cur, q.stopped⟩

/-- R148: what IOP returns. -/
structure IoResult where
  elems : List Elem
  total : Nat
  consumed : Nat
  tr : Bool
  mm : Bool
deriving DecidableEq, Repr

/-- R148 `IOP(off)`. `total` does not steer the parse (R142); `consumed` counts complete items only (R145). -/
def iop (fr : List Byte) (off : Nat) : IoResult :=
  match fx fr off 1 with
  | none => ⟨[], 0, 0, true, false⟩
  | some t =>
    let r := parseGroups fr widthClasses (off + 1)
    ⟨r.elems, be t, r.cur - off, r.stopped, ioMismatch (be t) r.elems⟩

/-- R132, R151: the IO fields of a record entry. -/
def Record.withIo (r : Record) (io : IoResult) : Record :=
  { r with
    ioTotal := BitVec.ofNat 32 io.total
    ioN := BitVec.ofNat 11 io.elems.length
    ioTr := io.tr
    ioMm := io.mm
    elems := io.elems }

/-- R132: IOE never fails. -/
def execIoe (_rsv : BitVec 5) (s : State) : Host.Outcome State Fault Refusal :=
  let io := iop s.frame s.job.argOff
  .next (((s.modifyRec0 fun r => r.withIo io).setConsumed io.consumed (s.job.argOff + io.consumed)).finishOk
    { Valid.clear with io := true } io.tr io.mm (s.job.argOff + io.consumed))

end Sys2Proof.Machine
end

