-- ==== Sys2Proof/Machine/Timestamp.lean ====
section
/-! DEFINITION. The timestamp decoder TSD and operation TS (spec/42_timestamp.md). -/

namespace Sys2Proof.Machine

/-- R117, R118 `TSD`: the 64 bits of the `int64` value, or `none` for `malformed`. -/
def tsd (policy : TsBit63Policy) (b : List Byte) : Option (BitVec 64) :=
  if be b < 2 ^ 63 then some (zext64 (be b))
  else
    match policy with
    | .malformed => none
    | .wrap => some (zext64 (be b))

/-- R115, R116. -/
def execTs (_rsv : BitVec 5) (s : State) : Host.Outcome State Fault Refusal :=
  match fx s.frame s.job.argOff 8 with
  | none => .next (s.fail ⟨.malformedField, s.job.argOff, s.job.argOff⟩)
  | some b =>
    match tsd s.params.tsBit63 b with
    | none => .next (s.fail ⟨.malformedField, s.job.argOff, s.job.argOff⟩)
    | some t =>
      .next ((s.modifyRec0 fun r => { r with ts := t }).finishOk { Valid.clear with ts := true } false false
        (s.job.argOff + 8))

end Sys2Proof.Machine
end

