-- ==== Sys2Proof/Machine/Records.lean ====
section
/-! DEFINITION. The record sequencer RSQ and operation REC (spec/45_record_sequencer.md R150 to R159, R162). -/

namespace Sys2Proof.Machine

/-- R151, R154, R155: one record at the cursor and the cursor after it. The three fixed fields are strict, in wire
order; the IO section is lenient (R157). -/
def readRecord (policy : TsBit63Policy) (fr : List Byte) (cur : Nat) : Except Failure (Record × Nat) :=
  match fx fr cur 8 with
  | none => .error ⟨.truncatedRecord, cur, cur⟩
  | some tb =>
    match tsd policy tb with
    | none => .error ⟨.malformedField, cur, cur⟩
    | some t =>
      match fx fr (cur + 8) 1 with
      | none => .error ⟨.truncatedRecord, cur + 8, cur + 8⟩
      | some p =>
        match fx fr (cur + 9) 15 with
        | none => .error ⟨.truncatedRecord, cur + 9, cur + 9⟩
        | some g =>
          let io := iop fr (cur + 24)
          .ok ((({ Record.zero with ts := t, prio := BitVec.ofNat 8 (be p) }).withFix (gpd g)).withIo io,
            cur + 24 + io.consumed)

/-- R151: `n` records from the cursor on; the first failure ends the loop and drops what was decoded (R159). -/
def readRecords (policy : TsBit63Policy) (fr : List Byte) : Nat → Nat → Except Failure (List Record × Nat)
  | 0, cur => .ok ([], cur)
  | n + 1, cur =>
    match readRecord policy fr cur with
    | .error f => .error f
    | .ok (r, cur') =>
      match readRecords policy fr n cur' with
      | .error f => .error f
      | .ok (rs, fin) => .ok (r :: rs, fin)

/-- R151: what RSQ returns. -/
structure RecResult where
  n : BitVec 8
  recs : List Record
  fin : Nat
deriving DecidableEq, Repr

/-- R151 to R153 `RSQ(off)`. -/
def rsq (policy : TsBit63Policy) (fr : List Byte) (off : Nat) : Except Failure RecResult :=
  match fx fr off 1 with
  | none => .error ⟨.malformedField, off, off⟩
  | some c =>
    match readRecords policy fr (be c) (off + 1) with
    | .error f => .error f
    | .ok (rs, fin) => .ok ⟨BitVec.ofNat 8 (be c), rs, fin⟩

/-- R162: the `RecordDecoder` interface, one decoder per known layout. -/
def decodeRecords (lay : RecordLayout) (policy : TsBit63Policy) (fr : List Byte) (off : Nat) :
    Except Failure RecResult :=
  match lay with
  | .codec8 => rsq policy fr off

/-- R151 `commit`, with the finish: the records, then the flags as the OR over them and the `VALID` bits `v`. -/
def State.commit (s : State) (r : RecResult) (v : Valid) : State :=
  (s.setRecords r.n r.recs r.fin).finishOk v (anyTruncated r.recs) (anyMismatch r.recs) r.fin

/-- R151. REC decodes any span as Codec8 (R163). -/
def execRec (_rsv : BitVec 5) (s : State) : Host.Outcome State Fault Refusal :=
  match decodeRecords .codec8 s.params.tsBit63 s.frame s.job.argOff with
  | .error f => .next (s.fail f)
  | .ok r => .next (s.commit r { Valid.clear with recs := true })

end Sys2Proof.Machine
end

