-- ==== Sys2Proof/Machine/Route.lean ====
section
/-! DEFINITION. The header validator HV, operations ROUTE and FRAME, and the seven codec rows that HV fetches from
the frame (spec/41_header_validator.md, spec/45_record_sequencer.md R160, R161). -/

namespace Sys2Proof.Machine

/-- R96: the kind a frame shorter than 9 bytes gives. -/
def shortFrameCause : ShortFrameKind → Cause
  | .preconditionError => .preconditionError
  | .invalidHeader => .invalidHeader

/-- R101: whether the optional length check rejects the frame. -/
def lengthRejected (p : Params) (declLen : BitVec 32) (flen : Nat) : Bool :=
  p.strictLength && !Config.lengthConsistent declLen flen

/-- R98: the declared length. -/
def declaredLength (fr : List Byte) : BitVec 32 := BitVec.ofNat 32 (be (slice fr 4 8))

/-- R99: the codec id, the byte at offset 8. -/
def codecIdByte (fr : List Byte) : Byte := BitVec.ofNat 8 (be (slice fr 8 9))

/-- R95 steps 1 to 6, in that order (R174): the codec selected and the declared length. -/
def hv (p : Params) (fr : List Byte) : Except Failure (Codec × BitVec 32) :=
  if fr.length < 9 then .error ⟨shortFrameCause p.shortFrameKind, 0, 0⟩
  else if be (slice fr 0 4) ≠ 0 then .error ⟨.invalidHeader, 0, 4⟩
  else if lengthRejected p (declaredLength fr) fr.length then .error ⟨.lengthMismatch, 4, 9⟩
  else
    match Codec.ofId (codecIdByte fr) with
    | none => .error ⟨.unknownCodec, 8, 9⟩
    | some c => .ok (c, declaredLength fr)

/-- R95's finish, R102: ROUTE reports the codec and does nothing more. -/
def State.routeCodec (s : State) (c : Codec) (declLen : BitVec 32) : State :=
  (s.setRoute c declLen).finishOk { Valid.clear with route := true } false false 9

/-- R160, R161: what FRAME does with the codec selected. A codec without a layout ends in the refusal `NoLayout`, an
outcome of the operation (R170), so a next state whose `KIND` marks it (log 7). -/
def State.frameCodec (s : State) (c : Codec) (declLen : BitVec 32) : State :=
  match codecLayout c with
  | none => s.fail ⟨.noLayout, 8, 9⟩
  | some lay =>
    match decodeRecords lay s.params.tsBit63 s.frame 9 with
    | .error f => s.fail f
    | .ok r => (s.setRoute c declLen).commit r { Valid.clear with route := true, recs := true }

/-- R95. -/
def execRoute (_rsv : BitVec 5) (s : State) : Host.Outcome State Fault Refusal :=
  match hv s.params s.frame with
  | .error f => .next (s.fail f)
  | .ok (c, l) => .next (s.routeCodec c l)

/-- R160. -/
def execFrame (_rsv : BitVec 5) (s : State) : Host.Outcome State Fault Refusal :=
  match hv s.params s.frame with
  | .error f => .next (s.fail f)
  | .ok (c, l) => .next (s.frameCodec c l)

/-- Whether the latched operation is FRAME. -/
def State.framing (s : State) : Bool :=
  match decodeCtrl s.job.word with
  | .ok (.frame _) => true
  | _ => false

/-- R102: what HV's selection of a codec leads to: the records under FRAME, the report alone otherwise (log 16). -/
def State.selectCodec (s : State) (c : Codec) (declLen : BitVec 32) : State :=
  if s.framing then s.frameCodec c declLen else s.routeCodec c declLen

/-- R103. -/
def execCodec8 (declLen : BitVec 32) (s : State) : Host.Outcome State Fault Refusal :=
  .next (s.selectCodec .codec8 declLen)

/-- R104. -/
def execCodec8Extended (declLen : BitVec 32) (s : State) : Host.Outcome State Fault Refusal :=
  .next (s.selectCodec .codec8Extended declLen)

/-- R105. -/
def execCodec12 (declLen : BitVec 32) (s : State) : Host.Outcome State Fault Refusal :=
  .next (s.selectCodec .codec12 declLen)

/-- R106. -/
def execCodec13 (declLen : BitVec 32) (s : State) : Host.Outcome State Fault Refusal :=
  .next (s.selectCodec .codec13 declLen)

/-- R107. -/
def execCodec14 (declLen : BitVec 32) (s : State) : Host.Outcome State Fault Refusal :=
  .next (s.selectCodec .codec14 declLen)

/-- R108. -/
def execCodec15 (declLen : BitVec 32) (s : State) : Host.Outcome State Fault Refusal :=
  .next (s.selectCodec .codec15 declLen)

/-- R109. -/
def execCodec16 (declLen : BitVec 32) (s : State) : Host.Outcome State Fault Refusal :=
  .next (s.selectCodec .codec16 declLen)

end Sys2Proof.Machine
end

