-- ==== Sys2Proof/Machine/Dispatch.lean ====
section
/-! DEFINITION. One arm per row of spec/opcode_table.json. -/

namespace Sys2Proof.Machine

def exec (i : Instr) (s : State) : Host.Outcome State Fault Refusal :=
  match i with
  | .codec8 declLen => Sys2Proof.Machine.execCodec8 declLen s
  | .codec8Extended declLen => Sys2Proof.Machine.execCodec8Extended declLen s
  | .codec12 declLen => Sys2Proof.Machine.execCodec12 declLen s
  | .codec13 declLen => Sys2Proof.Machine.execCodec13 declLen s
  | .codec14 declLen => Sys2Proof.Machine.execCodec14 declLen s
  | .codec15 declLen => Sys2Proof.Machine.execCodec15 declLen s
  | .codec16 declLen => Sys2Proof.Machine.execCodec16 declLen s
  | .frame rsv => Sys2Proof.Machine.execFrame rsv s
  | .route rsv => Sys2Proof.Machine.execRoute rsv s
  | .recOp rsv => Sys2Proof.Machine.execRec rsv s
  | .ts rsv => Sys2Proof.Machine.execTs rsv s
  | .gps rsv => Sys2Proof.Machine.execGps rsv s
  | .ioe rsv => Sys2Proof.Machine.execIoe rsv s
  | .field rsv => Sys2Proof.Machine.execField rsv s

end Sys2Proof.Machine
end

