-- ==== Sys2Proof/Machine/Fetch.lean ====
section
/-! DEFINITION. Which instruction the block runs next, and how an instruction is placed for a run (log 15). -/

namespace Sys2Proof.Machine

/-- R37, R40: a busy block runs the operation it latched at the start; an idle one runs nothing (R187). -/
def fetch (s : State) : Option (Except DecodeError Instr) :=
  if s.status.busy then some (decodeCtrl s.job.word) else none

/-- Start `w` at once, with the host's own moves out of the way. FIELD needs a legal `ARG_W`, which the host sets
before it (R44): an illegal one becomes 1. -/
def State.placeCtrl (s : State) (w : BitVec 9) : State :=
  let s' := if ctrlOp w = 6 && !legalWidth s.argW then { s with argW := 1 } else s
  { s'.startOp w with host := [] }

/-- Lay the 9 bytes of a prefix at offset 0, with an `FLEN` that covers them, and start ROUTE, the operation that
runs a codec row and nothing more (R102). -/
def State.placePrefix (s : State) (b : List Byte) : State :=
  ({ s with fb := Memory.writeBytes s.fb 0 b, flen := max 9 s.flen }).placeCtrl (encodeCtrl 1 0)

/-- Place a code as the next instruction. -/
def State.placeCode (s : State) : Code → State
  | .ctrlWord w => s.placeCtrl w
  | .framePrefix b => s.placePrefix b

end Sys2Proof.Machine
end

