-- ==== Sys2Proof/Machine/HostPort.lean ====
section
/-! DEFINITION. The host's side of the block: the register file by number (spec/10_state.md R42, R43), the buffer
port, the start of an operation and reset (spec/70_reset_and_hazards.md R190 to R199). -/

namespace Sys2Proof.Machine

/-- R43: the registers in the order of their numbers 0 to 31. -/
def registerTable : List RegName :=
  [.ctrl, .status, .flen, .argOff, .argW, .errOff, .valid, .endCur,
   .declLen, .codec, .payOff, .payLen, .recN, .recCnt, .ioConsumed, .field] ++
  [.fieldW, .recSel, .recTs, .recPrio, .recLat, .recLon, .recAlt, .recAng,
   .recSat, .recSpd, .recIoTotal, .recIoN, .recIoFlags, .elemSel, .elemIdW, .elemVal]

/-- R43: the register of a number. -/
def RegName.ofNumber (n : Nat) : Option RegName := registerTable[n]?

/-- R42: a result register of a group whose `VALID` bit is `v`. "A model returns no value, never a number." -/
def State.result (s : State) (v : Bool) (x : Nat) : Option Nat :=
  if v && !s.status.busy then some x else none

/-- R28, R32, R42: whether a field of `REC[k]` holds a value, where `own` is the `VALID` bit of the operation that
writes that field of `REC[0]` alone. -/
def State.recHolds (s : State) (own : Bool) (k : Nat) : Bool :=
  !s.status.busy && ((s.valid.recs && decide (k < s.recCnt.toNat)) || (own && k == 0))

/-- R43: a field of the record that `REC_SEL` selects. -/
def State.recResult (s : State) (own : Bool) (f : Record → Nat) : Option Nat :=
  if s.recHolds own s.recSel.toNat then some (f (s.recAt s.recSel.toNat)) else none

/-- R43: a field of the element that `ELEM_SEL` selects in the record that `REC_SEL` selects. -/
def State.elemResult (s : State) (f : Elem → Nat) : Option Nat :=
  let r := s.recAt s.recSel.toNat
  if s.recHolds s.valid.io s.recSel.toNat && decide (s.elemSel.toNat < r.ioN.toNat) then
    (r.elems[s.elemSel.toNat]?).map f
  else none

/-- R27: `ERR_OFF` has a value when `KIND` is an error kind or `NoLayout`. -/
def State.errOffValue (s : State) : Option Nat :=
  match s.status.kind with
  | .failed _ => some s.errOff
  | .none | .ok => none

/-- R43, R42: what the host reads from a register; `none` is no value. -/
def readReg (s : State) : RegName → Option Nat
  | .ctrl => some 0
  | .status => some s.status.word.toNat
  | .flen => some s.flen
  | .argOff => some s.argOff
  | .argW => some s.argW.toNat
  | .errOff => s.errOffValue
  | .valid => some s.valid.word.toNat
  | .endCur => s.result (s.valid.recs || s.valid.io || s.valid.field) s.endCur
  | .declLen => s.result s.valid.route s.route.declLen.toNat
  | .codec => s.result s.valid.route (s.route.codecSel.sel ++ s.route.codecId).toNat
  | .payOff => s.result s.valid.route s.route.payOff
  | .payLen => s.result s.valid.route s.route.payLen
  | .recN => s.result s.valid.recs s.recN.toNat
  | .recCnt => s.result s.valid.recs s.recCnt.toNat
  | .ioConsumed => s.result s.valid.io s.ioConsumed
  | .field => s.result s.valid.field s.fieldVal.toNat
  | .fieldW => s.result s.valid.field s.fieldW.toNat
  | .recSel => some s.recSel.toNat
  | .recTs => s.recResult s.valid.ts (·.ts.toNat)
  | .recPrio => s.recResult false (·.prio.toNat)
  | .recLat => s.recResult s.valid.gps (·.lat.toNat)
  | .recLon => s.recResult s.valid.gps (·.lon.toNat)
  | .recAlt => s.recResult s.valid.gps (·.alt.toNat)
  | .recAng => s.recResult s.valid.gps (·.ang.toNat)
  | .recSat => s.recResult s.valid.gps (·.sat.toNat)
  | .recSpd => s.recResult s.valid.gps (·.spd.toNat)
  | .recIoTotal => s.recResult s.valid.io (·.ioTotal.toNat)
  | .recIoN => s.recResult s.valid.io (·.ioN.toNat)
  | .recIoFlags => s.recResult s.valid.io fun r => (BitVec.ofBool r.ioMm ++ BitVec.ofBool r.ioTr).toNat
  | .elemSel => some s.elemSel.toNat
  | .elemIdW => s.elemResult fun e => (e.w ++ e.id).toNat
  | .elemVal => s.elemResult (·.val.toNat)

/-- R25, R40: a write to `CTRL`. An ignored start changes no register (R76, R90, R198), and of these the two that R176
calls refusals mark the run. -/
def writeCtrl (w : BitVec 9) (s : State) : Host.Outcome State Fault Refusal :=
  match startVerdict s w with
  | .noStart => .next s
  | .ignoredBusy => .next s
  | .refused why => .next (s.refuseStart why)
  | .overCapacity => .fault .flenAboveFrameMax
  | .accepted => .next (s.startOp w)

/-- R43: a host write. A register keeps the low bits of a wider value (log 17); a read-only one is not written
(log 11). `FLEN`, `ARG_OFF` and `ARG_W` may be written while busy and then bear on the next start only (R197). -/
def writeReg (r : RegName) (v : Nat) (s : State) : Host.Outcome State Fault Refusal :=
  match r with
  | .ctrl => writeCtrl (BitVec.ofNat 9 v) s
  | .flen => .next { s with flen := v }
  | .argOff => .next { s with argOff := v }
  | .argW => .next { s with argW := BitVec.ofNat 4 v }
  | .recSel => .next { s with recSel := BitVec.ofNat 8 v }
  | .elemSel => .next { s with elemSel := BitVec.ofNat 10 v }
  | .status | .errOff | .valid | .endCur | .declLen | .codec | .payOff | .payLen | .recN | .recCnt | .ioConsumed
  | .field | .fieldW | .recTs | .recPrio | .recLat | .recLon | .recAlt | .recAng | .recSat | .recSpd | .recIoTotal
  | .recIoN | .recIoFlags | .elemIdW | .elemVal => .fault (.readOnlyRegister r)

/-- R43: a host access to register number `n`. -/
def onRegister (n : Nat) (k : RegName → Host.Outcome State Fault Refusal) : Host.Outcome State Fault Refusal :=
  match RegName.ofNumber n with
  | some r => k r
  | none => .fault (.noSuchRegister n)

/-- One host access. A write to `FB` while busy has no meaning (R195, R197; log 9). A read of `FB` answers the stored byte
(R172), also at or above `FLEN`, where U21 leaves the value open (log 25, DESIGN CHOICE, unsafe). -/
def hostStep (a : Access) (s : State) : Host.Outcome State Fault Refusal :=
  match a with
  | .writeReg n v => onRegister n fun r => writeReg r v s
  | .readReg n => onRegister n fun r => .next { s with rdata := readReg s r }
  | .writeFB off b =>
    if s.status.busy then .fault .bufferWrittenWhileBusy
    else if s.fits (off + 1) then .next { s with fb := Memory.write s.fb off b }
    else .fault (.noSuchOffset off)
  | .readFB off =>
    if s.fits (off + 1) then .next { s with rdata := some (Memory.read s.fb off).toNat }
    else .fault (.noSuchOffset off)
  | .reset => .next s.resetBlock

end Sys2Proof.Machine
end

