-- ==== Sys2Proof/Machine/Step.lean ====
section
/-! DEFINITION. One step: the host's next access, or the block's own move. -/

namespace Sys2Proof.Machine

/-- The block left to itself: it runs the latched operation to its finish (R41, R202) or, idle, "does nothing and
holds its registers" (R187). -/
def blockStep (s : State) : Host.Outcome State Fault Refusal :=
  match fetch s with
  | none => .next s
  | some (.ok i) => exec i s
  | some (.error e) => .refused (.noLatchedOperation e)

/-- The host's list says who moves (log 2). -/
def step (s : State) : Host.Outcome State Fault Refusal :=
  match s.host with
  | [] => blockStep s
  | .wait :: rest => blockStep { s with host := rest }
  | .access a :: rest => hostStep a { s with host := rest }

/-- `s` with the table word `w` placed so that the next step runs it (log 15). -/
def State.withFetchWord (s : State) (nbits w : Nat) : State :=
  match tableCode nbits w with
  | some c => s.placeCode c
  | none => s

end Sys2Proof.Machine
end

