-- ==== Sys2Proof/Safety.lean ====
section
/-! DEFINITION. The terms claims are made in: which registers a step leaves alone, what a well-formed frame is as a
list of records, and the invariant of the machine. Nothing here is used by a step. -/

namespace Sys2Proof.Machine

/-- R17 `MemRead(off, n)`: the bytes `FB[off : off + n]`. -/
def State.bytes (s : State) (off n : Nat) : List Byte := (List.range n).map fun i => Memory.read s.fb (off + i)

/-- R20: class (a), the parameters, the read pointers, the latched arguments and the host's own side are as in `s`:
what no operation writes. Every byte of the buffer reads as before. -/
structure State.KeepsInputs (s t : State) : Prop where
  params : t.params = s.params
  buffer : ∀ a, Memory.read t.fb a = Memory.read s.fb a
  cells : t.fb = s.fb
  flen : t.flen = s.flen
  argOff : t.argOff = s.argOff
  argW : t.argW = s.argW
  recSel : t.recSel = s.recSel
  elemSel : t.elemSel = s.elemSel
  job : t.job = s.job
  host : t.host = s.host
  rdata : t.rdata = s.rdata

/-- The results other than the record store and the route group. -/
structure State.KeepsNumbers (s t : State) : Prop where
  ioConsumed : t.ioConsumed = s.ioConsumed
  fieldVal : t.fieldVal = s.fieldVal
  fieldW : t.fieldW = s.fieldW

/-- The record store with its counts. -/
structure State.KeepsRecords (s t : State) : Prop where
  recN : t.recN = s.recN
  recCnt : t.recCnt = s.recCnt
  recs : t.recs = s.recs

/-- Every entry of the record store but `REC[0]`, and the counts. -/
structure State.KeepsOtherRecords (s t : State) : Prop where
  recN : t.recN = s.recN
  recCnt : t.recCnt = s.recCnt
  recAt : ∀ k, 0 < k → t.recAt k = s.recAt k

/-- R20 class (c): every result register. -/
structure State.KeepsResults (s t : State) : Prop where
  numbers : s.KeepsNumbers t
  records : s.KeepsRecords t
  route : t.route = s.route
  endCur : t.endCur = s.endCur

/-- R43, R42: the registers of class (c). -/
def RegName.isResult : RegName → Bool
  | .ctrl | .status | .flen | .argOff | .argW | .errOff | .valid | .recSel | .elemSel => false
  | .endCur | .declLen | .codec | .payOff | .payLen | .recN | .recCnt | .ioConsumed | .field | .fieldW
  | .recTs | .recPrio | .recLat | .recLon | .recAlt | .recAng | .recSat | .recSpd | .recIoTotal | .recIoN
  | .recIoFlags | .elemIdW | .elemVal => true

/-- R28: whether a `VALID` bit that covers the register is 1. -/
def RegName.covered (v : Valid) : RegName → Bool
  | .declLen | .codec | .payOff | .payLen => v.route
  | .recN | .recCnt | .recPrio => v.recs
  | .recTs => v.recs || v.ts
  | .recLat | .recLon | .recAlt | .recAng | .recSat | .recSpd => v.recs || v.gps
  | .recIoTotal | .recIoN | .recIoFlags | .elemIdW | .elemVal => v.recs || v.io
  | .ioConsumed => v.io
  | .endCur => v.recs || v.io || v.field
  | .field | .fieldW => v.field
  | .ctrl | .status | .flen | .argOff | .argW | .errOff | .valid | .recSel | .elemSel => true

/-- R41: `STATUS` after a successful finish, with the two flags. -/
def okStatus (trunc mismatch : Bool) : Status := ⟨.ok, false, true, trunc, mismatch⟩

/-- R178: the state after `raise K(off)` or `refuse NoLayout(off)`, the cursor standing at `cur`. -/
def State.failedWith (s : State) (c : Cause) (off cur : Nat) : State :=
  { s with
    status := ⟨.failed c, false, true, false, false⟩
    valid := ⟨false, false, false, false, false, false⟩
    errOff := off
    cur := cur }

/-- R118: a timestamp that TSD accepts under a policy. -/
abbrev timestampFits (policy : TsBit63Policy) (b : List Byte) : Prop := be b < 2 ^ 63 ∨ policy = .wrap

/-- R101: the optional length check does not reject the frame. -/
def lengthAccepted (p : Params) (declLen : BitVec 32) (flen : Nat) : Prop :=
  p.strictLength = true → Config.lengthConsistent declLen flen = true

/-- R63, R64, R151: the record whose fixed part stands at `cur`, each field from its own bytes, with the IO section
that IOP finds after it. -/
def recordAt (fr : List Byte) (cur : Nat) : Record :=
  let io := iop fr (cur + 24)
  { ts := zext64 (be (slice fr cur (cur + 8)))
    prio := BitVec.ofNat 8 (be (slice fr (cur + 8) (cur + 9)))
    lat := zext64 (be (slice fr (cur + 9) (cur + 13)))
    lon := zext64 (be (slice fr (cur + 13) (cur + 17)))
    alt := zext64 (be (slice fr (cur + 17) (cur + 19)))
    ang := zext64 (be (slice fr (cur + 19) (cur + 21)))
    sat := zext64 (be (slice fr (cur + 21) (cur + 22)))
    spd := zext64 (be (slice fr (cur + 23) (cur + 24)))
    ioTotal := BitVec.ofNat 32 io.total
    ioN := BitVec.ofNat 11 io.elems.length
    ioTr := io.tr
    ioMm := io.mm
    elems := io.elems }

/-- R151 as a relation: `n` whole records stand from `cur` on, they are `rs`, and the cursor ends at `fin`. -/
inductive RecordsAt (policy : TsBit63Policy) (fr : List Byte) : Nat → Nat → List Record → Nat → Prop where
  | done (cur : Nat) : RecordsAt policy fr 0 cur [] cur
  | more {n cur fin : Nat} {rs : List Record} (room : cur + 24 ≤ fr.length)
      (stamp : timestampFits policy (slice fr cur (cur + 8)))
      (rest : RecordsAt policy fr n (cur + 24 + (iop fr (cur + 24)).consumed) rs fin) :
      RecordsAt policy fr (n + 1) cur (recordAt fr cur :: rs) fin

/-- R154, R155, R174 item 7: what is wrong with the record at `cur`, its fields tested in wire order: the kind and
`ERR_OFF`; `none` when the record stands whole. -/
def recordFault (policy : TsBit63Policy) (fr : List Byte) (cur : Nat) : Option (Cause × Nat) :=
  if fr.length < cur + 8 then some (.truncatedRecord, cur)
  else if ¬timestampFits policy (slice fr cur (cur + 8)) then some (.malformedField, cur)
  else if fr.length < cur + 9 then some (.truncatedRecord, cur + 8)
  else if fr.length < cur + 24 then some (.truncatedRecord, cur + 9)
  else none

/-- R66: the wire bytes of an element, its id and its value. -/
def elementBytes (e : Byte × List Byte) : List Byte := e.1 :: e.2

/-- R65: a group with its count byte. -/
def groupBytes (es : List (Byte × List Byte)) : List Byte :=
  BitVec.ofNat 8 es.length :: es.flatMap elementBytes

/-- R62 to R66: one record as the device means it: raw field bytes, the declared total, and the four groups. -/
structure WireRecord where
  stamp : List Byte
  prio : Byte
  gps : List Byte
  total : Byte
  g1 : List (Byte × List Byte)
  g2 : List (Byte × List Byte)
  g4 : List (Byte × List Byte)
  g8 : List (Byte × List Byte)
deriving DecidableEq, Repr

/-- R65: a group of width class `w`: at most 255 elements, each value `w` bytes wide. -/
def legalGroup (w : Nat) (es : List (Byte × List Byte)) : Prop := es.length ≤ 255 ∧ ∀ e ∈ es, e.2.length = w

/-- R62 to R66, R74, R117: every field has its width and the timestamp's bit 63 is clear. -/
structure WireRecord.Legal (r : WireRecord) : Prop where
  stamp : r.stamp.length = 8
  fits : be r.stamp < 2 ^ 63
  gps : r.gps.length = 15
  g1 : legalGroup 1 r.g1
  g2 : legalGroup 2 r.g2
  g4 : legalGroup 4 r.g4
  g8 : legalGroup 8 r.g8

/-- R63, R65: the bytes of a record on the wire. -/
def WireRecord.bytes (r : WireRecord) : List Byte :=
  r.stamp ++ [r.prio] ++ r.gps ++ [r.total] ++ groupBytes r.g1 ++ groupBytes r.g2 ++ groupBytes r.g4 ++ groupBytes r.g8

/-- R34: an element in its containers. -/
def wireElem (w : Nat) (e : Byte × List Byte) : Elem :=
  ⟨BitVec.ofNat 16 e.1.toNat, BitVec.ofNat 4 w, zext64 (be e.2)⟩

/-- R145: an item of an IO section: a count byte, or an element, which is read whole or not at all (R138). -/
structure SectionItem where
  size : Nat
  elem : Option Elem
deriving DecidableEq, Repr

/-- R65: the items of a group of width class `w`: its count byte and its elements. -/
def groupItems (w : Nat) (es : List (Byte × List Byte)) : List SectionItem :=
  ⟨1, none⟩ :: es.map fun e => ⟨1 + w, some (wireElem w e)⟩

/-- R65: the items of a section in wire order, the total byte first. -/
def sectionItems (g1 g2 g4 g8 : List (Byte × List Byte)) : List SectionItem :=
  ⟨1, none⟩ :: (groupItems 1 g1 ++ groupItems 2 g2 ++ groupItems 4 g4 ++ groupItems 8 g8)

/-- R137, R139: the items that lie whole before a cut after `k` bytes: all up to the first that does not fit. -/
def wholeItems : Nat → List SectionItem → List SectionItem
  | _, [] => []
  | k, x :: xs => if x.size ≤ k then x :: wholeItems (k - x.size) xs else []

/-- R133: the elements of a record, the 1-byte group first. -/
def WireRecord.elems (r : WireRecord) : List Elem :=
  r.g1.map (wireElem 1) ++ r.g2.map (wireElem 2) ++ r.g4.map (wireElem 4) ++ r.g8.map (wireElem 8)

/-- R32: what the record store shows of it. -/
def WireRecord.record (r : WireRecord) : Record where
  ts := zext64 (be r.stamp)
  prio := r.prio
  lat := zext64 (be (slice r.gps 0 4))
  lon := zext64 (be (slice r.gps 4 8))
  alt := zext64 (be (slice r.gps 8 10))
  ang := zext64 (be (slice r.gps 10 12))
  sat := zext64 (be (slice r.gps 12 13))
  spd := zext64 (be (slice r.gps 14 15))
  ioTotal := BitVec.ofNat 32 r.total.toNat
  ioN := BitVec.ofNat 11 r.elems.length
  ioTr := false
  ioMm := r.total.toNat != r.elems.length
  elems := r.elems

/-- R34, R138: an element as IOP produces it: one id byte, a width of the four, and no bit above the value. -/
structure Elem.Ok (e : Elem) : Prop where
  id : e.id.toNat < 256
  width : e.w = 1 ∨ e.w = 2 ∨ e.w = 4 ∨ e.w = 8
  val : e.val.toNat < 256 ^ e.w.toNat

/-- R11, R32, R147: the IO fields of an entry agree with each other and stay in their ranges. -/
structure Record.IoOk (r : Record) : Prop where
  count : r.ioN.toNat = r.elems.length
  bound : r.elems.length ≤ 1020
  total : r.ioTotal.toNat < 256
  mismatch : r.ioMm = (r.ioTotal.toNat != r.elems.length)
  elems : ∀ e ∈ r.elems, e.Ok

/-- R32, R33: the ranges of the six GPS fields. -/
structure Record.FixOk (r : Record) : Prop where
  lat : r.lat.toNat < 2 ^ 32
  lon : r.lon.toNat < 2 ^ 32
  alt : r.alt.toNat < 2 ^ 16
  ang : r.ang.toNat < 2 ^ 16
  sat : r.sat.toNat < 2 ^ 8
  spd : r.spd.toNat < 2 ^ 8

/-- R32: the range of a timestamp. -/
def Record.StampOk (policy : TsBit63Policy) (r : Record) : Prop := policy = .malformed → r.ts.toNat < 2 ^ 63

/-- R40, R76, R90, R196: a busy block runs an operation, FIELD with a legal width, on a frame its buffer can hold. -/
structure State.BusyOk (s : State) : Prop where
  kind : s.status.kind = .none
  operation : ∃ i, decodeCtrl s.job.word = .ok i
  width : ctrlOp s.job.word = 6 → legalWidth s.job.argW = true
  room : s.fits s.job.flen = true

/-- The invariant of the machine. -/
structure State.Inv (s : State) : Prop where
  /-- The buffer is in its canonical form. -/
  canonical : Memory.wf s.fb = true
  /-- R21: it lists no offset at or above `FRAME_MAX`. -/
  capacity : ∀ c ∈ s.fb, s.fits (c.1 + 1) = true
  /-- R26: `BUSY` and `DONE` are never both 1. -/
  notBoth : ¬(s.status.busy = true ∧ s.status.done = true)
  busy : s.status.busy = true → s.BusyOk
  /-- R26: `KIND` is `NONE` exactly while no operation has finished since reset or since the last start. -/
  doneKind : s.status.done = true ↔ s.status.kind ≠ .none
  /-- R28: the bits of one operation's result groups, and no other combination. -/
  shape : s.valid ∈ [Valid.clear, { Valid.clear with route := true }, { Valid.clear with route := true, recs := true },
    { Valid.clear with recs := true }, { Valid.clear with ts := true }, { Valid.clear with gps := true },
    { Valid.clear with io := true }, { Valid.clear with field := true }]
  /-- R28, R178: a `VALID` bit is 1 only after `OK`. -/
  validOk : s.valid ≠ Valid.clear → s.status.kind = .ok
  /-- R26: the two flags are 1 only after `OK`. -/
  flagsOk : s.status.ioTrunc = true ∨ s.status.ioMismatch = true → s.status.kind = .ok
  /-- R30: the route group. -/
  route : s.valid.route = true → s.route.payOff = 9 ∧ s.route.codecId = s.route.codecSel.id
  /-- R31: as many records as announced. -/
  counts : s.valid.recs = true → s.recCnt.toNat = s.recs.length ∧ s.recCnt.toNat = s.recN.toNat
  /-- R32, R33, R34: what every visible record holds. -/
  records : s.valid.recs = true → ∀ r ∈ s.recs, r.IoOk ∧ r.FixOk ∧ r.StampOk s.params.tsBit63
  /-- R39: the summaries are the OR over the records produced. -/
  summaries : s.valid.recs = true →
    s.status.ioTrunc = anyTruncated s.recs ∧ s.status.ioMismatch = anyMismatch s.recs
  stamp : s.valid.ts = true → (s.recAt 0).StampOk s.params.tsBit63
  fix : s.valid.gps = true → (s.recAt 0).FixOk
  io : s.valid.io = true → (s.recAt 0).IoOk ∧
    s.status.ioTrunc = (s.recAt 0).ioTr ∧ s.status.ioMismatch = (s.recAt 0).ioMm
  /-- R36: the width of a FIELD result, and no bit above it. -/
  field : s.valid.field = true → legalWidth s.fieldW = true ∧ s.fieldVal.toNat < 256 ^ s.fieldW.toNat
  /-- R29: "the final value is copied to `END_CUR`". -/
  endCur : s.valid.recs = true ∨ s.valid.io = true ∨ s.valid.field = true → s.endCur = s.cur
  /-- R76, R90: a refused start leaves no operation running. -/
  mark : s.refusedStart ≠ none → s.status.busy = false
  /-- R29: the cursor's range. -/
  cursor : s.cur ≤ max s.job.flen s.job.argOff

end Sys2Proof.Machine
end

