-- ==== Sys2Proof/Certificates/Slice0/Obligations.lean ====
section
/-! DEFINITION. The statements for the provers, each from the numbered rules of spec/ it names. -/

open Sys2Proof Sys2Proof.Machine

/-! ## Encodings -/

/-- R70, R75, R76, R71, R72: words written out bit by bit from the tables, `1 rrrrr ooo` and `header length id`. -/
def Obligations.WrittenOutWordsDecode : Prop :=
  decodeCtrl 0b100000000 = .ok (.frame 0) ∧ decodeCtrl 0b100000001 = .ok (.route 0) ∧
  decodeCtrl 0b111111010 = .ok (.recOp 31) ∧ decodeCtrl 0b100000011 = .ok (.ts 0) ∧
  decodeCtrl 0b100001100 = .ok (.gps 1) ∧ decodeCtrl 0b100000101 = .ok (.ioe 0) ∧
  decodeCtrl 0b110000110 = .ok (.field 16) ∧ decodeCtrl 0b100000111 = .error .reservedOp ∧
  decodePrefix [0, 0, 0, 0, 0, 0, 0, 0x35, 0x08] = .ok (.codec8 53) ∧
  decodePrefix [0, 0, 0, 0, 0, 0, 0, 0x35, 0x8E] = .ok (.codec8Extended 53) ∧
  decodePrefix [0, 0, 0, 0, 0x01, 0x02, 0x03, 0x04, 0x10] = .ok (.codec16 0x01020304) ∧
  decodePrefix [0, 0, 0, 0, 0, 0, 0, 0x35, 0x07] = .error .unknownCodec ∧
  decodePrefix [0, 0, 0, 1, 0, 0, 0, 0x35, 0x08] = .error .invalidHeader

/-- R61, R70, R25, R75: decoding what the encoder writes gives the instruction back, every operand at every value. -/
def Obligations.DecodeOfEncodeIsIdentity : Prop :=
  ∀ i : Instr, decode (encode i) = .ok i

/-- R61, R70, R25, R75: a code that decodes is the code of what it decodes to, so no bit of it is dropped. -/
def Obligations.EncodeOfDecodeIsIdentity : Prop :=
  ∀ (c : Code) (i : Instr), decode c = .ok i → encode i = c

/-- The number of an instruction's code, numbered as the opcode table numbers it, decodes to the instruction. -/
def Obligations.TableNumberDecodes : Prop :=
  ∀ i : Instr, decodeTableWord (match encode i with | .ctrlWord _ => 16 | .framePrefix _ => 72) (encode i).number = some i

/-! ## The step, the start, the host -/

/-- R37, R40: a busy block's step runs the operation it latched; a host's `wait` before it is used up. -/
def Obligations.StepRunsLatchedOperation : Prop :=
  ∀ (s : State) (i : Instr), s.status.busy = true → decodeCtrl s.job.word = .ok i →
    (s.host = [] → step s = exec i s) ∧
    (∀ rest, s.host = .wait :: rest → step s = exec i { s with host := rest })

/-- R56, R95, R102, R160: under ROUTE or FRAME the step is that of the codec row which the frame's first nine bytes
decode to, when the frame holds them and the optional length check lets it through. -/
def Obligations.StepRunsCodecRow : Prop :=
  ∀ (s : State) (i : Instr) (r : BitVec 5), s.host = [] → s.status.busy = true →
    (decodeCtrl s.job.word = .ok (.route r) ∨ decodeCtrl s.job.word = .ok (.frame r)) →
    9 ≤ s.job.flen → lengthAccepted s.params (BitVec.ofNat 32 (be (s.bytes 4 4))) s.job.flen →
    decodePrefix (s.bytes 0 9) = .ok i → step s = exec i s

/-- The model's own placing of a table word (log 15): the very next step runs it. -/
def Obligations.PlacedWordRunsNext : Prop :=
  ∀ (s : State) (i : Instr) (n : Nat), Memory.wf s.fb = true → s.params.strictLength = false →
    n = (match encode i with | .ctrlWord _ => 16 | .framePrefix _ => 72) →
    step (s.withFetchWord n (encode i).number) = exec i (s.withFetchWord n (encode i).number)

/-- R187: "An idle block does nothing and holds its registers until the next start or reset." -/
def Obligations.IdleBlockHolds : Prop :=
  ∀ s : State, s.status.busy = false →
    (s.host = [] → step s = .next s) ∧ (∀ rest, s.host = .wait :: rest → step s = .next { s with host := rest })

/-- R40: what an accepted start does, to every register; the new cursor is R29's. `FLEN`, `ARG_OFF` and `ARG_W` are
read once, there: whatever they hold later, the operation ends as it would have. The model's choice is that the whole
`CTRL` word is latched with its reserved bits (log 24) and is the low nine bits of a wider value (log 17), and that the
mark of an earlier refused start goes (log 8). -/
def Obligations.AcceptedStartLatches : Prop :=
  (∀ (s : State) (v : Nat) (rest : List Move), s.host = .access (.writeReg 0 v) :: rest →
    v / 256 % 2 = 1 → s.status.busy = false → v % 8 ≠ 7 →
    (v % 8 = 6 → 1 ≤ s.argW.toNat ∧ s.argW.toNat ≤ 8) →
    (∀ m, s.params.frameMax = some m → s.flen ≤ m) →
    step s = .next
      { s with
        host := rest
        job := ⟨BitVec.ofNat 9 v, s.flen, s.argOff, s.argW⟩
        status := ⟨.none, true, false, false, false⟩
        valid := ⟨false, false, false, false, false, false⟩
        cur := if v % 8 ≤ 1 then 0 else s.argOff
        refusedStart := none }) ∧
  ∀ (i : Instr) (s t : State) (a b : Nat) (w : BitVec 4), exec i s = .next t →
    exec i { s with flen := a, argOff := b, argW := w } = .next { t with flen := a, argOff := b, argW := w }

/-- R25, R76, R198: a write to `CTRL` without `START`, while busy, or with `OP = 7` changes no register; and `OP = 7`
is no instruction. What becomes of the model's own mark `refusedStart`, which is no register, is left open here and
stated in `RefusalsMarkTheRun`. -/
def Obligations.IgnoredStartsChangeNothing : Prop :=
  (∀ (s : State) (v : Nat) (rest : List Move), s.host = .access (.writeReg 0 v) :: rest →
    (v / 256 % 2 = 0 ∨ s.status.busy = true) → step s = .next { s with host := rest }) ∧
  (∀ (s : State) (v : Nat) (rest : List Move), s.host = .access (.writeReg 0 v) :: rest → v % 8 = 7 →
    ∃ m, step s = .next { s with host := rest, refusedStart := m }) ∧
  ∀ (v : Nat) (i : Instr), v % 8 = 7 → decodeCtrl (BitVec.ofNat 9 v) ≠ .ok i

/-- R90 as its hardware's side has it, "no register changes" (the model's choice of a next state where R90's model has
no step: log 8): starting FIELD with `ARG_W` outside 1 to 8. Where an idle block refuses the start so, the model's own
mark says it. -/
def Obligations.IllegalWidthStartChangesNothing : Prop :=
  ∀ (s : State) (v : Nat) (rest : List Move), s.host = .access (.writeReg 0 v) :: rest → v % 8 = 6 →
    (s.argW.toNat < 1 ∨ 8 < s.argW.toNat) →
    step s = .next
      { s with
        host := rest
        refusedStart :=
          if v / 256 % 2 = 1 ∧ s.status.busy = false then some .illegalWidth else s.refusedStart }

/-- R176, U5, U15, U16: each of the three refusals marks the run (the marks are the model's: `KIND` for `NoLayout`, log 7,
and `refusedStart` for the two starts, log 8): a start with `OP = 7` and a FIELD start with an illegal width, which
change no register; and an operation that ends with `NoLayout`, which has no result. Nothing else does: no other outcome
of an operation, and no other step, whatever the host or the block does in it (where a running FIELD has a legal width,
as the invariant says, log 18). A new start and a reset leave the run unmarked, and after reset it is unmarked. -/
def Obligations.RefusalsMarkTheRun : Prop :=
  (∀ (s : State) (v : Nat) (rest : List Move) (why : RefusedStart), s.host = .access (.writeReg 0 v) :: rest →
    v / 256 % 2 = 1 → s.status.busy = false →
    (v % 8 = 7 ∧ why = .reservedOp ∨
      v % 8 = 6 ∧ (s.argW.toNat < 1 ∨ 8 < s.argW.toNat) ∧ why = .illegalWidth) →
    step s = .next { s with host := rest, refusedStart := some why } ∧
      ({ s with host := rest, refusedStart := some why } : State).runRefused = true) ∧
  (∀ (i : Instr) (s t : State), (∀ r, i = .field r → 1 ≤ s.job.argW.toNat ∧ s.job.argW.toNat ≤ 8) →
    exec i s = .next t → t.refusedStart = s.refusedStart ∧
      (t.status.kind = .failed .noLayout → t.runRefused = true ∧ t.valid = ⟨false, false, false, false, false, false⟩) ∧
      (s.refusedStart = none → t.status.kind ≠ .failed .noLayout → t.runRefused = false)) ∧
  (∀ s t : State, (∀ r, decodeCtrl s.job.word = .ok (.field r) → 1 ≤ s.job.argW.toNat ∧ s.job.argW.toNat ≤ 8) →
    step s = .next t → s.runRefused = false → t.runRefused = true →
    (∃ (v : Nat) (rest : List Move), s.host = .access (.writeReg 0 v) :: rest ∧ v / 256 % 2 = 1 ∧
      s.status.busy = false ∧ (v % 8 = 7 ∨ v % 8 = 6 ∧ (s.argW.toNat < 1 ∨ 8 < s.argW.toNat))) ∨
    (s.status.busy = true ∧ t.status.kind = .failed .noLayout)) ∧
  (∀ s t : State, step s = .next t → s.status.busy = false → t.status.busy = true → t.runRefused = false) ∧
  (∀ (s t : State) (rest : List Move), s.host = .access .reset :: rest → step s = .next t → t.runRefused = false) ∧
  State.reset.runRefused = false

/-- The host moves that the model stops on (log 9, log 10, log 11): a start of any operation with `FLEN` above `FRAME_MAX`
(R196), a buffer write while busy (R197), a write or read at an offset beyond the buffer, a register that R43 does not list, a write to one that it
makes read-only. -/
def Obligations.MeaninglessHostMovesStop : Prop :=
  (∀ (s : State) (v m : Nat) (rest : List Move), s.host = .access (.writeReg 0 v) :: rest → v / 256 % 2 = 1 →
    s.status.busy = false → v % 8 ≠ 7 → (v % 8 = 6 → 1 ≤ s.argW.toNat ∧ s.argW.toNat ≤ 8) →
    s.params.frameMax = some m → m < s.flen → step s = .fault .flenAboveFrameMax) ∧
  (∀ (s : State) (off : Nat) (b : Byte) (rest : List Move), s.host = .access (.writeFB off b) :: rest →
    s.status.busy = true → step s = .fault .bufferWrittenWhileBusy) ∧
  (∀ (s : State) (off m : Nat) (b : Byte) (rest : List Move), s.host = .access (.writeFB off b) :: rest →
    s.status.busy = false → s.params.frameMax = some m → m ≤ off → step s = .fault (.noSuchOffset off)) ∧
  (∀ (s : State) (off m : Nat) (rest : List Move), s.host = .access (.readFB off) :: rest →
    s.params.frameMax = some m → m ≤ off → step s = .fault (.noSuchOffset off)) ∧
  (∀ (s : State) (n v : Nat) (rest : List Move), 32 ≤ n →
    (s.host = .access (.writeReg n v) :: rest ∨ s.host = .access (.readReg n) :: rest) →
    step s = .fault (.noSuchRegister n)) ∧
  ∀ (s : State) (n v : Nat) (rest : List Move), n < 32 → n ∉ [0, 2, 3, 4, 17, 29] →
    s.host = .access (.writeReg n v) :: rest → ∃ r, RegName.ofNumber n = some r ∧ step s = .fault (.readOnlyRegister r)

/-- R43, R197: the host's write of a register that R43 makes writable changes that register alone, in a busy block
too. The model's choice is that a register keeps the low bits of a wider value (log 17), and that a write of `FLEN`
above `FRAME_MAX`, which R22 puts outside the model, is a step that stores it (log 10). -/
def Obligations.HostWritesOneRegister : Prop :=
  ∀ (s : State) (v : Nat) (rest : List Move),
    (s.host = .access (.writeReg 2 v) :: rest → step s = .next { s with host := rest, flen := v }) ∧
    (s.host = .access (.writeReg 3 v) :: rest → step s = .next { s with host := rest, argOff := v }) ∧
    (s.host = .access (.writeReg 4 v) :: rest → step s = .next { s with host := rest, argW := BitVec.ofNat 4 v }) ∧
    (s.host = .access (.writeReg 17 v) :: rest → step s = .next { s with host := rest, recSel := BitVec.ofNat 8 v }) ∧
    (s.host = .access (.writeReg 29 v) :: rest → step s = .next { s with host := rest, elemSel := BitVec.ofNat 10 v })

/-- R21: the host's write of a byte into an idle block's buffer lands there and nowhere else. R172, "the host can read
them from `FB`": the host's read of a byte answers it and changes nothing else, and the byte just written is what the
next read of its offset answers. (The answer stands in the model's own field `rdata`, log 2; that a byte at or above `FLEN`
answers as stored too, which the spec leaves open, is the model's choice, log 25.) -/
def Obligations.BufferWriteReadsBack : Prop :=
  (∀ (s : State) (off : Nat) (b : Byte) (rest : List Move), Memory.wf s.fb = true →
    s.host = .access (.writeFB off b) :: rest → s.status.busy = false →
    (∀ m, s.params.frameMax = some m → off < m) →
    ∃ fb', step s = .next { s with host := rest, fb := fb' } ∧ Memory.wf fb' = true ∧ Memory.read fb' off = b ∧
      ∀ a, a ≠ off → Memory.read fb' a = Memory.read s.fb a) ∧
  (∀ (s : State) (off : Nat) (rest : List Move), s.host = .access (.readFB off) :: rest →
    (∀ m, s.params.frameMax = some m → off < m) →
    step s = .next { s with host := rest, rdata := some (Memory.read s.fb off).toNat }) ∧
  ∀ (s t : State) (off : Nat) (b : Byte) (rest : List Move), Memory.wf s.fb = true →
    s.host = .access (.writeFB off b) :: .access (.readFB off) :: rest → step s = .next t →
    step t = .next { s with host := rest, fb := t.fb, rdata := some b.toNat }

/-- R44, R190, R191: what reset leaves, both as the model's first state and after a reset in any state, busy or not:
every register R44 gives a value, no value in the others, `FB` untouched. -/
def Obligations.ResetLeavesTable : Prop :=
  (∀ t : State, (t = State.reset ∨
      ∃ (s : State) (rest : List Move), s.host = .access .reset :: rest ∧ step s = .next t) →
    t.flen = 0 ∧ t.argOff = 0 ∧ t.argW = 0 ∧ readReg t .ctrl = some 0 ∧
    t.status = ⟨.none, false, false, false, false⟩ ∧ readReg t .status = some 0 ∧ readReg t .errOff = none ∧
    t.valid = ⟨false, false, false, false, false, false⟩ ∧ (∀ r : RegName, r.isResult = true → readReg t r = none) ∧
    t.recSel = 0 ∧ t.elemSel = 0 ∧ t.doneSignal = false ∧ t.errSignal = false) ∧
  ∀ (s : State) (rest : List Move), s.host = .access .reset :: rest →
    ∃ t, step s = .next t ∧ t.fb = s.fb ∧ t.params = s.params ∧ t.host = rest

/-- R42, R28: a register of class (c) is `none` while `BUSY = 1` or while no `VALID` bit that covers it is 1. -/
def Obligations.InvalidResultsReadAsNoValue : Prop :=
  ∀ (s : State) (r : RegName), r.isResult = true → (s.status.busy = true ∨ r.covered s.valid = false) →
    readReg s r = none

/-- R32, R43: "Selecting an entry that holds no value" reads as no value: a record at or above `REC_CNT` after FRAME
or REC, a record other than `REC[0]` after TS, GPS or IOE, an element at or above `IO_N`. -/
def Obligations.EntriesBeyondCountReadAsNoValue : Prop :=
  (∀ (s : State) (r : RegName),
    r ∈ [RegName.recTs, .recPrio, .recLat, .recLon, .recAlt, .recAng, .recSat, .recSpd, .recIoTotal, .recIoN,
      .recIoFlags, .elemIdW, .elemVal] →
    (s.valid.recs = true → s.recCnt.toNat ≤ s.recSel.toNat) →
    (s.recSel = 0 → s.valid.ts = false ∧ s.valid.gps = false ∧ s.valid.io = false) → readReg s r = none) ∧
  ∀ s : State, (s.recAt s.recSel.toNat).ioN.toNat ≤ s.elemSel.toNat →
    readReg s .elemIdW = none ∧ readReg s .elemVal = none

/-- R27: `ERR_OFF` has a value exactly when `STATUS.KIND` is an error kind or `NoLayout`. -/
def Obligations.ErrOffHasValueOnlyAfterFailure : Prop :=
  ∀ s : State, (∀ c, s.status.kind = .failed c → readReg s .errOff = some s.errOff) ∧
    ((s.status.kind = .ok ∨ s.status.kind = .none) → readReg s .errOff = none)

/-- R43: a read of a listed register answers what that register reads as and changes nothing else; the names by their
numbers; and what each number answers: `CTRL` 0, the other registers of classes (a) and (b) and the read pointers what
they hold, a result register of a valid group (R28, R42), the block being idle, what it holds, with the fields of
`CODEC`, `REC_IO_FLAGS` and `ELEM_ID_W` at their places, and registers 18 to 31 of the record that `REC_SEL` and the element
that `ELEM_SEL` selects. -/
def Obligations.HostReadAnswersRegister : Prop :=
  (∀ (s : State) (n : Nat) (rest : List Move), n < 32 → s.host = .access (.readReg n) :: rest →
    ∃ r, RegName.ofNumber n = some r ∧ step s = .next { s with host := rest, rdata := readReg { s with host := rest } r }) ∧
  (List.range 32).map RegName.ofNumber =
    ([.ctrl, .status, .flen, .argOff, .argW, .errOff, .valid, .endCur].map some ++
      [.declLen, .codec, .payOff, .payLen, .recN, .recCnt, .ioConsumed, .field].map some ++
      [.fieldW, .recSel, .recTs, .recPrio, .recLat, .recLon, .recAlt, .recAng].map some ++
      [.recSat, .recSpd, .recIoTotal, .recIoN, .recIoFlags, .elemSel, .elemIdW, .elemVal].map some) ∧
  ∀ (s : State) (rest : List Move),
    let reads := fun (n x : Nat) =>
      step { s with host := .access (.readReg n) :: rest } = .next { s with host := rest, rdata := some x }
    let rec_ := s.recAt s.recSel.toNat
    let holds := fun (own : Bool) =>
      (s.valid.recs = true ∧ s.recSel.toNat < s.recCnt.toNat) ∨ (own = true ∧ s.recSel = 0)
    (reads 0 0 ∧ reads 1 s.status.word.toNat ∧ reads 2 s.flen ∧ reads 3 s.argOff ∧ reads 4 s.argW.toNat ∧
      reads 6 s.valid.word.toNat ∧ reads 17 s.recSel.toNat ∧ reads 29 s.elemSel.toNat) ∧
    (∀ c, s.status.kind = .failed c → reads 5 s.errOff) ∧
    (s.status.busy = false →
      (s.valid.route = true →
        reads 8 s.route.declLen.toNat ∧ reads 9 (s.route.codecId.toNat + 256 * s.route.codecSel.sel.toNat) ∧
        reads 10 s.route.payOff ∧ reads 11 s.route.payLen) ∧
      (s.valid.recs = true → reads 12 s.recN.toNat ∧ reads 13 s.recCnt.toNat) ∧
      (s.valid.recs = true ∨ s.valid.io = true ∨ s.valid.field = true → reads 7 s.endCur) ∧
      (s.valid.io = true → reads 14 s.ioConsumed) ∧
      (s.valid.field = true → reads 15 s.fieldVal.toNat ∧ reads 16 s.fieldW.toNat) ∧
      (holds s.valid.ts → reads 18 rec_.ts.toNat) ∧
      (holds false → reads 19 rec_.prio.toNat) ∧
      (holds s.valid.gps →
        reads 20 rec_.lat.toNat ∧ reads 21 rec_.lon.toNat ∧ reads 22 rec_.alt.toNat ∧ reads 23 rec_.ang.toNat ∧
        reads 24 rec_.sat.toNat ∧ reads 25 rec_.spd.toNat) ∧
      (holds s.valid.io →
        reads 26 rec_.ioTotal.toNat ∧ reads 27 rec_.ioN.toNat ∧ reads 28 (rec_.ioTr.toNat + 2 * rec_.ioMm.toNat) ∧
        ∀ e, s.elemSel.toNat < rec_.ioN.toNat → rec_.elems[s.elemSel.toNat]? = some e →
          reads 30 (e.id.toNat + 65536 * e.w.toNat) ∧ reads 31 e.val.toNat))

/-- R26, R28, R171, R177: the bits of `STATUS` and `VALID`, the nine codes of `KIND`, and the two signals. -/
def Obligations.StatusValidAndSignals : Prop :=
  (Kind.none.code = 0 ∧ Kind.ok.code = 1 ∧ (Kind.failed .invalidHeader).code = 2 ∧ (Kind.failed .unknownCodec).code = 3 ∧
    (Kind.failed .malformedField).code = 4 ∧ (Kind.failed .truncatedRecord).code = 5 ∧
    (Kind.failed .lengthMismatch).code = 6 ∧ (Kind.failed .preconditionError).code = 7 ∧
    (Kind.failed .noLayout).code = 8) ∧
  ∀ s : State,
    (s.status.word.extractLsb' 0 4 = s.status.kind.code ∧ s.status.word.getLsbD 4 = s.status.busy ∧
      s.status.word.getLsbD 5 = s.status.done ∧ s.status.word.getLsbD 6 = s.status.ioTrunc ∧
      s.status.word.getLsbD 7 = s.status.ioMismatch) ∧
    (s.valid.word.getLsbD 0 = s.valid.route ∧ s.valid.word.getLsbD 1 = s.valid.recs ∧
      s.valid.word.getLsbD 2 = s.valid.ts ∧ s.valid.word.getLsbD 3 = s.valid.gps ∧
      s.valid.word.getLsbD 4 = s.valid.io ∧ s.valid.word.getLsbD 5 = s.valid.field) ∧
    s.doneSignal = s.status.done ∧
    (s.errSignal = true ↔ s.status.done = true ∧ ∃ c, s.status.kind = .failed c)

/-! ## FX, BEU and FIELD -/

/-- R85: "The result is all `n` bytes or nothing". -/
def Obligations.ExtractorIsAllOrNothing : Prop :=
  ∀ (fr : List Byte) (c n : Nat),
    (c + n ≤ fr.length → ∃ b, fx fr c n = some b ∧ b.length = n ∧ ∀ k, k < n → b[k]? = fr[c + k]?) ∧
    (fr.length < c + n → fx fr c n = none)

/-- R88, R15: BE is the positional sum, the first byte the most significant, below `2^(8n)`; and R88's examples. -/
def Obligations.BigEndianIsPositionalSum : Prop :=
  (∀ b : List Byte, be b = ∑ i ∈ Finset.range b.length, (b.getD i 0).toNat * 256 ^ (b.length - 1 - i) ∧
    be b < 2 ^ (8 * b.length)) ∧
  be [0x00, 0x00, 0x00, 0x35] = 53 ∧ be [0x5E, 0x0F] = 24079 ∧ be [0xFF, 0xFF, 0xFF, 0xFF] = 4294967295 ∧
  be [0x00, 0x00, 0x01, 0x6B, 0x40, 0xD8, 0xEA, 0x30] = 1560161086000

/-- R89: FIELD. It completes when its bytes are there, fails when they are not, and never starts with an illegal
width. -/
def Obligations.FieldOperation : Prop :=
  (∀ (r : BitVec 5) (s : State), 1 ≤ s.job.argW.toNat → s.job.argW.toNat ≤ 8 →
    s.job.argOff + s.job.argW.toNat ≤ s.job.flen →
    exec (.field r) s = .next
      { s with
        fieldVal := BitVec.ofNat 64 (be (s.bytes s.job.argOff s.job.argW.toNat))
        fieldW := s.job.argW
        cur := s.job.argOff + s.job.argW.toNat
        endCur := s.job.argOff + s.job.argW.toNat
        status := okStatus false false
        valid := ⟨false, false, false, false, false, true⟩ }) ∧
  (∀ (r : BitVec 5) (s : State), 1 ≤ s.job.argW.toNat → s.job.argW.toNat ≤ 8 →
    s.job.flen < s.job.argOff + s.job.argW.toNat →
    exec (.field r) s = .next (s.failedWith .malformedField s.job.argOff s.job.argOff)) ∧
  (∀ (s : State) (w : BitVec 9), ctrlOp w = 6 → (s.argW.toNat < 1 ∨ 8 < s.argW.toNat) →
    startVerdict s w ≠ .accepted) ∧
  ∀ r : BitVec 5, decodeCtrl (encodeCtrl 6 r) = .ok (.field r)

/-- R48: FIELD with width 8 and TS at one offset see the same bytes, so where both succeed the two values are equal. -/
def Obligations.FieldAndTimestampSeeSameBytes : Prop :=
  ∀ (r r' : BitVec 5) (s t u : State), s.job.argW = 8 → exec (.field r) s = .next t → exec (.ts r') s = .next u →
    t.status.kind = .ok → u.status.kind = .ok → (u.recAt 0).ts = t.fieldVal

/-! ## TS and GPS -/

/-- R115 to R118: TS by the eight bytes at `ARG_OFF`: a value below `2^63`; one at or above it under each policy; or
too few bytes. Nothing but `REC[0].TS`, `STATUS`, `VALID` and the cursor is written on success. -/
def Obligations.TimestampOperation : Prop :=
  ∀ (r : BitVec 5) (s : State),
    let u := be (s.bytes s.job.argOff 8)
    let stored := fun (t : BitVec 64) (c : Nat) =>
      { s with
        recs := { s.recAt 0 with ts := t } :: s.recs.tail
        cur := c
        status := okStatus false false
        valid := ⟨false, false, true, false, false, false⟩ }
    decodeCtrl (encodeCtrl 3 r) = .ok (.ts r) ∧
    (s.job.argOff + 8 ≤ s.job.flen → u < 2 ^ 63 →
      ∃ t c, t.toInt = (u : Int) ∧ exec (.ts r) s = .next (stored t c)) ∧
    (s.job.argOff + 8 ≤ s.job.flen → 2 ^ 63 ≤ u → s.params.tsBit63 = .wrap →
      ∃ t c, t.toInt = (u : Int) - 2 ^ 64 ∧ exec (.ts r) s = .next (stored t c)) ∧
    (s.job.argOff + 8 ≤ s.job.flen → 2 ^ 63 ≤ u → s.params.tsBit63 = .malformed →
      exec (.ts r) s = .next (s.failedWith .malformedField s.job.argOff s.job.argOff)) ∧
    (s.job.flen < s.job.argOff + 8 →
      exec (.ts r) s = .next (s.failedWith .malformedField s.job.argOff s.job.argOff))

/-- R122 to R124, R126, R127: GPS, each field from its own bytes of the block, speed from byte 14 alone; too few bytes
give no partial fix. -/
def Obligations.GpsOperation : Prop :=
  ∀ (r : BitVec 5) (s : State),
    let field := fun (at_ n : Nat) => BitVec.ofNat 64 (be (s.bytes (s.job.argOff + at_) n))
    decodeCtrl (encodeCtrl 4 r) = .ok (.gps r) ∧
    (s.job.argOff + 15 ≤ s.job.flen → ∃ c, exec (.gps r) s = .next
      { s with
        recs :=
          { s.recAt 0 with
            lat := field 0 4, lon := field 4 4, alt := field 8 2, ang := field 10 2, sat := field 12 1,
            spd := field 14 1 } :: s.recs.tail
        cur := c
        status := okStatus false false
        valid := ⟨false, false, false, true, false, false⟩ }) ∧
    (s.job.flen < s.job.argOff + 15 →
      exec (.gps r) s = .next (s.failedWith .malformedField s.job.argOff s.job.argOff))

/-- R125: two buffers that differ only in byte 13 of the block give the same outcome in every register; and the byte
is required all the same: fourteen bytes are too few, fifteen are enough. -/
def Obligations.GpsIgnoresByte13 : Prop :=
  (∀ (r : BitVec 5) (s t : State) (fb' : List Host.Cell),
    (∀ a, a ≠ s.job.argOff + 13 → Memory.read fb' a = Memory.read s.fb a) →
    exec (.gps r) s = .next t → exec (.gps r) { s with fb := fb' } = .next { t with fb := fb' }) ∧
  ∀ (r : BitVec 5) (s : State), ∃ t, exec (.gps r) s = .next t ∧
    (s.job.flen = s.job.argOff + 14 → t.status.kind = .failed .malformedField) ∧
    (s.job.flen = s.job.argOff + 15 → t.status.kind = .ok)

/-! ## IOE and the IO section -/

/-- R132: IOE never fails; what IOP gives goes to `REC[0]`, `IO_CONSUMED`, `END_CUR` and the flags. -/
def Obligations.IoeOperation : Prop :=
  ∀ (r : BitVec 5) (s : State),
    let io := iop s.frame s.job.argOff
    decodeCtrl (encodeCtrl 5 r) = .ok (.ioe r) ∧ exec (.ioe r) s = .next
      { s with
        recs :=
          { s.recAt 0 with
            ioTotal := BitVec.ofNat 32 io.total, ioN := BitVec.ofNat 11 io.elems.length, ioTr := io.tr, ioMm := io.mm,
            elems := io.elems } :: s.recs.tail
        ioConsumed := io.consumed
        endCur := s.job.argOff + io.consumed
        cur := s.job.argOff + io.consumed
        status := okStatus io.tr io.mm
        valid := ⟨false, false, false, false, true, false⟩ }

/-- R133, R134, R136, R138, R140, R145, R146: IOP reads any well-formed section, wherever it stands and whatever
follows it: the declared total, every element in wire order, the bytes of the whole section, no truncation. -/
def Obligations.IopReadsWireSection : Prop :=
  ∀ (before after : List Byte) (total : Byte) (g1 g2 g4 g8 : List (Byte × List Byte)),
    legalGroup 1 g1 → legalGroup 2 g2 → legalGroup 4 g4 → legalGroup 8 g8 →
    let section_ := total :: (groupBytes g1 ++ groupBytes g2 ++ groupBytes g4 ++ groupBytes g8)
    let elems := g1.map (wireElem 1) ++ g2.map (wireElem 2) ++ g4.map (wireElem 4) ++ g8.map (wireElem 8)
    iop (before ++ section_ ++ after) before.length =
      ⟨elems, total.toNat, 5 + 2 * g1.length + 3 * g2.length + 5 * g4.length + 9 * g8.length, false,
        total.toNat != elems.length⟩

/-- R146: when `IO_TR = 0` the section was complete: the bytes consumed are a well-formed section and the elements
are its elements. -/
def Obligations.UntruncatedSectionIsWhole : Prop :=
  ∀ (fr : List Byte) (off : Nat), (iop fr off).tr = false →
    ∃ (total : Byte) (g1 g2 g4 g8 : List (Byte × List Byte)),
      legalGroup 1 g1 ∧ legalGroup 2 g2 ∧ legalGroup 4 g4 ∧ legalGroup 8 g8 ∧
      slice fr off (off + (iop fr off).consumed) =
        total :: (groupBytes g1 ++ groupBytes g2 ++ groupBytes g4 ++ groupBytes g8) ∧
      (iop fr off).consumed = 5 + 2 * g1.length + 3 * g2.length + 5 * g4.length + 9 * g8.length ∧
      (iop fr off).elems = g1.map (wireElem 1) ++ g2.map (wireElem 2) ++ g4.map (wireElem 4) ++ g8.map (wireElem 8)

/-- R137, R139, R145: a lenient stop keeps what was decoded. Of a well-formed section cut after `k` bytes, in any place
after its total byte, IOP gives exactly the elements all of whose `1 + w` bytes lie before the cut, counts the bytes of
the whole items as consumed, and sets `IO_TR`. R135: with the total byte absent, at the end of the frame or beyond it, the
result is empty and `IO_MM` is 0. For every frame: bytes added at its end can only add elements after those decoded
without them, and after a section that was not cut they change nothing. -/
def Obligations.TruncationKeepsDecodedElements : Prop :=
  (∀ (before : List Byte) (total : Byte) (g1 g2 g4 g8 : List (Byte × List Byte)) (k : Nat),
    legalGroup 1 g1 → legalGroup 2 g2 → legalGroup 4 g4 → legalGroup 8 g8 →
    let section_ := total :: (groupBytes g1 ++ groupBytes g2 ++ groupBytes g4 ++ groupBytes g8)
    let whole := wholeItems k (sectionItems g1 g2 g4 g8)
    let elems := whole.filterMap SectionItem.elem
    0 < k → k < section_.length →
    iop (before ++ section_.take k) before.length =
      ⟨elems, total.toNat, (whole.map SectionItem.size).sum, true, total.toNat != elems.length⟩) ∧
  (∀ (fr : List Byte) (off : Nat), fr.length ≤ off → iop fr off = ⟨[], 0, 0, true, false⟩) ∧
  ∀ (fr more : List Byte) (off : Nat), off < fr.length →
    (iop fr off).elems <+: (iop (fr ++ more) off).elems ∧ (iop fr off).consumed ≤ (iop (fr ++ more) off).consumed ∧
    ((iop fr off).tr = false → iop (fr ++ more) off = iop fr off)

/-- R149: the bounds of an IO section. -/
def Obligations.IoSectionBounds : Prop :=
  ∀ (fr : List Byte) (off : Nat),
    (iop fr off).elems.length ≤ 1020 ∧ (iop fr off).consumed ≤ 4850 ∧
    (off ≤ fr.length → (iop fr off).consumed ≤ fr.length - off) ∧ (fr.length ≤ off → (iop fr off).consumed = 0)

/-- R34, R16, R140: an element's value bytes are recovered from `W` and `VAL`, its id is its first byte, and `valueHex`
has two digits a byte. -/
def Obligations.ElementValueRoundTrip : Prop :=
  ∀ (w : Nat) (x : Byte) (v : List Byte), w ∈ widthClasses → v.length = w →
    (mkElem w (x :: v)).valueBytes = v ∧ (mkElem w (x :: v)).id.toNat = x.toNat ∧
    (mkElem w (x :: v)).w.toNat = w ∧ (mkElem w (x :: v)).valueHex = hexstr v ∧ (hexstr v).length = 2 * w

/-- R142: another total byte changes neither the elements nor the bytes consumed nor the truncation; it is reported,
and it sets `IO_MM`. -/
def Obligations.TotalDoesNotSteerParse : Prop :=
  ∀ (fr : List Byte) (off : Nat) (x : Byte), off < fr.length →
    iop (fr.set off x) off =
      ⟨(iop fr off).elems, x.toNat, (iop fr off).consumed, (iop fr off).tr, x.toNat != (iop fr off).elems.length⟩

/-! ## REC and FRAME -/

/-- R151, R156, R159, R31: when as many whole records stand after the count byte as it announces, REC produces them all,
in wire order, with `END_CUR` after the last. -/
def Obligations.RecCompletes : Prop :=
  ∀ (r : BitVec 5) (s : State) (rs : List Record) (fin : Nat), s.job.argOff < s.job.flen →
    RecordsAt s.params.tsBit63 s.frame (Memory.read s.fb s.job.argOff).toNat (s.job.argOff + 1) rs fin →
    exec (.recOp r) s = .next
      { s with
        recN := Memory.read s.fb s.job.argOff
        recCnt := BitVec.ofNat 9 (Memory.read s.fb s.job.argOff).toNat
        recs := rs
        endCur := fin
        cur := fin
        status := okStatus (rs.any (·.ioTr)) (rs.any (·.ioMm))
        valid := ⟨false, true, false, false, false, false⟩ }

/-- R154, R155, R159, R174: REC fails at the first record that does not stand whole, with that field's kind and offset,
and the records before it are dropped. -/
def Obligations.RecFailsAtFirstBadRecord : Prop :=
  ∀ (r : BitVec 5) (s : State) (rs : List Record) (k cur off : Nat) (c : Cause), s.job.argOff < s.job.flen →
    k < (Memory.read s.fb s.job.argOff).toNat →
    RecordsAt s.params.tsBit63 s.frame k (s.job.argOff + 1) rs cur →
    recordFault s.params.tsBit63 s.frame cur = some (c, off) →
    exec (.recOp r) s = .next (s.failedWith c off off)

/-- R152: the record count byte absent, for REC at or beyond the end of the frame and for FRAME on a frame of exactly
9 bytes. -/
def Obligations.RecordCountAbsent : Prop :=
  (∀ (r : BitVec 5) (s : State), s.job.flen ≤ s.job.argOff →
    exec (.recOp r) s = .next (s.failedWith .malformedField s.job.argOff s.job.argOff)) ∧
  ∀ (r : BitVec 5) (s : State), s.job.flen = 9 → s.bytes 0 4 = [0, 0, 0, 0] → Memory.read s.fb 8 = 0x08 →
    lengthAccepted s.params (BitVec.ofNat 32 (be (s.bytes 4 4))) s.job.flen →
    exec (.frame r) s = .next (s.failedWith .malformedField 9 9)

/-- R153: a record count of 0 succeeds with no records. -/
def Obligations.RecOfZeroRecords : Prop :=
  ∀ (r : BitVec 5) (s : State), s.job.argOff < s.job.flen → Memory.read s.fb s.job.argOff = 0 →
    exec (.recOp r) s = .next
      { s with
        recN := 0
        recCnt := 0
        recs := []
        endCur := s.job.argOff + 1
        cur := s.job.argOff + 1
        status := okStatus false false
        valid := ⟨false, true, false, false, false, false⟩ }

/-- R157: "Lenient truncation therefore survives into a successful result only in the last record." -/
def Obligations.TruncationOnlyInLastRecord : Prop :=
  ∀ (r : BitVec 5) (i : Instr) (s t : State), (i = .recOp r ∨ i = .frame r) → exec i s = .next t →
    t.status.kind = .ok → ∀ k, k + 1 < t.recCnt.toNat → (t.recAt k).ioTr = false

/-- R62 to R66, R151, R158, R160: FRAME decodes every well-formed Codec8 frame to the records it was made of, whatever
trailer follows. -/
def Obligations.WellFormedFrameDecodes : Prop :=
  ∀ (r : BitVec 5) (s : State) (declLen : BitVec 32) (ws : List WireRecord) (trailer : List Byte),
    ws.length ≤ 255 → (∀ w ∈ ws, w.Legal) → lengthAccepted s.params declLen s.job.flen →
    s.frame = [0, 0, 0, 0] ++ beBytes 4 declLen.toNat ++ [0x08, BitVec.ofNat 8 ws.length] ++
      ws.flatMap WireRecord.bytes ++ trailer →
    exec (.frame r) s = .next
      { s with
        route := ⟨declLen, 0x08, .codec8, 9, s.job.flen - 9⟩
        recN := BitVec.ofNat 8 ws.length
        recCnt := BitVec.ofNat 9 ws.length
        recs := ws.map WireRecord.record
        endCur := 10 + (ws.flatMap WireRecord.bytes).length
        cur := 10 + (ws.flatMap WireRecord.bytes).length
        status := okStatus false (ws.any fun w => w.total.toNat != w.elems.length)
        valid := ⟨true, true, false, false, false, false⟩ }

/-- R160, R151: FRAME on a Codec8 frame whose records all stand whole. -/
def Obligations.FrameCompletes : Prop :=
  ∀ (r : BitVec 5) (s : State) (rs : List Record) (fin : Nat), 10 ≤ s.job.flen → s.bytes 0 4 = [0, 0, 0, 0] →
    lengthAccepted s.params (BitVec.ofNat 32 (be (s.bytes 4 4))) s.job.flen → Memory.read s.fb 8 = 0x08 →
    RecordsAt s.params.tsBit63 s.frame (Memory.read s.fb 9).toNat 10 rs fin →
    exec (.frame r) s = .next
      { s with
        route := ⟨BitVec.ofNat 32 (be (s.bytes 4 4)), 0x08, .codec8, 9, s.job.flen - 9⟩
        recN := Memory.read s.fb 9
        recCnt := BitVec.ofNat 9 (Memory.read s.fb 9).toNat
        recs := rs
        endCur := fin
        cur := fin
        status := okStatus (rs.any (·.ioTr)) (rs.any (·.ioMm))
        valid := ⟨true, true, false, false, false, false⟩ }

/-- R161, R170, R176, R178: FRAME on one of the six codecs without a layout ends with `NoLayout` at offset 8 and no result.
That this is a next state whose `KIND` marks the refusal, and not a refused step, is the model's reading (log 7). -/
def Obligations.FrameRefusesOtherCodecs : Prop :=
  ∀ (r : BitVec 5) (s : State), 9 ≤ s.job.flen → s.bytes 0 4 = [0, 0, 0, 0] →
    lengthAccepted s.params (BitVec.ofNat 32 (be (s.bytes 4 4))) s.job.flen →
    Memory.read s.fb 8 ∈ [(0x8E : Byte), 0x0C, 0x0D, 0x0E, 0x0F, 0x10] →
    ∃ c, exec (.frame r) s = .next (s.failedWith .noLayout 8 c)

/-- R160: "Flags and errors: those of ROUTE, then those of REC": where ROUTE fails, FRAME ends in the same state; where
ROUTE finds Codec8 and REC at offset 9 fails, FRAME fails with its kind and offset. -/
def Obligations.FrameFailsAsRouteThenRec : Prop :=
  (∀ (r r' : BitVec 5) (s t : State) (c : Cause), exec (.route r) s = .next t → t.status.kind = .failed c →
    exec (.frame r') s = .next t) ∧
  ∀ (r r' r'' : BitVec 5) (s t u : State) (c : Cause), exec (.route r) s = .next t → t.status.kind = .ok →
    t.route.codecSel = .codec8 → exec (.recOp r') { s with job := { s.job with argOff := 9 } } = .next u →
    u.status.kind = .failed c → exec (.frame r'') s = .next (s.failedWith c u.errOff u.errOff)

/-! ## ROUTE and the codec rows -/

/-- R95, R30, R98 to R100, R102 to R109: ROUTE on a frame that passes its checks: the declared length, the codec id and
its codec, the payload's place and size, and no other register. -/
def Obligations.RouteCompletes : Prop :=
  ∀ (r : BitVec 5) (s : State) (id : Byte) (codec : Codec),
    (id, codec) ∈ [((0x08 : Byte), Codec.codec8), (0x8E, .codec8Extended), (0x0C, .codec12), (0x0D, .codec13),
      (0x0E, .codec14), (0x0F, .codec15), (0x10, .codec16)] →
    9 ≤ s.job.flen → s.bytes 0 4 = [0, 0, 0, 0] → Memory.read s.fb 8 = id →
    lengthAccepted s.params (BitVec.ofNat 32 (be (s.bytes 4 4))) s.job.flen →
    ∃ c, exec (.route r) s = .next
      { s with
        route := ⟨BitVec.ofNat 32 (be (s.bytes 4 4)), id, codec, 9, s.job.flen - 9⟩
        cur := c
        status := okStatus false false
        valid := ⟨true, false, false, false, false, false⟩ }

/-- R96, R97, R101, R110, R174: ROUTE's errors in the order of its steps: too short, by the instance's kind; a non-zero
header; a declared length the check rejects; an id that is none of the seven. -/
def Obligations.RouteFailsInOrder : Prop :=
  ∀ (r : BitVec 5) (s : State),
    (s.job.flen < 9 → s.params.shortFrameKind = .preconditionError →
      ∃ c, exec (.route r) s = .next (s.failedWith .preconditionError 0 c)) ∧
    (s.job.flen < 9 → s.params.shortFrameKind = .invalidHeader →
      ∃ c, exec (.route r) s = .next (s.failedWith .invalidHeader 0 c)) ∧
    (9 ≤ s.job.flen → s.bytes 0 4 ≠ [0, 0, 0, 0] →
      ∃ c, exec (.route r) s = .next (s.failedWith .invalidHeader 0 c)) ∧
    (9 ≤ s.job.flen → s.bytes 0 4 = [0, 0, 0, 0] → s.params.strictLength = true →
      Config.lengthConsistent (BitVec.ofNat 32 (be (s.bytes 4 4))) s.job.flen = true ∨
        ∃ c, exec (.route r) s = .next (s.failedWith .lengthMismatch 4 c)) ∧
    (9 ≤ s.job.flen → s.bytes 0 4 = [0, 0, 0, 0] →
      lengthAccepted s.params (BitVec.ofNat 32 (be (s.bytes 4 4))) s.job.flen →
      Memory.read s.fb 8 ∉ [(0x08 : Byte), 0x8E, 0x0C, 0x0D, 0x0E, 0x0F, 0x10] →
      ∃ c, exec (.route r) s = .next (s.failedWith .unknownCodec 8 c))

/-- R102 to R109: each of the seven codec rows, run under an operation other than FRAME, reports its codec, its id and
its `CODEC_SEL` number and does nothing more. -/
def Obligations.CodecRowReportsCodec : Prop :=
  ∀ (s : State) (l : BitVec 32), (∀ r, decodeCtrl s.job.word ≠ .ok (.frame r)) →
    let reported := fun (id : Byte) (codec : Codec) (t : State) =>
      codec.id = id ∧ ∃ c, t =
        { s with
          route := ⟨l, id, codec, 9, s.job.flen - 9⟩
          cur := c
          status := okStatus false false
          valid := ⟨true, false, false, false, false, false⟩ }
    (∃ t, exec (.codec8 l) s = .next t ∧ reported 0x08 .codec8 t ∧ t.route.codecSel.sel = 0) ∧
    (∃ t, exec (.codec8Extended l) s = .next t ∧ reported 0x8E .codec8Extended t ∧ t.route.codecSel.sel = 1) ∧
    (∃ t, exec (.codec12 l) s = .next t ∧ reported 0x0C .codec12 t ∧ t.route.codecSel.sel = 2) ∧
    (∃ t, exec (.codec13 l) s = .next t ∧ reported 0x0D .codec13 t ∧ t.route.codecSel.sel = 3) ∧
    (∃ t, exec (.codec14 l) s = .next t ∧ reported 0x0E .codec14 t ∧ t.route.codecSel.sel = 4) ∧
    (∃ t, exec (.codec15 l) s = .next t ∧ reported 0x0F .codec15 t ∧ t.route.codecSel.sel = 5) ∧
    (∃ t, exec (.codec16 l) s = .next t ∧ reported 0x10 .codec16 t ∧ t.route.codecSel.sel = 6)

/-- R104 to R109, R161, R176, R178: the six rows without a layout, run under FRAME, end with `NoLayout`. That a codec row is
an instruction is log 16, and that the end is a next state whose `KIND` marks the refusal, and not a refused step, is
log 7: both are the model's readings. -/
def Obligations.CodecRowWithoutLayoutRefused : Prop :=
  ∀ (s : State) (l : BitVec 32) (r : BitVec 5), decodeCtrl s.job.word = .ok (.frame r) →
    ∀ i ∈ [Instr.codec8Extended l, .codec12 l, .codec13 l, .codec14 l, .codec15 l, .codec16 l],
      ∃ c, exec i s = .next (s.failedWith .noLayout 8 c)

/-- R103, R160: the row Codec8, run under FRAME, decodes the records from offset 9 on. -/
def Obligations.Codec8RowDecodesRecords : Prop :=
  ∀ (s : State) (l : BitVec 32) (r : BitVec 5) (rs : List Record) (fin : Nat),
    decodeCtrl s.job.word = .ok (.frame r) → 10 ≤ s.job.flen →
    RecordsAt s.params.tsBit63 s.frame (Memory.read s.fb 9).toNat 10 rs fin →
    exec (.codec8 l) s = .next
      { s with
        route := ⟨l, 0x08, .codec8, 9, s.job.flen - 9⟩
        recN := Memory.read s.fb 9
        recCnt := BitVec.ofNat 9 (Memory.read s.fb 9).toNat
        recs := rs
        endCur := fin
        cur := fin
        status := okStatus (rs.any (·.ioTr)) (rs.any (·.ioMm))
        valid := ⟨true, true, false, false, false, false⟩ }

/-! ## All operations -/

/-- R170, R203, R41: every operation ends, in one outcome, done and no longer busy. -/
def Obligations.EveryOperationFinishes : Prop :=
  ∀ (i : Instr) (s : State), (∀ r, i = .field r → 1 ≤ s.job.argW.toNat ∧ s.job.argW.toNat ≤ 8) →
    ∃ t, exec i s = .next t ∧ t.status.done = true ∧ t.status.busy = false ∧
      (t.status.kind = .ok ∨ ∃ c, t.status.kind = .failed c)

/-- R178, R159, R28, R175: an operation (a running one has `KIND = NONE`, R40) that fails leaves `VALID` and the flags
clear and every result register, the record store and the inputs as they were; and the kinds stay with their
operations: TS, GPS and FIELD raise `MalformedField` only, IOE raises nothing. -/
def Obligations.FailureLeavesNoResult : Prop :=
  ∀ (i : Instr) (s t : State) (c : Cause), s.status.kind = .none → exec i s = .next t →
    t.status.kind = .failed c →
    t.valid = ⟨false, false, false, false, false, false⟩ ∧ t.status = ⟨.failed c, false, true, false, false⟩ ∧
    s.KeepsResults t ∧ s.KeepsInputs t ∧ (∀ r, i ≠ .ioe r) ∧
    ((∃ r, i = .ts r ∨ i = .gps r ∨ i = .field r) → c = .malformedField)

/-- R51, R200: bytes at or above `FLEN` have no effect on any register. -/
def Obligations.BytesAboveLengthHaveNoEffect : Prop :=
  ∀ (i : Instr) (s t : State) (fb' : List Host.Cell), (∀ a, a < s.job.flen → Memory.read fb' a = Memory.read s.fb a) →
    exec i s = .next t → exec i { s with fb := fb' } = .next { t with fb := fb' }

/-- R19, R38, R179: what the host can read of the outcome is a function of the frame, the arguments, the parameters and
the read pointers, whatever the registers held before. -/
def Obligations.OutcomeDependsOnInputsOnly : Prop :=
  ∀ (i : Instr) (s s' t t' : State), s'.params = s.params → s'.job = s.job → s'.frame = s.frame →
    s'.recSel = s.recSel → s'.elemSel = s.elemSel → (∀ r, i = .field r → 1 ≤ s.job.argW.toNat ∧ s.job.argW.toNat ≤ 8) →
    exec i s = .next t → exec i s' = .next t' →
    t'.status = t.status ∧ t'.valid = t.valid ∧ readReg t' .errOff = readReg t .errOff ∧
    ∀ r : RegName, r.isResult = true → readReg t' r = readReg t r

/-- R98: without the length check the declared length bears on nothing but `DECL_LEN`. -/
def Obligations.DeclaredLengthIsInformational : Prop :=
  ∀ (r : BitVec 5) (i : Instr) (s t : State) (fb' : List Host.Cell), (i = .frame r ∨ i = .route r) →
    s.params.strictLength = false →
    (∀ a, a < 4 ∨ 8 ≤ a → Memory.read fb' a = Memory.read s.fb a) → exec i s = .next t →
    ∃ l, exec i { s with fb := fb' } = .next { t with fb := fb', route := { t.route with declLen := l } }

/-- R20, R46, R4 to R8: no step changes the parameters, and only the host's own write to the buffer of an idle block
changes the buffer. -/
def Obligations.ParametersAndBufferAreKept : Prop :=
  ∀ s t : State, step s = .next t → t.params = s.params ∧
    (t.fb ≠ s.fb → s.status.busy = false ∧ ∃ off b rest, s.host = .access (.writeFB off b) :: rest)

/-! ## Frames -/

/-- R95, R102: what ROUTE and, under ROUTE, a codec row leave alone: the inputs and every byte of the buffer, the record
store, the numbers of IOE and FIELD, `END_CUR`; after `OK` also `ERR_OFF`, after a failure also the route group. -/
def Obligations.RouteFormsFrame : Prop :=
  ∀ (r : BitVec 5) (c : Codec) (l : BitVec 32) (i : Instr) (s t : State),
    (i = .route r ∨ (i = c.instr l ∧ ∀ q, decodeCtrl s.job.word ≠ .ok (.frame q))) → exec i s = .next t →
    s.KeepsInputs t ∧ s.KeepsNumbers t ∧ s.KeepsRecords t ∧ t.endCur = s.endCur ∧
    (t.status.kind = .ok → t.errOff = s.errOff) ∧ (t.status.kind ≠ .ok → t.route = s.route)

/-- R151, R160: what REC, FRAME and, under FRAME, a codec row leave alone: the inputs and every byte of the buffer and
the numbers of IOE and FIELD; REC the route group too; after `OK` also `ERR_OFF`, after a failure every result. -/
def Obligations.RecordFormsFrame : Prop :=
  ∀ (r : BitVec 5) (c : Codec) (l : BitVec 32) (i : Instr) (s t : State),
    (i = .recOp r ∨ i = .frame r ∨ (i = c.instr l ∧ ∃ q, decodeCtrl s.job.word = .ok (.frame q))) →
    exec i s = .next t →
    s.KeepsInputs t ∧ s.KeepsNumbers t ∧ (i = .recOp r → t.route = s.route) ∧
    (t.status.kind = .ok → t.errOff = s.errOff) ∧ (t.status.kind ≠ .ok → s.KeepsResults t)

/-- R115, R122, R132, R89: what TS, GPS, IOE and FIELD leave alone: the inputs and every byte of the buffer, the route
group, every record but `REC[0]` and of `REC[0]` every field but the operation's own; after `OK` also `ERR_OFF`. -/
def Obligations.UnitOperationsFrame : Prop :=
  ∀ (r : BitVec 5) (s t : State),
    (exec (.ts r) s = .next t →
      s.KeepsInputs t ∧ s.KeepsNumbers t ∧ s.KeepsOtherRecords t ∧ t.route = s.route ∧ t.endCur = s.endCur ∧
      { t.recAt 0 with ts := (s.recAt 0).ts } = s.recAt 0 ∧ (t.status.kind = .ok → t.errOff = s.errOff)) ∧
    (exec (.gps r) s = .next t →
      s.KeepsInputs t ∧ s.KeepsNumbers t ∧ s.KeepsOtherRecords t ∧ t.route = s.route ∧ t.endCur = s.endCur ∧
      { t.recAt 0 with
        lat := (s.recAt 0).lat, lon := (s.recAt 0).lon, alt := (s.recAt 0).alt, ang := (s.recAt 0).ang,
        sat := (s.recAt 0).sat, spd := (s.recAt 0).spd } = s.recAt 0 ∧
      (t.status.kind = .ok → t.errOff = s.errOff)) ∧
    (exec (.ioe r) s = .next t →
      s.KeepsInputs t ∧ s.KeepsOtherRecords t ∧ t.route = s.route ∧ t.fieldVal = s.fieldVal ∧ t.fieldW = s.fieldW ∧
      { t.recAt 0 with
        ioTotal := (s.recAt 0).ioTotal, ioN := (s.recAt 0).ioN, ioTr := (s.recAt 0).ioTr, ioMm := (s.recAt 0).ioMm,
        elems := (s.recAt 0).elems } = s.recAt 0 ∧
      t.errOff = s.errOff) ∧
    (exec (.field r) s = .next t →
      s.KeepsInputs t ∧ s.KeepsRecords t ∧ t.route = s.route ∧ t.ioConsumed = s.ioConsumed ∧
      (t.status.kind = .ok → t.errOff = s.errOff))

/-! ## The invariant -/

/-- Every step that answers a next state keeps the invariant, from every state that meets it. -/
def Obligations.StepKeepsInvariant : Prop :=
  ∀ s t : State, s.Inv → step s = .next t → t.Inv

/-- The state after reset meets the invariant. -/
def Obligations.ResetMeetsInvariant : Prop :=
  State.reset.Inv
end

