-- ==== Sys2Proof/Laws/Extract.lean ====
section
/-! SUPPORT. BE and FX: what they give, and what they give on the frame of the running operation. -/

namespace Sys2Proof

theorem be_append (a b : List Byte) : be (a ++ b) = be a * 256 ^ b.length + be b := by
  induction b using List.reverseRecOn generalizing a with
  | nil => simp [be]
  | append_singleton b x ih =>
    have step : ∀ l : List Byte, be (l ++ [x]) = be l * 256 + x.toNat := by simp [be]
    rw [← List.append_assoc, step, step, ih]
    simp only [List.length_append, List.length_singleton, pow_succ]
    ring

@[simp] theorem be_nil : be [] = 0 := rfl

@[simp] theorem be_singleton (x : Byte) : be [x] = x.toNat := by simp [be]

theorem be_cons (x : Byte) (b : List Byte) : be (x :: b) = x.toNat * 256 ^ b.length + be b := by
  simpa using be_append [x] b

theorem be_lt (b : List Byte) : be b < 256 ^ b.length := by
  induction b with
  | nil => simp
  | cons x b ih =>
    rw [be_cons, List.length_cons, pow_succ]
    have := x.isLt
    nlinarith [Nat.pos_of_ne_zero (pow_ne_zero b.length (by norm_num : (256 : Nat) ≠ 0))]

@[simp] theorem beBytes_length (n v : Nat) : (beBytes n v).length = n := by
  induction n generalizing v <;> simp_all [beBytes]

theorem be_beBytes (n v : Nat) : be (beBytes n v) = v % 256 ^ n := by
  induction n with
  | zero => simp [beBytes, Nat.mod_one]
  | succ n ih =>
    rw [beBytes, be_cons, ih, beBytes_length, pow_succ, Nat.mod_mul]
    simp only [BitVec.toNat_ofNat]
    norm_num
    ring

theorem beBytes_be (b : List Byte) : beBytes b.length (be b) = b := by
  induction b with
  | nil => rfl
  | cons x b ih =>
    have hp : 0 < 256 ^ b.length := by positivity
    have hlt := be_lt b
    have hmod : ∀ n k v, beBytes n (k * 256 ^ n + v) = beBytes n v := by
      intro n
      induction n with
      | zero => intros; rfl
      | succ n ihn =>
        intro k v
        have h1 : k * 256 ^ (n + 1) + v = (k * 256) * 256 ^ n + v := by ring
        rw [beBytes, beBytes, h1, ihn, Nat.add_comm, Nat.add_mul_div_right _ _ (by positivity)]
        congr 1
        apply BitVec.eq_of_toNat_eq
        simp [Nat.add_mul_mod_self_right]
    rw [be_cons, List.length_cons, beBytes, hmod, ih, Nat.add_comm, Nat.add_mul_div_right _ _ hp,
      Nat.div_eq_of_lt hlt]
    simp

namespace Machine

theorem zext64_be_toNat {b : List Byte} (h : b.length ≤ 8) : (zext64 (be b)).toNat = be b := by
  have h1 := be_lt b
  have h2 : 256 ^ b.length ≤ 256 ^ 8 := Nat.pow_le_pow_right (by norm_num) h
  rw [zext64, BitVec.toNat_ofNat, Nat.mod_eq_of_lt]
  omega

theorem fx_eq (fr : List Byte) (c n : Nat) :
    fx fr c n = if c + n ≤ fr.length then some ((fr.drop c).take n) else none := by
  simp [fx, avail]

theorem fx_some {fr : List Byte} {c n : Nat} (h : c + n ≤ fr.length) : fx fr c n = some (slice fr c (c + n)) := by
  simp [fx_eq, h, slice]

theorem fx_none {fr : List Byte} {c n : Nat} (h : fr.length < c + n) : fx fr c n = none := by
  simp [fx_eq, Nat.not_le.mpr h]

theorem fx_eq_some_iff {fr : List Byte} {c n : Nat} {b : List Byte} :
    fx fr c n = some b ↔ c + n ≤ fr.length ∧ b = slice fr c (c + n) := by
  rw [fx_eq, slice, Nat.add_sub_cancel_left]
  split <;> simp_all [eq_comm]

theorem fx_eq_none_iff {fr : List Byte} {c n : Nat} : fx fr c n = none ↔ fr.length < c + n := by
  rw [fx_eq]
  split <;> simp_all

theorem length_slice {b : List Byte} {lo hi : Nat} (h : hi ≤ b.length) : (slice b lo hi).length = hi - lo := by
  simp only [slice, List.length_take, List.length_drop]
  omega

@[simp] theorem State.frame_length (s : State) : s.frame.length = s.job.flen := by simp [State.frame]

@[simp] theorem State.bytes_length (s : State) (off n : Nat) : (s.bytes off n).length = n := by simp [State.bytes]

theorem State.slice_frame (s : State) {lo hi : Nat} (h : hi ≤ s.job.flen) (hl : lo ≤ hi) :
    slice s.frame lo hi = s.bytes lo (hi - lo) := by
  apply List.ext_getElem?
  intro i
  simp only [slice, State.frame, State.bytes, List.getElem?_take, List.getElem?_drop, List.getElem?_map]
  by_cases hi' : i < hi - lo
  · have h1 : lo + i < s.job.flen := by omega
    simp [hi', h1]
  · simp [hi']

/-- R85 on the frame of the running operation. -/
theorem State.fx_frame (s : State) (c n : Nat) :
    fx s.frame c n = if c + n ≤ s.job.flen then some (s.bytes c n) else none := by
  split
  · next h =>
    rw [fx_some (by simpa using h), s.slice_frame h (Nat.le_add_right c n), Nat.add_sub_cancel_left]
  · next h => exact fx_none (by simpa using Nat.not_le.mp h)

theorem State.slice_bytes (s : State) {a n lo hi : Nat} (h : hi ≤ n) (hl : lo ≤ hi) :
    slice (s.bytes a n) lo hi = s.bytes (a + lo) (hi - lo) := by
  apply List.ext_getElem?
  intro i
  simp only [slice, State.bytes, List.getElem?_take, List.getElem?_drop, List.getElem?_map]
  by_cases hi' : i < hi - lo
  · have h1 : lo + i < n := by omega
    simp [hi', h1, Nat.add_assoc]
  · simp [hi']

end Machine

end Sys2Proof
end

