-- ==== Sys2Proof/Laws/IoElements.lean ====
section
/-! SUPPORT. What one group, the four groups and a whole IO section can give. -/

namespace Sys2Proof.Machine

theorem mkElem_ok {w : Nat} {e : List Byte} (hw : w ∈ widthClasses) (he : e.length = 1 + w) :
    (mkElem w e).Ok ∧ (mkElem w e).w = BitVec.ofNat 4 w := by
  have h1 : be (e.take 1) < 256 := by
    have := be_lt (e.take 1)
    have hl : (e.take 1).length = 1 := by simp [he]
    simpa [hl] using this
  have hl : (e.drop 1).length = w := by simp [he]
  have h2 := be_lt (e.drop 1)
  have hw8 : w ≤ 8 := by revert hw; simp [widthClasses]; omega
  have hv : (mkElem w e).val.toNat = be (e.drop 1) := zext64_be_toNat (by omega)
  have hwn : (BitVec.ofNat 4 w).toNat = w := by simp; omega
  refine ⟨⟨?_, ?_, ?_⟩, rfl⟩
  · simp only [mkElem, BitVec.toNat_ofNat]; omega
  · revert hw
    simp only [widthClasses, List.mem_cons, List.not_mem_nil, or_false]
    rintro (rfl | rfl | rfl | rfl) <;> simp [mkElem]
  · rw [hv]
    simp only [mkElem, hwn]
    rwa [hl] at h2

/-- What one group of width class `w` with count `g` can give from `cur` on. -/
structure GroupResult.Of (fr : List Byte) (w g cur : Nat) (r : GroupResult) : Prop where
  cursor : r.cur = cur + (1 + w) * r.elems.length
  count : r.elems.length ≤ g
  whole : r.stopped = false → r.elems.length = g
  cut : r.stopped = true → r.elems.length < g ∧ fr.length < r.cur + (1 + w)
  inside : cur ≤ fr.length → r.cur ≤ fr.length
  elems : w ∈ widthClasses → ∀ e ∈ r.elems, e.Ok ∧ e.w = BitVec.ofNat 4 w

theorem parseGroup_of (fr : List Byte) (w g cur : Nat) : (parseGroup fr w g cur).Of fr w g cur := by
  induction g generalizing cur with
  | zero => constructor <;> simp [parseGroup]
  | succ g ih =>
    unfold parseGroup
    split
    · next h =>
      have := fx_eq_none_iff.mp h
      constructor <;> simp_all
    · next e h =>
      obtain ⟨hroom, he⟩ := fx_eq_some_iff.mp h
      have r := ih (cur + 1 + w)
      constructor
      · simp only [r.cursor, List.length_cons]; ring
      · simpa using r.count
      · intro hs; simpa using r.whole hs
      · intro hs; exact ⟨by simpa using (r.cut hs).1, (r.cut hs).2⟩
      · intro _; exact r.inside (by omega)
      · intro hw x hx
        rcases List.mem_cons.mp hx with rfl | hx
        · refine mkElem_ok hw ?_
          rw [he, length_slice hroom]; omega
        · exact r.elems hw x hx

/-- What the width classes `ws` can give from `cur` on. -/
structure GroupResult.OfAll (fr : List Byte) (ws : List Nat) (cur : Nat) (r : GroupResult) : Prop where
  forward : cur ≤ r.cur
  inside : cur ≤ fr.length → r.cur ≤ fr.length
  cut : r.stopped = true → fr.length < r.cur + 9
  count : r.elems.length ≤ 255 * ws.length
  elems : ∀ e ∈ r.elems, e.Ok

theorem count_byte_le {fr : List Byte} {cur : Nat} {c : List Byte} (h : fx fr cur 1 = some c) : be c ≤ 255 := by
  obtain ⟨hroom, rfl⟩ := fx_eq_some_iff.mp h
  have := be_lt (slice fr cur (cur + 1))
  rw [length_slice hroom] at this
  simp at this
  omega

theorem parseGroups_of (fr : List Byte) (ws : List Nat) (cur : Nat) (hw : ∀ w ∈ ws, w ∈ widthClasses) :
    (parseGroups fr ws cur).OfAll fr ws cur := by
  induction ws generalizing cur with
  | nil => constructor <;> simp [parseGroups]
  | cons w ws ih =>
    have hww : w ∈ widthClasses := hw w (List.mem_cons_self ..)
    have hw8 : w ≤ 8 := by revert hww; simp [widthClasses]; omega
    unfold parseGroups
    split
    · next h =>
      have := fx_eq_none_iff.mp h
      constructor <;> simp
      omega
    · next c h =>
      have hc := count_byte_le h
      have hroom := (fx_eq_some_iff.mp h).1
      have r := parseGroup_of fr w (be c) (cur + 1)
      have hcur := r.cursor
      have hcount := r.count
      dsimp only
      split
      · next hs =>
        have hcut := (r.cut hs).2
        refine ⟨by rw [hcur]; omega, fun _ => r.inside (by omega), fun _ => by omega, ?_, fun e he => (r.elems hww e he).1⟩
        simp only [List.length_cons]; omega
      · next hs =>
        have q := ih (parseGroup fr w (be c) (cur + 1)).cur fun w' h' => hw w' (List.mem_cons_of_mem _ h')
        have hqf := q.forward
        have hqc := q.count
        refine ⟨by simp only []; omega, fun _ => q.inside (r.inside (by omega)), q.cut, ?_, ?_⟩
        · simp only [List.length_append, List.length_cons]; omega
        · intro e he
          rcases List.mem_append.mp he with he | he
          · exact (r.elems hww e he).1
          · exact q.elems e he

/-- A cut beyond the items `a` leaves them whole. -/
theorem wholeItems_append_of_le (a b : List SectionItem) (k : Nat) (h : (a.map SectionItem.size).sum ≤ k) :
    wholeItems k (a ++ b) = a ++ wholeItems (k - (a.map SectionItem.size).sum) b := by
  induction a generalizing k with
  | nil => simp
  | cons x a ih =>
    simp only [List.map_cons, List.sum_cons] at h ⊢
    simp only [List.cons_append, wholeItems]
    rw [if_pos (by omega), ih _ (by omega), Nat.sub_sub]

/-- A cut inside the items `a` leaves nothing of what follows them. -/
theorem wholeItems_append_of_lt (a b : List SectionItem) (k : Nat) (h : k < (a.map SectionItem.size).sum) :
    wholeItems k (a ++ b) = wholeItems k a := by
  induction a generalizing k with
  | nil => simp at h
  | cons x a ih =>
    simp only [List.map_cons, List.sum_cons] at h
    simp only [List.cons_append, wholeItems]
    split
    · rw [ih _ (by omega)]
    · rfl

/-- What an IO section parsed from `off` can give. -/
structure IoResult.Of (fr : List Byte) (off : Nat) (io : IoResult) : Prop where
  inside : off ≤ fr.length → off + io.consumed ≤ fr.length
  absent : fr.length ≤ off → io = ⟨[], 0, 0, true, false⟩
  cut : io.tr = true → fr.length < off + io.consumed + 9
  count : io.elems.length ≤ 1020
  total : io.total < 256
  mismatch : io.mm = (io.total != io.elems.length)
  elems : ∀ e ∈ io.elems, e.Ok

theorem iop_of (fr : List Byte) (off : Nat) : (iop fr off).Of fr off := by
  unfold iop
  split
  · next h =>
    have := fx_eq_none_iff.mp h
    constructor <;> simp
    omega
  · next t h =>
    have ht := count_byte_le h
    have hroom := (fx_eq_some_iff.mp h).1
    have r := parseGroups_of fr widthClasses (off + 1) fun _ h => h
    have hf := r.forward
    refine ⟨fun _ => ?_, fun _ => by omega, fun hs => ?_, ?_, by simp only []; omega, rfl, r.elems⟩
    · have := r.inside (by omega); simp only []; omega
    · have := r.cut hs; simp only []; omega
    · simpa [widthClasses] using r.count

end Sys2Proof.Machine
end

