-- ==== Sys2Proof/Laws/Records.lean ====
section
/-! SUPPORT. What one pass of RSQ, its loop and RSQ itself can give. -/

namespace Sys2Proof.Machine

theorem slice_slice {b : List Byte} {lo hi i j : Nat} (h : lo + j ≤ hi) :
    slice (slice b lo hi) i j = slice b (lo + i) (lo + j) := by
  apply List.ext_getElem?
  intro k
  simp only [slice, List.getElem?_take, List.getElem?_drop]
  by_cases hk : k < j - i
  · have h1 : k < lo + j - (lo + i) := by omega
    have h2 : i + k < hi - lo := by omega
    simp [hk, h1, h2, Nat.add_assoc]
  · have h1 : ¬k < lo + j - (lo + i) := by omega
    simp [hk, h1]

theorem tsd_eq_some_iff {policy : TsBit63Policy} {b : List Byte} {t : BitVec 64} :
    tsd policy b = some t ↔ timestampFits policy b ∧ t = zext64 (be b) := by
  unfold tsd timestampFits
  cases policy <;> split <;> simp_all [eq_comm]

theorem tsd_eq_none_iff {policy : TsBit63Policy} {b : List Byte} :
    tsd policy b = none ↔ ¬timestampFits policy b := by
  rw [Option.eq_none_iff_forall_ne_some]
  constructor
  · intro h hf; exact h _ (tsd_eq_some_iff.mpr ⟨hf, rfl⟩)
  · intro h t ht; exact h (tsd_eq_some_iff.mp ht).1

theorem gpd_slice (fr : List Byte) (a : Nat) : gpd (slice fr a (a + 15)) =
    ⟨zext64 (be (slice fr a (a + 4))), zext64 (be (slice fr (a + 4) (a + 8))), zext64 (be (slice fr (a + 8) (a + 10))),
      zext64 (be (slice fr (a + 10) (a + 12))), zext64 (be (slice fr (a + 12) (a + 13))),
      zext64 (be (slice fr (a + 14) (a + 15)))⟩ := by
  simp only [gpd]
  rw [slice_slice (by omega), slice_slice (by omega), slice_slice (by omega), slice_slice (by omega),
    slice_slice (by omega), slice_slice (by omega)]
  rfl

/-- A pass that succeeds reads the record that stands at the cursor, and only then. -/
theorem readRecord_ok_iff {policy : TsBit63Policy} {fr : List Byte} {cur c : Nat} {r : Record} :
    readRecord policy fr cur = .ok (r, c) ↔
      cur + 24 ≤ fr.length ∧ timestampFits policy (slice fr cur (cur + 8)) ∧ r = recordAt fr cur ∧
        c = cur + 24 + (iop fr (cur + 24)).consumed := by
  unfold readRecord
  split
  · next h => have := fx_eq_none_iff.mp h; simp; omega
  · next tb h1 =>
    obtain ⟨-, rfl⟩ := fx_eq_some_iff.mp h1
    split
    · next h => have := tsd_eq_none_iff.mp h; simp [this]
    · next t h2 =>
      obtain ⟨hf, rfl⟩ := tsd_eq_some_iff.mp h2
      split
      · next h => have := fx_eq_none_iff.mp h; simp; omega
      · next p h3 =>
        obtain ⟨-, rfl⟩ := fx_eq_some_iff.mp h3
        split
        · next h => have := fx_eq_none_iff.mp h; simp; omega
        · next g h4 =>
          obtain ⟨h24, rfl⟩ := fx_eq_some_iff.mp h4
          have h24' : cur + 24 ≤ fr.length := by omega
          simp only [Except.ok.injEq, Prod.mk.injEq, hf, true_and, gpd_slice, recordAt, Record.withFix, Record.withIo,
            Record.zero, h24', Nat.add_assoc]
          exact and_congr eq_comm eq_comm

/-- A pass that fails does so at or after its cursor and inside the frame. -/
theorem readRecord_error {policy : TsBit63Policy} {fr : List Byte} {cur : Nat} {f : Failure}
    (h : readRecord policy fr cur = .error f) :
    f.cur = f.off ∧ cur ≤ f.off ∧ (cur ≤ fr.length → f.off ≤ fr.length) ∧
      (f.cause = .truncatedRecord ∨ f.cause = .malformedField ∧ policy = .malformed) := by
  unfold readRecord at h
  split at h
  · cases h; simp
  · next tb h1 =>
    have := (fx_eq_some_iff.mp h1).1
    split at h
    · next hn =>
      cases h
      have hp : policy = .malformed := by
        have := tsd_eq_none_iff.mp hn
        cases policy <;> simp_all [timestampFits]
      simp [hp]
    · split at h
      · cases h; simp; omega
      · next h3 =>
        have := (fx_eq_some_iff.mp h3).1
        split at h
        · cases h; simp; omega
        · cases h

theorem readRecords_error {policy : TsBit63Policy} {fr : List Byte} {n cur : Nat} {f : Failure}
    (h : readRecords policy fr n cur = .error f) :
    f.cur = f.off ∧ cur ≤ f.off ∧ (cur ≤ fr.length → f.off ≤ fr.length) ∧
      (f.cause = .truncatedRecord ∨ f.cause = .malformedField ∧ policy = .malformed) := by
  induction n generalizing cur with
  | zero => simp [readRecords] at h
  | succ n ih =>
    unfold readRecords at h
    split at h
    · next f' h1 => cases h; exact readRecord_error h1
    · next r c h1 =>
      obtain ⟨hroom, -, -, hc⟩ := readRecord_ok_iff.mp h1
      have hio := (iop_of fr (cur + 24)).inside hroom
      split at h
      · next f' h2 =>
        cases h
        obtain ⟨ha, hb, hc', hd⟩ := ih h2
        exact ⟨ha, by omega, fun _ => hc' (by omega), hd⟩
      · cases h

theorem zext64_be_slice {fr : List Byte} {lo hi : Nat} (h : hi ≤ fr.length) (h8 : hi - lo ≤ 8) :
    (zext64 (be (slice fr lo hi))).toNat < 256 ^ (hi - lo) := by
  have hl := length_slice (b := fr) (lo := lo) h
  rw [zext64_be_toNat (by omega), ← hl]
  exact be_lt _

theorem recordAt_fixOk {fr : List Byte} {cur : Nat} (h : cur + 24 ≤ fr.length) : (recordAt fr cur).FixOk := by
  have b := fun lo hi (h1 : hi ≤ fr.length) (h2 : hi - lo ≤ 8) => zext64_be_slice (fr := fr) (lo := lo) h1 h2
  have h1 := b (cur + 9) (cur + 13) (by omega) (by omega)
  have h2 := b (cur + 13) (cur + 17) (by omega) (by omega)
  have h3 := b (cur + 17) (cur + 19) (by omega) (by omega)
  have h4 := b (cur + 19) (cur + 21) (by omega) (by omega)
  have h5 := b (cur + 21) (cur + 22) (by omega) (by omega)
  have h6 := b (cur + 23) (cur + 24) (by omega) (by omega)
  simp only [Nat.add_sub_add_left] at h1 h2 h3 h4 h5 h6
  constructor <;> simpa [recordAt]

theorem Record.withIo_ioOk (r : Record) {fr : List Byte} {off : Nat} : (r.withIo (iop fr off)).IoOk := by
  have io := iop_of fr off
  have hc := io.count
  have ht := io.total
  have hn : (BitVec.ofNat 32 (iop fr off).total).toNat = (iop fr off).total := by simp; omega
  constructor
  · simp only [Record.withIo, BitVec.toNat_ofNat]; omega
  · exact hc
  · simp only [Record.withIo, hn]; exact ht
  · simp only [Record.withIo, hn]; exact io.mismatch
  · exact io.elems

theorem recordAt_ioOk (fr : List Byte) (cur : Nat) : (recordAt fr cur).IoOk :=
  Record.withIo_ioOk { recordAt fr cur with } (fr := fr) (off := cur + 24)

theorem recordAt_stampOk {policy : TsBit63Policy} {fr : List Byte} {cur : Nat} (h : cur + 24 ≤ fr.length)
    (hf : timestampFits policy (slice fr cur (cur + 8))) : (recordAt fr cur).StampOk policy := by
  intro hp
  have hl : (slice fr cur (cur + 8)).length ≤ 8 := by rw [length_slice (by omega)]; omega
  rcases hf with hf | hf
  · simpa [recordAt, zext64_be_toNat hl] using hf
  · simp [hp] at hf

/-- What `n` records read from `cur` on can be. -/
structure RecordsFacts (policy : TsBit63Policy) (fr : List Byte) (n cur : Nat) (rs : List Record) (fin : Nat) : Prop where
  count : rs.length = n
  forward : cur ≤ fin
  inside : cur ≤ fr.length → fin ≤ fr.length
  records : ∀ r ∈ rs, r.IoOk ∧ r.FixOk ∧ r.StampOk policy

theorem readRecords_facts {policy : TsBit63Policy} {fr : List Byte} {n cur fin : Nat} {rs : List Record}
    (h : readRecords policy fr n cur = .ok (rs, fin)) : RecordsFacts policy fr n cur rs fin := by
  induction n generalizing cur rs with
  | zero =>
    simp only [readRecords, Except.ok.injEq, Prod.mk.injEq] at h
    obtain ⟨rfl, rfl⟩ := h
    constructor <;> simp
  | succ n ih =>
    unfold readRecords at h
    split at h
    · cases h
    · next r c h1 =>
      obtain ⟨hroom, hf, rfl, hc⟩ := readRecord_ok_iff.mp h1
      have hio := (iop_of fr (cur + 24)).inside hroom
      split at h
      · cases h
      · next rs' fin' h2 =>
        simp only [Except.ok.injEq, Prod.mk.injEq] at h
        obtain ⟨rfl, rfl⟩ := h
        have q := ih h2
        refine ⟨by simp [q.count], by have := q.forward; omega, fun _ => q.inside (by omega), ?_⟩
        intro r hr
        rcases List.mem_cons.mp hr with rfl | hr
        · exact ⟨recordAt_ioOk fr cur, recordAt_fixOk hroom, recordAt_stampOk hroom hf⟩
        · exact q.records r hr

/-- What RSQ can give from `off` on when it succeeds. -/
structure RecResult.Of (policy : TsBit63Policy) (fr : List Byte) (off : Nat) (r : RecResult) : Prop where
  start : off + 1 ≤ r.fin ∧ r.fin ≤ fr.length
  count : r.recs.length = r.n.toNat
  records : ∀ x ∈ r.recs, x.IoOk ∧ x.FixOk ∧ x.StampOk policy

theorem rsq_of {policy : TsBit63Policy} {fr : List Byte} {off : Nat} {r : RecResult}
    (h : rsq policy fr off = .ok r) : r.Of policy fr off := by
  unfold rsq at h
  split at h
  · cases h
  · next c h1 =>
    have hc := count_byte_le h1
    have hroom := (fx_eq_some_iff.mp h1).1
    split at h
    · cases h
    · next rs fin h2 =>
      cases h
      have q := readRecords_facts h2
      have hn : (BitVec.ofNat 8 (be c)).toNat = be c := by simp; omega
      exact ⟨⟨q.forward, q.inside hroom⟩, by simpa [hn] using q.count, q.records⟩

/-- How RSQ can fail: at or after its start, and inside the frame or at its very start. -/
theorem rsq_error {policy : TsBit63Policy} {fr : List Byte} {off : Nat} {f : Failure}
    (h : rsq policy fr off = .error f) :
    f.cur = f.off ∧ (f.off = off ∨ f.off ≤ fr.length) ∧ f.cause ≠ .noLayout := by
  unfold rsq at h
  split at h
  · cases h; simp
  · next c h1 =>
    have hroom := (fx_eq_some_iff.mp h1).1
    split at h
    · next f' h2 =>
      cases h
      obtain ⟨ha, -, hc, hd⟩ := readRecords_error h2
      exact ⟨ha, .inr (hc hroom), by rcases hd with hd | hd <;> simp [hd]⟩
    · cases h

end Sys2Proof.Machine
end

