-- ==== Sys2Proof/Laws/State.lean ====
section
/-! SUPPORT. Each update of the state, field by field: what it writes and what it leaves. -/

namespace Sys2Proof.Machine

section
variable (s : State) (v : Valid) (a b : Bool) (c : Nat)

@[simp] theorem State.finishOk_params : (s.finishOk v a b c).params = s.params := rfl
@[simp] theorem State.finishOk_fb : (s.finishOk v a b c).fb = s.fb := rfl
@[simp] theorem State.finishOk_flen : (s.finishOk v a b c).flen = s.flen := rfl
@[simp] theorem State.finishOk_argOff : (s.finishOk v a b c).argOff = s.argOff := rfl
@[simp] theorem State.finishOk_argW : (s.finishOk v a b c).argW = s.argW := rfl
@[simp] theorem State.finishOk_status : (s.finishOk v a b c).status = ⟨.ok, false, true, a, b⟩ := rfl
@[simp] theorem State.finishOk_errOff : (s.finishOk v a b c).errOff = s.errOff := rfl
@[simp] theorem State.finishOk_valid : (s.finishOk v a b c).valid = v := rfl
@[simp] theorem State.finishOk_route : (s.finishOk v a b c).route = s.route := rfl
@[simp] theorem State.finishOk_recN : (s.finishOk v a b c).recN = s.recN := rfl
@[simp] theorem State.finishOk_recCnt : (s.finishOk v a b c).recCnt = s.recCnt := rfl
@[simp] theorem State.finishOk_recs : (s.finishOk v a b c).recs = s.recs := rfl
@[simp] theorem State.finishOk_endCur : (s.finishOk v a b c).endCur = s.endCur := rfl
@[simp] theorem State.finishOk_ioConsumed : (s.finishOk v a b c).ioConsumed = s.ioConsumed := rfl
@[simp] theorem State.finishOk_fieldVal : (s.finishOk v a b c).fieldVal = s.fieldVal := rfl
@[simp] theorem State.finishOk_fieldW : (s.finishOk v a b c).fieldW = s.fieldW := rfl
@[simp] theorem State.finishOk_recSel : (s.finishOk v a b c).recSel = s.recSel := rfl
@[simp] theorem State.finishOk_elemSel : (s.finishOk v a b c).elemSel = s.elemSel := rfl
@[simp] theorem State.finishOk_cur : (s.finishOk v a b c).cur = c := rfl
@[simp] theorem State.finishOk_job : (s.finishOk v a b c).job = s.job := rfl
@[simp] theorem State.finishOk_refusedStart : (s.finishOk v a b c).refusedStart = s.refusedStart := rfl
@[simp] theorem State.finishOk_host : (s.finishOk v a b c).host = s.host := rfl
@[simp] theorem State.finishOk_rdata : (s.finishOk v a b c).rdata = s.rdata := rfl

end

section
variable (s : State) (f : Failure)

@[simp] theorem State.fail_params : (s.fail f).params = s.params := rfl
@[simp] theorem State.fail_fb : (s.fail f).fb = s.fb := rfl
@[simp] theorem State.fail_flen : (s.fail f).flen = s.flen := rfl
@[simp] theorem State.fail_argOff : (s.fail f).argOff = s.argOff := rfl
@[simp] theorem State.fail_argW : (s.fail f).argW = s.argW := rfl
@[simp] theorem State.fail_status : (s.fail f).status = ⟨.failed f.cause, false, true, false, false⟩ := rfl
@[simp] theorem State.fail_errOff : (s.fail f).errOff = f.off := rfl
@[simp] theorem State.fail_valid : (s.fail f).valid = Valid.clear := rfl
@[simp] theorem State.fail_route : (s.fail f).route = s.route := rfl
@[simp] theorem State.fail_recN : (s.fail f).recN = s.recN := rfl
@[simp] theorem State.fail_recCnt : (s.fail f).recCnt = s.recCnt := rfl
@[simp] theorem State.fail_recs : (s.fail f).recs = s.recs := rfl
@[simp] theorem State.fail_endCur : (s.fail f).endCur = s.endCur := rfl
@[simp] theorem State.fail_ioConsumed : (s.fail f).ioConsumed = s.ioConsumed := rfl
@[simp] theorem State.fail_fieldVal : (s.fail f).fieldVal = s.fieldVal := rfl
@[simp] theorem State.fail_fieldW : (s.fail f).fieldW = s.fieldW := rfl
@[simp] theorem State.fail_recSel : (s.fail f).recSel = s.recSel := rfl
@[simp] theorem State.fail_elemSel : (s.fail f).elemSel = s.elemSel := rfl
@[simp] theorem State.fail_cur : (s.fail f).cur = f.cur := rfl
@[simp] theorem State.fail_job : (s.fail f).job = s.job := rfl
@[simp] theorem State.fail_refusedStart : (s.fail f).refusedStart = s.refusedStart := rfl
@[simp] theorem State.fail_host : (s.fail f).host = s.host := rfl
@[simp] theorem State.fail_rdata : (s.fail f).rdata = s.rdata := rfl

end

section
variable (s : State)

@[simp] theorem State.abandon_params : (s.abandon).params = s.params := rfl
@[simp] theorem State.abandon_fb : (s.abandon).fb = s.fb := rfl
@[simp] theorem State.abandon_flen : (s.abandon).flen = s.flen := rfl
@[simp] theorem State.abandon_argOff : (s.abandon).argOff = s.argOff := rfl
@[simp] theorem State.abandon_argW : (s.abandon).argW = s.argW := rfl
@[simp] theorem State.abandon_status : (s.abandon).status = { s.status with busy := false } := rfl
@[simp] theorem State.abandon_errOff : (s.abandon).errOff = s.errOff := rfl
@[simp] theorem State.abandon_valid : (s.abandon).valid = s.valid := rfl
@[simp] theorem State.abandon_route : (s.abandon).route = s.route := rfl
@[simp] theorem State.abandon_recN : (s.abandon).recN = s.recN := rfl
@[simp] theorem State.abandon_recCnt : (s.abandon).recCnt = s.recCnt := rfl
@[simp] theorem State.abandon_recs : (s.abandon).recs = s.recs := rfl
@[simp] theorem State.abandon_endCur : (s.abandon).endCur = s.endCur := rfl
@[simp] theorem State.abandon_ioConsumed : (s.abandon).ioConsumed = s.ioConsumed := rfl
@[simp] theorem State.abandon_fieldVal : (s.abandon).fieldVal = s.fieldVal := rfl
@[simp] theorem State.abandon_fieldW : (s.abandon).fieldW = s.fieldW := rfl
@[simp] theorem State.abandon_recSel : (s.abandon).recSel = s.recSel := rfl
@[simp] theorem State.abandon_elemSel : (s.abandon).elemSel = s.elemSel := rfl
@[simp] theorem State.abandon_cur : (s.abandon).cur = s.cur := rfl
@[simp] theorem State.abandon_job : (s.abandon).job = s.job := rfl
@[simp] theorem State.abandon_refusedStart : (s.abandon).refusedStart = some .illegalWidth := rfl
@[simp] theorem State.abandon_host : (s.abandon).host = s.host := rfl
@[simp] theorem State.abandon_rdata : (s.abandon).rdata = s.rdata := rfl

end

section
variable (s : State) (w : BitVec 9)

@[simp] theorem State.startOp_params : (s.startOp w).params = s.params := rfl
@[simp] theorem State.startOp_fb : (s.startOp w).fb = s.fb := rfl
@[simp] theorem State.startOp_flen : (s.startOp w).flen = s.flen := rfl
@[simp] theorem State.startOp_argOff : (s.startOp w).argOff = s.argOff := rfl
@[simp] theorem State.startOp_argW : (s.startOp w).argW = s.argW := rfl
@[simp] theorem State.startOp_status : (s.startOp w).status = ⟨.none, true, false, false, false⟩ := rfl
@[simp] theorem State.startOp_errOff : (s.startOp w).errOff = s.errOff := rfl
@[simp] theorem State.startOp_valid : (s.startOp w).valid = Valid.clear := rfl
@[simp] theorem State.startOp_route : (s.startOp w).route = s.route := rfl
@[simp] theorem State.startOp_recN : (s.startOp w).recN = s.recN := rfl
@[simp] theorem State.startOp_recCnt : (s.startOp w).recCnt = s.recCnt := rfl
@[simp] theorem State.startOp_recs : (s.startOp w).recs = s.recs := rfl
@[simp] theorem State.startOp_endCur : (s.startOp w).endCur = s.endCur := rfl
@[simp] theorem State.startOp_ioConsumed : (s.startOp w).ioConsumed = s.ioConsumed := rfl
@[simp] theorem State.startOp_fieldVal : (s.startOp w).fieldVal = s.fieldVal := rfl
@[simp] theorem State.startOp_fieldW : (s.startOp w).fieldW = s.fieldW := rfl
@[simp] theorem State.startOp_recSel : (s.startOp w).recSel = s.recSel := rfl
@[simp] theorem State.startOp_elemSel : (s.startOp w).elemSel = s.elemSel := rfl
@[simp] theorem State.startOp_cur : (s.startOp w).cur = startCursor w s.argOff := rfl
@[simp] theorem State.startOp_job : (s.startOp w).job = ⟨w, s.flen, s.argOff, s.argW⟩ := rfl
@[simp] theorem State.startOp_refusedStart : (s.startOp w).refusedStart = none := rfl
@[simp] theorem State.startOp_host : (s.startOp w).host = s.host := rfl
@[simp] theorem State.startOp_rdata : (s.startOp w).rdata = s.rdata := rfl

end

section
variable (s : State) (y : RefusedStart)

@[simp] theorem State.refuseStart_params : (s.refuseStart y).params = s.params := rfl
@[simp] theorem State.refuseStart_fb : (s.refuseStart y).fb = s.fb := rfl
@[simp] theorem State.refuseStart_flen : (s.refuseStart y).flen = s.flen := rfl
@[simp] theorem State.refuseStart_argOff : (s.refuseStart y).argOff = s.argOff := rfl
@[simp] theorem State.refuseStart_argW : (s.refuseStart y).argW = s.argW := rfl
@[simp] theorem State.refuseStart_status : (s.refuseStart y).status = s.status := rfl
@[simp] theorem State.refuseStart_errOff : (s.refuseStart y).errOff = s.errOff := rfl
@[simp] theorem State.refuseStart_valid : (s.refuseStart y).valid = s.valid := rfl
@[simp] theorem State.refuseStart_route : (s.refuseStart y).route = s.route := rfl
@[simp] theorem State.refuseStart_recN : (s.refuseStart y).recN = s.recN := rfl
@[simp] theorem State.refuseStart_recCnt : (s.refuseStart y).recCnt = s.recCnt := rfl
@[simp] theorem State.refuseStart_recs : (s.refuseStart y).recs = s.recs := rfl
@[simp] theorem State.refuseStart_endCur : (s.refuseStart y).endCur = s.endCur := rfl
@[simp] theorem State.refuseStart_ioConsumed : (s.refuseStart y).ioConsumed = s.ioConsumed := rfl
@[simp] theorem State.refuseStart_fieldVal : (s.refuseStart y).fieldVal = s.fieldVal := rfl
@[simp] theorem State.refuseStart_fieldW : (s.refuseStart y).fieldW = s.fieldW := rfl
@[simp] theorem State.refuseStart_recSel : (s.refuseStart y).recSel = s.recSel := rfl
@[simp] theorem State.refuseStart_elemSel : (s.refuseStart y).elemSel = s.elemSel := rfl
@[simp] theorem State.refuseStart_cur : (s.refuseStart y).cur = s.cur := rfl
@[simp] theorem State.refuseStart_job : (s.refuseStart y).job = s.job := rfl
@[simp] theorem State.refuseStart_host : (s.refuseStart y).host = s.host := rfl
@[simp] theorem State.refuseStart_rdata : (s.refuseStart y).rdata = s.rdata := rfl
@[simp] theorem State.refuseStart_refusedStart : (s.refuseStart y).refusedStart = some y := rfl

end

section
variable (s : State) (c : Codec) (l : BitVec 32)

@[simp] theorem State.setRoute_params : (s.setRoute c l).params = s.params := rfl
@[simp] theorem State.setRoute_fb : (s.setRoute c l).fb = s.fb := rfl
@[simp] theorem State.setRoute_flen : (s.setRoute c l).flen = s.flen := rfl
@[simp] theorem State.setRoute_argOff : (s.setRoute c l).argOff = s.argOff := rfl
@[simp] theorem State.setRoute_argW : (s.setRoute c l).argW = s.argW := rfl
@[simp] theorem State.setRoute_status : (s.setRoute c l).status = s.status := rfl
@[simp] theorem State.setRoute_errOff : (s.setRoute c l).errOff = s.errOff := rfl
@[simp] theorem State.setRoute_valid : (s.setRoute c l).valid = s.valid := rfl
@[simp] theorem State.setRoute_route : (s.setRoute c l).route = ⟨l, c.id, c, 9, s.job.flen - 9⟩ := rfl
@[simp] theorem State.setRoute_recN : (s.setRoute c l).recN = s.recN := rfl
@[simp] theorem State.setRoute_recCnt : (s.setRoute c l).recCnt = s.recCnt := rfl
@[simp] theorem State.setRoute_recs : (s.setRoute c l).recs = s.recs := rfl
@[simp] theorem State.setRoute_endCur : (s.setRoute c l).endCur = s.endCur := rfl
@[simp] theorem State.setRoute_ioConsumed : (s.setRoute c l).ioConsumed = s.ioConsumed := rfl
@[simp] theorem State.setRoute_fieldVal : (s.setRoute c l).fieldVal = s.fieldVal := rfl
@[simp] theorem State.setRoute_fieldW : (s.setRoute c l).fieldW = s.fieldW := rfl
@[simp] theorem State.setRoute_recSel : (s.setRoute c l).recSel = s.recSel := rfl
@[simp] theorem State.setRoute_elemSel : (s.setRoute c l).elemSel = s.elemSel := rfl
@[simp] theorem State.setRoute_cur : (s.setRoute c l).cur = s.cur := rfl
@[simp] theorem State.setRoute_job : (s.setRoute c l).job = s.job := rfl
@[simp] theorem State.setRoute_refusedStart : (s.setRoute c l).refusedStart = s.refusedStart := rfl
@[simp] theorem State.setRoute_host : (s.setRoute c l).host = s.host := rfl
@[simp] theorem State.setRoute_rdata : (s.setRoute c l).rdata = s.rdata := rfl

end

section
variable (s : State) (f : Record → Record)

@[simp] theorem State.modifyRec0_params : (s.modifyRec0 f).params = s.params := rfl
@[simp] theorem State.modifyRec0_fb : (s.modifyRec0 f).fb = s.fb := rfl
@[simp] theorem State.modifyRec0_flen : (s.modifyRec0 f).flen = s.flen := rfl
@[simp] theorem State.modifyRec0_argOff : (s.modifyRec0 f).argOff = s.argOff := rfl
@[simp] theorem State.modifyRec0_argW : (s.modifyRec0 f).argW = s.argW := rfl
@[simp] theorem State.modifyRec0_status : (s.modifyRec0 f).status = s.status := rfl
@[simp] theorem State.modifyRec0_errOff : (s.modifyRec0 f).errOff = s.errOff := rfl
@[simp] theorem State.modifyRec0_valid : (s.modifyRec0 f).valid = s.valid := rfl
@[simp] theorem State.modifyRec0_route : (s.modifyRec0 f).route = s.route := rfl
@[simp] theorem State.modifyRec0_recN : (s.modifyRec0 f).recN = s.recN := rfl
@[simp] theorem State.modifyRec0_recCnt : (s.modifyRec0 f).recCnt = s.recCnt := rfl
@[simp] theorem State.modifyRec0_recs : (s.modifyRec0 f).recs = f (s.recAt 0) :: s.recs.tail := rfl
@[simp] theorem State.modifyRec0_endCur : (s.modifyRec0 f).endCur = s.endCur := rfl
@[simp] theorem State.modifyRec0_ioConsumed : (s.modifyRec0 f).ioConsumed = s.ioConsumed := rfl
@[simp] theorem State.modifyRec0_fieldVal : (s.modifyRec0 f).fieldVal = s.fieldVal := rfl
@[simp] theorem State.modifyRec0_fieldW : (s.modifyRec0 f).fieldW = s.fieldW := rfl
@[simp] theorem State.modifyRec0_recSel : (s.modifyRec0 f).recSel = s.recSel := rfl
@[simp] theorem State.modifyRec0_elemSel : (s.modifyRec0 f).elemSel = s.elemSel := rfl
@[simp] theorem State.modifyRec0_cur : (s.modifyRec0 f).cur = s.cur := rfl
@[simp] theorem State.modifyRec0_job : (s.modifyRec0 f).job = s.job := rfl
@[simp] theorem State.modifyRec0_refusedStart : (s.modifyRec0 f).refusedStart = s.refusedStart := rfl
@[simp] theorem State.modifyRec0_host : (s.modifyRec0 f).host = s.host := rfl
@[simp] theorem State.modifyRec0_rdata : (s.modifyRec0 f).rdata = s.rdata := rfl

end

section
variable (s : State) (n : BitVec 8) (rs : List Record) (e : Nat)

@[simp] theorem State.setRecords_params : (s.setRecords n rs e).params = s.params := rfl
@[simp] theorem State.setRecords_fb : (s.setRecords n rs e).fb = s.fb := rfl
@[simp] theorem State.setRecords_flen : (s.setRecords n rs e).flen = s.flen := rfl
@[simp] theorem State.setRecords_argOff : (s.setRecords n rs e).argOff = s.argOff := rfl
@[simp] theorem State.setRecords_argW : (s.setRecords n rs e).argW = s.argW := rfl
@[simp] theorem State.setRecords_status : (s.setRecords n rs e).status = s.status := rfl
@[simp] theorem State.setRecords_errOff : (s.setRecords n rs e).errOff = s.errOff := rfl
@[simp] theorem State.setRecords_valid : (s.setRecords n rs e).valid = s.valid := rfl
@[simp] theorem State.setRecords_route : (s.setRecords n rs e).route = s.route := rfl
@[simp] theorem State.setRecords_recN : (s.setRecords n rs e).recN = n := rfl
@[simp] theorem State.setRecords_recCnt : (s.setRecords n rs e).recCnt = BitVec.ofNat 9 rs.length := rfl
@[simp] theorem State.setRecords_recs : (s.setRecords n rs e).recs = rs := rfl
@[simp] theorem State.setRecords_endCur : (s.setRecords n rs e).endCur = e := rfl
@[simp] theorem State.setRecords_ioConsumed : (s.setRecords n rs e).ioConsumed = s.ioConsumed := rfl
@[simp] theorem State.setRecords_fieldVal : (s.setRecords n rs e).fieldVal = s.fieldVal := rfl
@[simp] theorem State.setRecords_fieldW : (s.setRecords n rs e).fieldW = s.fieldW := rfl
@[simp] theorem State.setRecords_recSel : (s.setRecords n rs e).recSel = s.recSel := rfl
@[simp] theorem State.setRecords_elemSel : (s.setRecords n rs e).elemSel = s.elemSel := rfl
@[simp] theorem State.setRecords_cur : (s.setRecords n rs e).cur = s.cur := rfl
@[simp] theorem State.setRecords_job : (s.setRecords n rs e).job = s.job := rfl
@[simp] theorem State.setRecords_refusedStart : (s.setRecords n rs e).refusedStart = s.refusedStart := rfl
@[simp] theorem State.setRecords_host : (s.setRecords n rs e).host = s.host := rfl
@[simp] theorem State.setRecords_rdata : (s.setRecords n rs e).rdata = s.rdata := rfl

end

section
variable (s : State) (n e : Nat)

@[simp] theorem State.setConsumed_params : (s.setConsumed n e).params = s.params := rfl
@[simp] theorem State.setConsumed_fb : (s.setConsumed n e).fb = s.fb := rfl
@[simp] theorem State.setConsumed_flen : (s.setConsumed n e).flen = s.flen := rfl
@[simp] theorem State.setConsumed_argOff : (s.setConsumed n e).argOff = s.argOff := rfl
@[simp] theorem State.setConsumed_argW : (s.setConsumed n e).argW = s.argW := rfl
@[simp] theorem State.setConsumed_status : (s.setConsumed n e).status = s.status := rfl
@[simp] theorem State.setConsumed_errOff : (s.setConsumed n e).errOff = s.errOff := rfl
@[simp] theorem State.setConsumed_valid : (s.setConsumed n e).valid = s.valid := rfl
@[simp] theorem State.setConsumed_route : (s.setConsumed n e).route = s.route := rfl
@[simp] theorem State.setConsumed_recN : (s.setConsumed n e).recN = s.recN := rfl
@[simp] theorem State.setConsumed_recCnt : (s.setConsumed n e).recCnt = s.recCnt := rfl
@[simp] theorem State.setConsumed_recs : (s.setConsumed n e).recs = s.recs := rfl
@[simp] theorem State.setConsumed_endCur : (s.setConsumed n e).endCur = e := rfl
@[simp] theorem State.setConsumed_ioConsumed : (s.setConsumed n e).ioConsumed = n := rfl
@[simp] theorem State.setConsumed_fieldVal : (s.setConsumed n e).fieldVal = s.fieldVal := rfl
@[simp] theorem State.setConsumed_fieldW : (s.setConsumed n e).fieldW = s.fieldW := rfl
@[simp] theorem State.setConsumed_recSel : (s.setConsumed n e).recSel = s.recSel := rfl
@[simp] theorem State.setConsumed_elemSel : (s.setConsumed n e).elemSel = s.elemSel := rfl
@[simp] theorem State.setConsumed_cur : (s.setConsumed n e).cur = s.cur := rfl
@[simp] theorem State.setConsumed_job : (s.setConsumed n e).job = s.job := rfl
@[simp] theorem State.setConsumed_refusedStart : (s.setConsumed n e).refusedStart = s.refusedStart := rfl
@[simp] theorem State.setConsumed_host : (s.setConsumed n e).host = s.host := rfl
@[simp] theorem State.setConsumed_rdata : (s.setConsumed n e).rdata = s.rdata := rfl

end

section
variable (s : State) (v : BitVec 64) (w : BitVec 4) (e : Nat)

@[simp] theorem State.setField_params : (s.setField v w e).params = s.params := rfl
@[simp] theorem State.setField_fb : (s.setField v w e).fb = s.fb := rfl
@[simp] theorem State.setField_flen : (s.setField v w e).flen = s.flen := rfl
@[simp] theorem State.setField_argOff : (s.setField v w e).argOff = s.argOff := rfl
@[simp] theorem State.setField_argW : (s.setField v w e).argW = s.argW := rfl
@[simp] theorem State.setField_status : (s.setField v w e).status = s.status := rfl
@[simp] theorem State.setField_errOff : (s.setField v w e).errOff = s.errOff := rfl
@[simp] theorem State.setField_valid : (s.setField v w e).valid = s.valid := rfl
@[simp] theorem State.setField_route : (s.setField v w e).route = s.route := rfl
@[simp] theorem State.setField_recN : (s.setField v w e).recN = s.recN := rfl
@[simp] theorem State.setField_recCnt : (s.setField v w e).recCnt = s.recCnt := rfl
@[simp] theorem State.setField_recs : (s.setField v w e).recs = s.recs := rfl
@[simp] theorem State.setField_endCur : (s.setField v w e).endCur = e := rfl
@[simp] theorem State.setField_ioConsumed : (s.setField v w e).ioConsumed = s.ioConsumed := rfl
@[simp] theorem State.setField_fieldVal : (s.setField v w e).fieldVal = v := rfl
@[simp] theorem State.setField_fieldW : (s.setField v w e).fieldW = w := rfl
@[simp] theorem State.setField_recSel : (s.setField v w e).recSel = s.recSel := rfl
@[simp] theorem State.setField_elemSel : (s.setField v w e).elemSel = s.elemSel := rfl
@[simp] theorem State.setField_cur : (s.setField v w e).cur = s.cur := rfl
@[simp] theorem State.setField_job : (s.setField v w e).job = s.job := rfl
@[simp] theorem State.setField_refusedStart : (s.setField v w e).refusedStart = s.refusedStart := rfl
@[simp] theorem State.setField_host : (s.setField v w e).host = s.host := rfl
@[simp] theorem State.setField_rdata : (s.setField v w e).rdata = s.rdata := rfl

end

section
variable (s : State)

@[simp] theorem State.resetBlock_params : s.resetBlock.params = s.params := rfl
@[simp] theorem State.resetBlock_fb : s.resetBlock.fb = s.fb := rfl
@[simp] theorem State.resetBlock_flen : s.resetBlock.flen = State.reset.flen := rfl
@[simp] theorem State.resetBlock_argOff : s.resetBlock.argOff = State.reset.argOff := rfl
@[simp] theorem State.resetBlock_argW : s.resetBlock.argW = State.reset.argW := rfl
@[simp] theorem State.resetBlock_status : s.resetBlock.status = State.reset.status := rfl
@[simp] theorem State.resetBlock_errOff : s.resetBlock.errOff = State.reset.errOff := rfl
@[simp] theorem State.resetBlock_valid : s.resetBlock.valid = State.reset.valid := rfl
@[simp] theorem State.resetBlock_route : s.resetBlock.route = State.reset.route := rfl
@[simp] theorem State.resetBlock_recN : s.resetBlock.recN = State.reset.recN := rfl
@[simp] theorem State.resetBlock_recCnt : s.resetBlock.recCnt = State.reset.recCnt := rfl
@[simp] theorem State.resetBlock_recs : s.resetBlock.recs = State.reset.recs := rfl
@[simp] theorem State.resetBlock_endCur : s.resetBlock.endCur = State.reset.endCur := rfl
@[simp] theorem State.resetBlock_ioConsumed : s.resetBlock.ioConsumed = State.reset.ioConsumed := rfl
@[simp] theorem State.resetBlock_fieldVal : s.resetBlock.fieldVal = State.reset.fieldVal := rfl
@[simp] theorem State.resetBlock_fieldW : s.resetBlock.fieldW = State.reset.fieldW := rfl
@[simp] theorem State.resetBlock_recSel : s.resetBlock.recSel = State.reset.recSel := rfl
@[simp] theorem State.resetBlock_elemSel : s.resetBlock.elemSel = State.reset.elemSel := rfl
@[simp] theorem State.resetBlock_cur : s.resetBlock.cur = State.reset.cur := rfl
@[simp] theorem State.resetBlock_job : s.resetBlock.job = State.reset.job := rfl
@[simp] theorem State.resetBlock_refusedStart : s.resetBlock.refusedStart = State.reset.refusedStart := rfl
@[simp] theorem State.resetBlock_host : s.resetBlock.host = s.host := rfl
@[simp] theorem State.resetBlock_rdata : s.resetBlock.rdata = s.rdata := rfl

end

/-- The frame is read from `FB` with the sampled length, so no update of another field bears on it. -/
theorem State.frame_congr {s t : State} (hf : t.fb = s.fb) (hj : t.job.flen = s.job.flen) : t.frame = s.frame := by
  simp only [State.frame, hf, hj]

@[simp] theorem State.recAt_modifyRec0_zero (s : State) (f : Record → Record) : (s.modifyRec0 f).recAt 0 = f (s.recAt 0) :=
  rfl

@[simp] theorem State.recAt_modifyRec0_succ (s : State) (f : Record → Record) (k : Nat) :
    (s.modifyRec0 f).recAt (k + 1) = s.recAt (k + 1) := by
  cases h : s.recs <;> simp [State.recAt, State.modifyRec0, h]

@[simp] theorem State.recAt_finishOk (s : State) (v : Valid) (a b : Bool) (c k : Nat) :
    (s.finishOk v a b c).recAt k = s.recAt k := rfl

@[simp] theorem State.recAt_setConsumed (s : State) (n e k : Nat) : (s.setConsumed n e).recAt k = s.recAt k := rfl

@[simp] theorem State.recAt_fail (s : State) (f : Failure) (k : Nat) : (s.fail f).recAt k = s.recAt k := rfl

end Sys2Proof.Machine
end

