-- ==== Sys2Proof/Laws/Exec.lean ====
section
/-! SUPPORT. What each meaning can answer, said once: which failures, and which finish under which condition. -/

namespace Sys2Proof

theorem Codec.ofId_eq_some_iff {b : Byte} {c : Codec} : Codec.ofId b = some c ↔ b = c.id := by
  constructor
  · unfold Codec.ofId
    intro h
    repeat' split at h
    all_goals first | (cases h; simpa [Codec.id] using ‹_›) | cases h
  · rintro rfl
    cases c <;> rfl

@[simp] theorem Codec.ofId_id (c : Codec) : Codec.ofId c.id = some c := Codec.ofId_eq_some_iff.mpr rfl

namespace Machine

theorem lengthRejected_eq_false_iff {p : Params} {l : BitVec 32} {n : Nat} :
    lengthRejected p l n = false ↔ lengthAccepted p l n := by
  unfold lengthRejected lengthAccepted
  cases p.strictLength <;> simp

/-- HV succeeds on these frames and no others. -/
theorem hv_ok_iff {p : Params} {fr : List Byte} {c : Codec} {l : BitVec 32} :
    hv p fr = .ok (c, l) ↔ 9 ≤ fr.length ∧ be (slice fr 0 4) = 0 ∧ lengthAccepted p (declaredLength fr) fr.length ∧
      codecIdByte fr = c.id ∧ l = declaredLength fr := by
  unfold hv
  split
  · simp; omega
  · next h9 =>
    split
    · next h => simp [h]
    · next h =>
      rw [not_not] at h
      split
      · next hl =>
        have : ¬lengthAccepted p (declaredLength fr) fr.length := by
          rw [← lengthRejected_eq_false_iff]; simp [hl]
        simp [this]
      · next hl =>
        have hl' := lengthRejected_eq_false_iff.mp (Bool.not_eq_true _ ▸ hl)
        split
        · next hn =>
          have : codecIdByte fr ≠ c.id := fun he => by simp [he] at hn
          simp [this]
        · next c' hc =>
          have hc' := Codec.ofId_eq_some_iff.mp hc
          simp only [Except.ok.injEq, Prod.mk.injEq, Nat.not_lt.mp h9, h, hl', hc', true_and]
          refine and_congr ⟨fun h => by rw [h], fun h => ?_⟩ eq_comm
          have := Codec.ofId_eq_some_iff.mpr h
          simpa using this

/-- How HV can fail: the kind, the offset, and a cursor inside the frame. -/
theorem hv_error {p : Params} {fr : List Byte} {f : Failure} (h : hv p fr = .error f) :
    f.cur ≤ fr.length ∧ f.cause ≠ .noLayout ∧ f.cause ≠ .malformedField ∧ f.cause ≠ .truncatedRecord := by
  unfold hv at h
  split at h
  · cases h; cases p.shortFrameKind <;> simp [shortFrameCause]
  · split at h
    · cases h; simp; omega
    · split at h
      · cases h; simp; omega
      · split at h
        · cases h; simp; omega
        · cases h

theorem execField_cases (r : BitVec 5) (s : State) :
    (legalWidth s.job.argW = false ∧ exec (.field r) s = .next s.abandon) ∨
    (legalWidth s.job.argW = true ∧ s.job.flen < s.job.argOff + s.job.argW.toNat ∧
      exec (.field r) s = .next (s.fail ⟨.malformedField, s.job.argOff, s.job.argOff⟩)) ∨
    (legalWidth s.job.argW = true ∧ s.job.argOff + s.job.argW.toNat ≤ s.job.flen ∧
      exec (.field r) s = .next
        ((s.setField (zext64 (be (s.bytes s.job.argOff s.job.argW.toNat))) s.job.argW
          (s.job.argOff + s.job.argW.toNat)).finishOk { Valid.clear with field := true } false false
            (s.job.argOff + s.job.argW.toNat))) := by
  simp only [exec, execField, s.fx_frame]
  cases hw : legalWidth s.job.argW
  · simp
  · by_cases h : s.job.argOff + s.job.argW.toNat ≤ s.job.flen
    · simp [h]
    · simp [h, Nat.not_le.mp h]

theorem execTs_cases (r : BitVec 5) (s : State) :
    ((s.job.flen < s.job.argOff + 8 ∨ ¬timestampFits s.params.tsBit63 (s.bytes s.job.argOff 8)) ∧
      exec (.ts r) s = .next (s.fail ⟨.malformedField, s.job.argOff, s.job.argOff⟩)) ∨
    (s.job.argOff + 8 ≤ s.job.flen ∧ timestampFits s.params.tsBit63 (s.bytes s.job.argOff 8) ∧
      exec (.ts r) s = .next
        ((s.modifyRec0 fun r => { r with ts := zext64 (be (s.bytes s.job.argOff 8)) }).finishOk
          { Valid.clear with ts := true } false false (s.job.argOff + 8))) := by
  simp only [exec, execTs, s.fx_frame]
  by_cases h : s.job.argOff + 8 ≤ s.job.flen
  · simp only [h, if_true]
    by_cases hf : timestampFits s.params.tsBit63 (s.bytes s.job.argOff 8)
    · right
      simp [tsd_eq_some_iff.mpr ⟨hf, rfl⟩, hf]
    · left
      simp [tsd_eq_none_iff.mpr hf, hf]
  · left
    simp [h, Nat.not_le.mp h]

theorem execGps_cases (r : BitVec 5) (s : State) :
    (s.job.flen < s.job.argOff + 15 ∧
      exec (.gps r) s = .next (s.fail ⟨.malformedField, s.job.argOff, s.job.argOff⟩)) ∨
    (s.job.argOff + 15 ≤ s.job.flen ∧
      exec (.gps r) s = .next
        ((s.modifyRec0 fun r => r.withFix (gpd (s.bytes s.job.argOff 15))).finishOk { Valid.clear with gps := true }
          false false (s.job.argOff + 15))) := by
  simp only [exec, execGps, s.fx_frame]
  by_cases h : s.job.argOff + 15 ≤ s.job.flen
  · simp [h]
  · simp [h, Nat.not_le.mp h]

theorem execRec_cases (r : BitVec 5) (s : State) :
    (∃ f, rsq s.params.tsBit63 s.frame s.job.argOff = .error f ∧ exec (.recOp r) s = .next (s.fail f)) ∨
    (∃ q, rsq s.params.tsBit63 s.frame s.job.argOff = .ok q ∧
      exec (.recOp r) s = .next (s.commit q { Valid.clear with recs := true })) := by
  simp only [exec, execRec, decodeRecords]
  cases rsq s.params.tsBit63 s.frame s.job.argOff <;> simp

theorem State.frameCodec_cases (s : State) (c : Codec) (l : BitVec 32) :
    (c ≠ .codec8 ∧ s.frameCodec c l = s.fail ⟨.noLayout, 8, 9⟩) ∨
    (∃ f, c = .codec8 ∧ rsq s.params.tsBit63 s.frame 9 = .error f ∧ s.frameCodec c l = s.fail f) ∨
    (∃ q, c = .codec8 ∧ rsq s.params.tsBit63 s.frame 9 = .ok q ∧
      s.frameCodec c l = (s.setRoute c l).commit q { Valid.clear with route := true, recs := true }) := by
  cases c
  case codec8 =>
    simp only [State.frameCodec, codecLayout, decodeRecords]
    cases rsq s.params.tsBit63 s.frame 9 <;> simp
  all_goals simp [State.frameCodec, codecLayout]

theorem execRoute_cases (r : BitVec 5) (s : State) :
    (∃ f, hv s.params s.frame = .error f ∧ exec (.route r) s = .next (s.fail f)) ∨
    (∃ c l, hv s.params s.frame = .ok (c, l) ∧ exec (.route r) s = .next (s.routeCodec c l)) := by
  simp only [exec, execRoute]
  rcases hv s.params s.frame with f | ⟨c, l⟩ <;> simp

theorem execFrame_cases (r : BitVec 5) (s : State) :
    (∃ f, hv s.params s.frame = .error f ∧ exec (.frame r) s = .next (s.fail f)) ∨
    (∃ c l, hv s.params s.frame = .ok (c, l) ∧ exec (.frame r) s = .next (s.frameCodec c l)) := by
  simp only [exec, execFrame]
  rcases hv s.params s.frame with f | ⟨c, l⟩ <;> simp

/-- A codec row runs the selection of its codec. -/
theorem exec_codec (c : Codec) (l : BitVec 32) (s : State) : exec (c.instr l) s = .next (s.selectCodec c l) := by
  cases c <;> rfl

/-- The ways an operation can end: a failure, the abandoned FIELD, or one of the finishes. -/
inductive Ending (i : Instr) (s : State) : State → Prop where
  | failed (f : Failure) : Ending i s (s.fail f)
  | abandoned (r : BitVec 5) (hi : i = .field r) (h : legalWidth s.job.argW = false) : Ending i s s.abandon
  | field (v : BitVec 64) (e : Nat) : Ending i s
      ((s.setField v s.job.argW e).finishOk { Valid.clear with field := true } false false e)
  | rec0 (f : Record → Record) (v : Valid) (e : Nat)
      (h : v = { Valid.clear with ts := true } ∨ v = { Valid.clear with gps := true }) : Ending i s
      ((s.modifyRec0 f).finishOk v false false e)
  | io (f : Record → Record) (n e : Nat) (a b : Bool) : Ending i s
      (((s.modifyRec0 f).setConsumed n e).finishOk { Valid.clear with io := true } a b e)
  | route (c : Codec) (l : BitVec 32) : Ending i s (s.routeCodec c l)
  | recs (q : RecResult) : Ending i s (s.commit q { Valid.clear with recs := true })
  | frame (c : Codec) (l : BitVec 32) (q : RecResult) : Ending i s
      ((s.setRoute c l).commit q { Valid.clear with route := true, recs := true })

theorem State.frameCodec_ending (s : State) (i : Instr) (c : Codec) (l : BitVec 32) :
    Ending i s (s.frameCodec c l) := by
  rcases s.frameCodec_cases c l with ⟨-, h⟩ | ⟨f, -, -, h⟩ | ⟨q, -, -, h⟩ <;> rw [h]
  · exact .failed _
  · exact .failed f
  · exact .frame c l q

theorem State.selectCodec_ending (s : State) (i : Instr) (c : Codec) (l : BitVec 32) :
    Ending i s (s.selectCodec c l) := by
  unfold State.selectCodec
  split
  · exact s.frameCodec_ending i c l
  · exact .route c l

/-- Every meaning answers a next state, and one of these. -/
theorem exec_ending (i : Instr) (s : State) : ∃ t, exec i s = .next t ∧ Ending i s t := by
  cases i with
  | codec8 l => exact ⟨_, rfl, s.selectCodec_ending _ .codec8 l⟩
  | codec8Extended l => exact ⟨_, rfl, s.selectCodec_ending _ .codec8Extended l⟩
  | codec12 l => exact ⟨_, rfl, s.selectCodec_ending _ .codec12 l⟩
  | codec13 l => exact ⟨_, rfl, s.selectCodec_ending _ .codec13 l⟩
  | codec14 l => exact ⟨_, rfl, s.selectCodec_ending _ .codec14 l⟩
  | codec15 l => exact ⟨_, rfl, s.selectCodec_ending _ .codec15 l⟩
  | codec16 l => exact ⟨_, rfl, s.selectCodec_ending _ .codec16 l⟩
  | frame r =>
    rcases execFrame_cases r s with ⟨f, -, h⟩ | ⟨c, l, -, h⟩
    · exact ⟨_, h, .failed f⟩
    · exact ⟨_, h, s.frameCodec_ending _ c l⟩
  | route r =>
    rcases execRoute_cases r s with ⟨f, -, h⟩ | ⟨c, l, -, h⟩
    · exact ⟨_, h, .failed f⟩
    · exact ⟨_, h, .route c l⟩
  | recOp r =>
    rcases execRec_cases r s with ⟨f, -, h⟩ | ⟨q, -, h⟩
    · exact ⟨_, h, .failed f⟩
    · exact ⟨_, h, .recs q⟩
  | ts r =>
    rcases execTs_cases r s with ⟨-, h⟩ | ⟨-, -, h⟩
    · exact ⟨_, h, .failed _⟩
    · exact ⟨_, h, .rec0 _ _ _ (.inl rfl)⟩
  | gps r =>
    rcases execGps_cases r s with ⟨-, h⟩ | ⟨-, h⟩
    · exact ⟨_, h, .failed _⟩
    · exact ⟨_, h, .rec0 _ _ _ (.inr rfl)⟩
  | ioe r => exact ⟨_, rfl, .io _ _ _ _ _⟩
  | field r =>
    rcases execField_cases r s with ⟨hw, h⟩ | ⟨-, -, h⟩ | ⟨-, -, h⟩
    · exact ⟨_, h, .abandoned r rfl hw⟩
    · exact ⟨_, h, .failed _⟩
    · exact ⟨_, h, .field _ _⟩

/-- No operation marks or unmarks the run, but for the FIELD that R89 refuses. -/
theorem Ending.refusedStart {i : Instr} {s t : State} (h : Ending i s t) :
    t.refusedStart = s.refusedStart ∨
      ∃ r, i = .field r ∧ legalWidth s.job.argW = false ∧ t.refusedStart = some .illegalWidth := by
  cases h with
  | abandoned r hi hw => exact .inr ⟨r, hi, hw, rfl⟩
  | _ => exact .inl rfl

/-- An operation ends idle. -/
theorem Ending.idle {i : Instr} {s t : State} (h : Ending i s t) : t.status.busy = false := by
  cases h <;> rfl

end Machine

end Sys2Proof
end

