-- ==== Sys2Proof/Laws/Memory.lean ====
section
/-! SUPPORT. The frame buffer: a read after a write, and the canonical form, which every write keeps. -/

namespace Sys2Proof.Machine

theorem Memory.wfFrom_mono {m : List Host.Cell} {j k : Nat} (hj : j ≤ k) (h : Memory.wfFrom k m = true) :
    Memory.wfFrom j m = true := by
  cases m with
  | nil => rfl
  | cons c m =>
    obtain ⟨i, v⟩ := c
    simp only [Memory.wfFrom, Bool.and_eq_true, decide_eq_true_eq] at h ⊢
    exact ⟨⟨Nat.le_trans hj h.1.1, h.1.2⟩, h.2⟩

/-- Below its first address a canonical memory reads as unlisted. -/
theorem Memory.read_below {m : List Host.Cell} {lo a : Nat} (ha : a < lo) (hw : Memory.wfFrom lo m = true) :
    Memory.read m a = Memory.unlisted := by
  induction m generalizing lo with
  | nil => rfl
  | cons c m ih =>
    obtain ⟨k, v⟩ := c
    simp only [Memory.wfFrom, Bool.and_eq_true, decide_eq_true_eq] at hw
    have hk : k ≠ a := by omega
    simp only [Memory.read, hk, if_false]
    exact ih (lo := k + 1) (by omega) hw.2

theorem Memory.read_write_same (m : List Host.Cell) (a : Nat) (b : Byte) (h : Memory.wf m = true) :
    Memory.read (Memory.write m a b) a = b := by
  suffices H : ∀ lo, Memory.wfFrom lo m = true → Memory.read (Memory.write m a b) a = b from H 0 h
  intro lo hw
  induction m generalizing lo with
  | nil => simp only [Memory.write]; split <;> simp_all [Memory.read]
  | cons c m ih =>
    obtain ⟨k, v⟩ := c
    have hw' := hw
    simp only [Memory.wfFrom, Bool.and_eq_true, decide_eq_true_eq] at hw'
    simp only [Memory.write]
    split
    · next hlt =>
      split
      · next hb =>
        rw [hb, Memory.read_below (lo := k) hlt]
        simp [Memory.wfFrom, hw'.1.2, hw'.2]
      · simp [Memory.read]
    · split
      · next heq =>
        split
        · next hb => rw [hb]; exact Memory.read_below (lo := k + 1) (by omega) hw'.2
        · simp [Memory.read]
      · next hne =>
        simp only [Memory.read, Ne.symm hne, if_false]
        exact ih (Memory.wfFrom_mono (Nat.zero_le _) hw'.2) (k + 1) hw'.2

theorem Memory.read_write_other (m : List Host.Cell) (a x : Nat) (b : Byte) (h : x ≠ a) :
    Memory.read (Memory.write m a b) x = Memory.read m x := by
  induction m with
  | nil => simp only [Memory.write]; split <;> simp [Memory.read, Ne.symm h]
  | cons c m ih =>
    obtain ⟨k, v⟩ := c
    simp only [Memory.write]
    split
    · split <;> simp [Memory.read, Ne.symm h]
    · split
      · next heq => subst heq; split <;> simp [Memory.read, Ne.symm h]
      · simp only [Memory.read, ih]

theorem Memory.wfFrom_write (m : List Host.Cell) (lo a : Nat) (b : Byte) (hlo : lo ≤ a)
    (h : Memory.wfFrom lo m = true) : Memory.wfFrom lo (Memory.write m a b) = true := by
  induction m generalizing lo with
  | nil => simp only [Memory.write]; split <;> simp_all [Memory.wfFrom]
  | cons c m ih =>
    obtain ⟨k, v⟩ := c
    simp only [Memory.wfFrom, Bool.and_eq_true, decide_eq_true_eq] at h
    simp only [Memory.write]
    split
    · split
      · simp [Memory.wfFrom, h.1.1, h.1.2, h.2]
      · next hlt hb => simp [Memory.wfFrom, hlo, hb, Nat.succ_le_of_lt hlt, h.1.2, h.2]
    · split
      · next heq =>
        subst heq
        split
        · exact Memory.wfFrom_mono (by omega) h.2
        · next hb => simp [Memory.wfFrom, hlo, hb, h.2]
      · next hne => simp [Memory.wfFrom, h.1.1, h.1.2, ih (k + 1) (by omega) h.2]

/-- A write keeps the canonical form. -/
theorem Memory.wf_write (m : List Host.Cell) (a : Nat) (b : Byte) (h : Memory.wf m = true) :
    Memory.wf (Memory.write m a b) = true :=
  Memory.wfFrom_write m 0 a b (Nat.zero_le a) h

theorem Memory.wf_writeBytes (bs : List Byte) (m : List Host.Cell) (a : Nat) (h : Memory.wf m = true) :
    Memory.wf (Memory.writeBytes m a bs) = true := by
  induction bs generalizing m a with
  | nil => exact h
  | cons b bs ih => exact ih _ _ (Memory.wf_write m a b h)

/-- Below its first address a byte string written changes nothing. -/
theorem Memory.read_writeBytes_below (bs : List Byte) (m : List Host.Cell) (a x : Nat) (h : x < a) :
    Memory.read (Memory.writeBytes m a bs) x = Memory.read m x := by
  induction bs generalizing m a with
  | nil => rfl
  | cons b bs ih => rw [Memory.writeBytes, ih _ _ (by omega), Memory.read_write_other _ _ _ _ (by omega)]

/-- A byte string written reads back byte by byte. -/
theorem Memory.read_writeBytes (bs : List Byte) (m : List Host.Cell) (a i : Nat) (hw : Memory.wf m = true)
    (h : i < bs.length) : Memory.read (Memory.writeBytes m a bs) (a + i) = bs[i] := by
  induction bs generalizing m a i with
  | nil => simp at h
  | cons b bs ih =>
    rw [Memory.writeBytes]
    cases i with
    | zero =>
      simp only [Nat.add_zero]
      rw [Memory.read_writeBytes_below _ _ _ _ (by omega), Memory.read_write_same _ _ _ hw]
      rfl
    | succ i =>
      have := ih (Memory.write m a b) (a + 1) i (Memory.wf_write _ _ _ hw) (by simpa using h)
      rw [show a + (i + 1) = a + 1 + i by omega, this]
      rfl

/-- A write lists no address but the one written. -/
theorem Memory.mem_write {m : List Host.Cell} {a : Nat} {b : Byte} {c : Host.Cell} (h : c ∈ Memory.write m a b) :
    c ∈ m ∨ c.1 = a := by
  induction m with
  | nil =>
    simp only [Memory.write] at h
    split at h <;> simp_all
  | cons d m ih =>
    obtain ⟨k, v⟩ := d
    simp only [Memory.write] at h
    split at h
    · split at h
      · exact .inl h
      · rcases List.mem_cons.mp h with rfl | h
        · exact .inr rfl
        · exact .inl h
    · split at h
      · split at h
        · exact .inl (List.mem_cons_of_mem _ h)
        · rcases List.mem_cons.mp h with rfl | h
          · exact .inr rfl
          · exact .inl (List.mem_cons_of_mem _ h)
      · rcases List.mem_cons.mp h with rfl | h
        · exact .inl (List.mem_cons_self ..)
        · rcases ih h with h | h
          · exact .inl (List.mem_cons_of_mem _ h)
          · exact .inr h

/-- Two canonical memories that read the same at every address are the same list. -/
theorem Memory.eq_of_read_eq {m m' : List Host.Cell} (h : Memory.wf m = true) (h' : Memory.wf m' = true)
    (hr : ∀ a, Memory.read m a = Memory.read m' a) : m = m' := by
  suffices H : ∀ (m m' : List Host.Cell) (lo : Nat), Memory.wfFrom lo m = true → Memory.wfFrom lo m' = true →
      (∀ a, lo ≤ a → Memory.read m a = Memory.read m' a) → m = m' from H m m' 0 h h' fun a _ => hr a
  have head : ∀ (k : Nat) (v : Byte) (m m' : List Host.Cell) (lo : Nat), Memory.wfFrom lo ((k, v) :: m) = true →
      Memory.wfFrom (k + 1) m' = true → Memory.read ((k, v) :: m) k ≠ Memory.read m' k := by
    intro k v m m' lo hw hw' heq
    simp only [Memory.wfFrom, Bool.and_eq_true, decide_eq_true_eq, bne_iff_ne] at hw
    rw [Memory.read_below (Nat.lt_succ_self k) hw'] at heq
    simp only [Memory.read, if_true] at heq
    exact hw.1.2 heq
  intro m
  induction m with
  | nil =>
    intro m' lo _ hw' hr
    cases m' with
    | nil => rfl
    | cons c m' =>
      obtain ⟨k, v⟩ := c
      have hlo : lo ≤ k := by simp only [Memory.wfFrom, Bool.and_eq_true, decide_eq_true_eq] at hw'; exact hw'.1.1
      exact absurd (hr k hlo).symm (head k v m' [] lo hw' rfl)
  | cons c m ih =>
    obtain ⟨k, v⟩ := c
    intro m' lo hw hw' hr
    have hwk := hw
    simp only [Memory.wfFrom, Bool.and_eq_true, decide_eq_true_eq] at hwk
    cases m' with
    | nil => exact absurd (hr k hwk.1.1) (head k v m [] lo hw rfl)
    | cons d m' =>
      obtain ⟨j, u⟩ := d
      have hwj := hw'
      simp only [Memory.wfFrom, Bool.and_eq_true, decide_eq_true_eq] at hwj
      have hjk : j = k := by
        rcases Nat.lt_trichotomy j k with hlt | heq | hlt
        · refine absurd (hr j hwj.1.1).symm (head j u m' ((k, v) :: m) lo hw' ?_)
          simp [Memory.wfFrom, hwk.1.2, hwk.2]; omega
        · exact heq
        · refine absurd (hr k hwk.1.1) (head k v m ((j, u) :: m') lo hw ?_)
          simp [Memory.wfFrom, hwj.1.2, hwj.2]; omega
      subst hjk
      have huv : v = u := by simpa [Memory.read] using hr j hwk.1.1
      subst huv
      have htl : m = m' := by
        refine ih m' (j + 1) hwk.2 hwj.2 fun a ha => ?_
        have := hr a (by omega)
        simpa [Memory.read, show j ≠ a by omega] using this
      rw [htl]

end Sys2Proof.Machine
end

