-- ==== Sys2Proof/Laws/PerInstr.lean ====
section
/-! SUPPORT. Per instruction: the code's number has the fields that the row of spec/opcode_table.json gives it. -/

namespace Sys2Proof.Laws.TableRow

/-- The row's "source_fields" of a PREFIX: header 71:40, declaredLength 39:8, codecId 7:0. -/
def prefixFields (n id : Nat) (declLen : BitVec 32) : Prop :=
  n / 2 ^ 40 = 0 ∧ n / 2 ^ 8 % 2 ^ 32 = declLen.toNat ∧ n % 2 ^ 8 = id

/-- The row's "source_fields" of a CTRL word: START 8, reserved 7:3, OP 2:0. -/
def ctrlFields (n op : Nat) (rsv : BitVec 5) : Prop :=
  n / 2 ^ 8 = 1 ∧ n / 2 ^ 3 % 2 ^ 5 = rsv.toNat ∧ n % 2 ^ 3 = op

/-- The number of the instruction's code, field by field as its row says. -/
def Statement (i : Instr) : Prop :=
  match i with
  | .codec8 l => prefixFields (encode i).number 0x08 l
  | .codec8Extended l => prefixFields (encode i).number 0x8E l
  | .codec12 l => prefixFields (encode i).number 0x0C l
  | .codec13 l => prefixFields (encode i).number 0x0D l
  | .codec14 l => prefixFields (encode i).number 0x0E l
  | .codec15 l => prefixFields (encode i).number 0x0F l
  | .codec16 l => prefixFields (encode i).number 0x10 l
  | .frame r => ctrlFields (encode i).number 0 r
  | .route r => ctrlFields (encode i).number 1 r
  | .recOp r => ctrlFields (encode i).number 2 r
  | .ts r => ctrlFields (encode i).number 3 r
  | .gps r => ctrlFields (encode i).number 4 r
  | .ioe r => ctrlFields (encode i).number 5 r
  | .field r => ctrlFields (encode i).number 6 r

theorem prefixFields_encode (c : Codec) (l : BitVec 32) : prefixFields (be (encodePrefix c l)) c.id.toNat l := by
  have hl := l.isLt
  have hc := c.id.isLt
  have h : be (encodePrefix c l) = l.toNat * 256 + c.id.toNat := by
    simp [encodePrefix, be_append, be_cons, be_beBytes, Nat.mod_eq_of_lt hl]
  rw [prefixFields, h]
  omega

theorem ctrlFields_encode (op : BitVec 3) (r : BitVec 5) : ctrlFields (encodeCtrl op r).toNat op.toNat r := by
  revert op r
  unfold ctrlFields
  decide

section
variable (l : BitVec 32) (r : BitVec 5)

theorem codec8 : Statement (.codec8 l) := prefixFields_encode .codec8 l
theorem codec8Extended : Statement (.codec8Extended l) := prefixFields_encode .codec8Extended l
theorem codec12 : Statement (.codec12 l) := prefixFields_encode .codec12 l
theorem codec13 : Statement (.codec13 l) := prefixFields_encode .codec13 l
theorem codec14 : Statement (.codec14 l) := prefixFields_encode .codec14 l
theorem codec15 : Statement (.codec15 l) := prefixFields_encode .codec15 l
theorem codec16 : Statement (.codec16 l) := prefixFields_encode .codec16 l
theorem frame : Statement (.frame r) := ctrlFields_encode 0 r
theorem route : Statement (.route r) := ctrlFields_encode 1 r
theorem recOp : Statement (.recOp r) := ctrlFields_encode 2 r
theorem ts : Statement (.ts r) := ctrlFields_encode 3 r
theorem gps : Statement (.gps r) := ctrlFields_encode 4 r
theorem ioe : Statement (.ioe r) := ctrlFields_encode 5 r
theorem field : Statement (.field r) := ctrlFields_encode 6 r

end

end Sys2Proof.Laws.TableRow
end

