-- ==== Sys2Proof/Laws/Step.lean ====
section
/-! SUPPORT. What one step can do, said once: the start, a host access, the block's own move. -/

namespace Sys2Proof.Machine

/-- A start is accepted under these conditions and no others. -/
theorem startVerdict_accepted_iff (s : State) (w : BitVec 9) : startVerdict s w = .accepted ↔
    ctrlStart w = true ∧ s.status.busy = false ∧ ctrlOp w ≠ 7 ∧ (ctrlOp w = 6 → legalWidth s.argW = true) ∧
      s.fits s.flen = true := by
  unfold startVerdict
  repeat' split
  all_goals simp_all

/-- A start is refused for these reasons and no others. -/
theorem startVerdict_refused_iff (s : State) (w : BitVec 9) (y : RefusedStart) : startVerdict s w = .refused y ↔
    ctrlStart w = true ∧ s.status.busy = false ∧
      ((ctrlOp w = 7 ∧ y = .reservedOp) ∨ (ctrlOp w = 6 ∧ legalWidth s.argW = false ∧ y = .illegalWidth)) := by
  unfold startVerdict
  repeat' split
  all_goals cases y <;> simp_all

/-- A start has no step for this reason and no other. -/
theorem startVerdict_overCapacity_iff (s : State) (w : BitVec 9) : startVerdict s w = .overCapacity ↔
    ctrlStart w = true ∧ s.status.busy = false ∧ ctrlOp w ≠ 7 ∧ (ctrlOp w = 6 → legalWidth s.argW = true) ∧
      s.fits s.flen = false := by
  unfold startVerdict
  repeat' split
  all_goals simp_all

/-- Only an idle block refuses a start. -/
theorem startVerdict_refused_idle {s : State} {w : BitVec 9} {y : RefusedStart} (h : startVerdict s w = .refused y) :
    s.status.busy = false :=
  ((startVerdict_refused_iff s w y).mp h).2.1

/-- An accepted start latches an operation. -/
theorem decodeCtrl_of_accepted {w : BitVec 9} (h : ctrlStart w = true) (h7 : ctrlOp w ≠ 7) :
    ∃ i, decodeCtrl w = .ok i := by
  have hlt : (ctrlOp w).toNat < 7 := by
    have h8 := (ctrlOp w).isLt
    have : (ctrlOp w).toNat ≠ 7 := fun he => h7 (BitVec.eq_of_toNat_eq he)
    omega
  unfold decodeCtrl
  rw [if_pos h]
  generalize (ctrlOp w).toNat = n at hlt
  interval_cases n <;> exact ⟨_, rfl⟩

/-- What a write to `CTRL` does. -/
theorem writeCtrl_cases (w : BitVec 9) (s : State) :
    (startVerdict s w = .accepted ∧ writeCtrl w s = .next (s.startOp w)) ∨
    (startVerdict s w = .overCapacity ∧ writeCtrl w s = .fault .flenAboveFrameMax) ∨
    (∃ y, startVerdict s w = .refused y ∧ writeCtrl w s = .next (s.refuseStart y)) ∨
    ((startVerdict s w = .noStart ∨ startVerdict s w = .ignoredBusy) ∧ writeCtrl w s = .next s) := by
  unfold writeCtrl
  cases startVerdict s w <;> simp

/-- The ways a host access can change the state. -/
inductive Accessed (s : State) : State → Prop where
  | same : Accessed s s
  | started (w : BitVec 9) (h : startVerdict s w = .accepted) : Accessed s (s.startOp w)
  | refused (y : RefusedStart) (idle : s.status.busy = false) : Accessed s (s.refuseStart y)
  | flen (v : Nat) : Accessed s { s with flen := v }
  | argOff (v : Nat) : Accessed s { s with argOff := v }
  | argW (v : BitVec 4) : Accessed s { s with argW := v }
  | recSel (v : BitVec 8) : Accessed s { s with recSel := v }
  | elemSel (v : BitVec 10) : Accessed s { s with elemSel := v }
  | read (x : Option Nat) : Accessed s { s with rdata := x }
  | buffer (off : Nat) (b : Byte) (idle : s.status.busy = false) (room : s.fits (off + 1) = true) :
      Accessed s { s with fb := Memory.write s.fb off b }
  | reset : Accessed s s.resetBlock

theorem writeReg_accessed {r : RegName} {v : Nat} {s t : State} (h : writeReg r v s = .next t) : Accessed s t := by
  cases r
  case ctrl =>
    rcases writeCtrl_cases (BitVec.ofNat 9 v) s with ⟨hv, hw⟩ | ⟨-, hw⟩ | ⟨y, hv, hw⟩ | ⟨-, hw⟩
    · cases hw.symm.trans h; exact .started _ hv
    · cases hw.symm.trans h
    · cases hw.symm.trans h; exact .refused y (startVerdict_refused_idle hv)
    · cases hw.symm.trans h; exact .same
  all_goals first
    | (cases h; done)
    | (cases h; constructor)

/-- A host access that does not fault does one of these. -/
theorem hostStep_accessed {a : Access} {s t : State} (h : hostStep a s = .next t) : Accessed s t := by
  cases a with
  | writeReg n v =>
    simp only [hostStep, onRegister] at h
    split at h
    · exact writeReg_accessed h
    · cases h
  | readReg n =>
    simp only [hostStep, onRegister] at h
    split at h
    · cases h; exact .read _
    · cases h
  | writeFB off b =>
    simp only [hostStep] at h
    split at h
    · cases h
    · next hb =>
      split at h
      · next hr => cases h; exact .buffer off b (Bool.not_eq_true _ ▸ hb) hr
      · cases h
  | readFB off =>
    simp only [hostStep] at h
    split at h
    · cases h; exact .read _
    · cases h
  | reset => cases h; exact .reset

/-- What the block left to itself does when it does not stop. -/
theorem blockStep_cases {s t : State} (h : blockStep s = .next t) :
    (s.status.busy = false ∧ t = s) ∨
    (s.status.busy = true ∧ ∃ i, decodeCtrl s.job.word = .ok i ∧ exec i s = .next t) := by
  unfold blockStep fetch at h
  cases hb : s.status.busy with
  | false => simp only [hb] at h; cases h; exact .inl ⟨rfl, rfl⟩
  | true =>
    simp only [hb, if_true] at h
    cases hd : decodeCtrl s.job.word with
    | error e => rw [hd] at h; cases h
    | ok i => rw [hd] at h; exact .inr ⟨rfl, i, rfl, h⟩

/-- What a step does when it does not stop: the host's access, or the block's own move; either way the host's list
loses at most its first move. -/
theorem step_cases {s t : State} (h : step s = .next t) :
    (s.host = [] ∧ blockStep s = .next t) ∨
    (∃ rest, s.host = .wait :: rest ∧ blockStep { s with host := rest } = .next t) ∨
    (∃ a rest, s.host = .access a :: rest ∧ hostStep a { s with host := rest } = .next t) := by
  unfold step at h
  split at h
  · next hh => exact .inl ⟨hh, h⟩
  · next rest hh => exact .inr (.inl ⟨rest, hh, h⟩)
  · next a rest hh => exact .inr (.inr ⟨a, rest, hh, h⟩)

end Sys2Proof.Machine
end

