-- ==== Sys2Proof/Tests/Slice0.lean ====
section
/-! SUPPORT. Tests: expected values from spec/95_test_vectors.md (the vector's name stands at each), words written out
from spec/30_encoding.md, and a witness for the hypotheses of each obligation. -/

open Sys2Proof Sys2Proof.Machine

namespace Sys2Proof.Tests

set_option Elab.async false

/-- An idle block after reset with a frame in its buffer. -/
def loaded (frame : List Byte) (off : Nat) (w : BitVec 4) : State :=
  { State.reset with fb := Memory.writeBytes [] 0 frame, flen := frame.length, argOff := off, argW := w }

/-- The same with operation `op` started. -/
def running (op : BitVec 3) (frame : List Byte) (off : Nat) (w : BitVec 4 := 0) : State :=
  (loaded frame off w).startOp (encodeCtrl op 0)

/-- What a test asks of the next state. -/
def after {α : Type} (o : Host.Outcome State Fault Refusal) (f : State → α) : Option α :=
  match o with
  | .next t => some (f t)
  | .fault _ => none
  | .refused _ => none

theorem next_of_after {α : Type} {o : Host.Outcome State Fault Refusal} {f : State → α} {a : α}
    (h : after o f = some a) : ∃ t, o = .next t ∧ f t = a := by
  cases o with
  | next t => exact ⟨t, rfl, by simpa [after] using h⟩
  | fault e => simp [after] at h
  | refused e => simp [after] at h

/-! ## Well-formed and ill-formed instructions (R25) -/

theorem test_wellFormed_refuses_reserved_bits :
    (Instr.frame 1).wellFormed = false ∧ (Instr.route 16).wellFormed = false ∧ (Instr.recOp 2).wellFormed = false ∧
    (Instr.ts 4).wellFormed = false ∧ (Instr.gps 8).wellFormed = false ∧ (Instr.ioe 31).wellFormed = false ∧
    (Instr.field 1).wellFormed = false := by decide

theorem test_wellFormed_accepts :
    (Instr.frame 0).wellFormed = true ∧ (Instr.field 0).wellFormed = true ∧ (Instr.codec8 53).wellFormed = true := by
  decide

/-! ## Decoding, every constructor by a written-out word (R25, R75; R61, R70) -/

theorem test_decode_ctrl_words :
    decodeCtrl 0b100000000 = .ok (.frame 0) ∧ decodeCtrl 0b100000001 = .ok (.route 0) ∧
    decodeCtrl 0b100000010 = .ok (.recOp 0) ∧ decodeCtrl 0b100000011 = .ok (.ts 0) ∧
    decodeCtrl 0b100000100 = .ok (.gps 0) ∧ decodeCtrl 0b100000101 = .ok (.ioe 0) ∧
    decodeCtrl 0b110001110 = .ok (.field 17) := by decide

theorem test_decode_prefixes :
    decodePrefix [0, 0, 0, 0, 0, 0, 0, 0x35, 0b00001000] = .ok (.codec8 53) ∧
    decodePrefix [0, 0, 0, 0, 0, 0, 0, 0x35, 0b10001110] = .ok (.codec8Extended 53) ∧
    decodePrefix [0, 0, 0, 0, 0, 0, 0, 0x35, 0b00001100] = .ok (.codec12 53) ∧
    decodePrefix [0, 0, 0, 0, 0, 0, 0, 0x35, 0b00001101] = .ok (.codec13 53) ∧
    decodePrefix [0, 0, 0, 0, 0, 0, 0, 0x35, 0b00001110] = .ok (.codec14 53) ∧
    decodePrefix [0, 0, 0, 0, 0xFF, 0xFF, 0xFF, 0xFF, 0b00001111] = .ok (.codec15 4294967295) ∧
    decodePrefix [0, 0, 0, 0, 1, 2, 3, 4, 0b00010000] = .ok (.codec16 16909060) := by decide

/-- R71's range edges, R72, R25, R76. -/
theorem test_decode_rejects :
    (∀ c ∈ [(0x00 : Byte), 0x07, 0x09, 0x0B, 0x11, 0x8D, 0x8F, 0xFF],
      decodePrefix [0, 0, 0, 0, 0, 0, 0, 0x35, c] = .error .unknownCodec) ∧
    decodePrefix [0x80, 0, 0, 0, 0, 0, 0, 0x35, 0x07] = .error .invalidHeader ∧
    decodePrefix [0, 0, 0, 0, 0, 0, 0, 0x35] = .error .prefixLength ∧
    decodeCtrl 0b111111111 = .error .reservedOp ∧ decodeCtrl 0b011111011 = .error .notAStart := by decide

/-- The table's numbering: header 71:40, declaredLength 39:8, codecId 7:0, and `1 rrrrr ooo`. -/
theorem test_decodeTableWord :
    decodeTableWord 72 (0x35 * 256 + 0x8E) = some (.codec8Extended 53) ∧
    decodeTableWord 72 (2 ^ 40 + 0x08) = none ∧
    decodeTableWord 16 0b100000100 = some (.gps 0) ∧ decodeTableWord 16 0b100000111 = none := by decide +kernel

/-! ## One step of each instruction -/

/-- Vectors F5 and F6 use this buffer. -/
def bufferB : List Byte := [0x01, 0x02, 0x03, 0x04, 0x05, 0x06, 0x07, 0x08, 0x09, 0x0A]

/-- F5. -/
theorem test_field_ends_at_flen :
    after (step (running 6 bufferB 2 8)) (fun t => (t.status.kind, t.fieldVal, t.fieldW, t.endCur, t.valid.word)) =
      some (.ok, 217304205466536202, 8, 10, 0b100000) := by decide +kernel

/-- F6. -/
theorem test_field_short :
    after (step (running 6 bufferB 3 8)) (fun t => (t.status.kind, readReg t .errOff, readReg t .field)) =
      some (.failed .malformedField, some 3, none) := by decide +kernel

/-- T3. -/
theorem test_ts_largest :
    after (step (running 3 [0x7F, 0xFF, 0xFF, 0xFF, 0xFF, 0xFF, 0xFF, 0xFF] 0))
      (fun t => (t.status.kind, (t.recAt 0).ts.toInt, t.valid.word)) =
      some (.ok, 9223372036854775807, 0b000100) := by decide +kernel

/-- T4, under both policies. -/
theorem test_ts_bit63 :
    let s := running 3 [0x80, 0, 0, 0, 0, 0, 0, 0] 0
    after (step s) (fun t => (t.status.kind, readReg t .errOff)) = some (.failed .malformedField, some 0) ∧
    after (step { s with params := { s.params with tsBit63 := .wrap } })
      (fun t => (t.status.kind, (t.recAt 0).ts.toInt)) = some (.ok, -9223372036854775808) := by decide +kernel

/-- G7. -/
theorem test_gps_distinct_bytes :
    after (step (running 4 [1, 2, 3, 4, 5, 6, 7, 8, 9, 0x0A, 0x0B, 0x0C, 0x0D, 0x0E, 0x0F] 0))
      (fun t => t.recAt 0) =
      some { Record.zero with lat := 16909060, lon := 84281096, alt := 2314, ang := 2828, sat := 13, spd := 15 } := by
  decide +kernel

/-- G9: 14 bytes from offset 1. -/
theorem test_gps_short :
    after (step (running 4
      [0x0F, 0x0E, 0xA8, 0x50, 0x20, 0x9A, 0x69, 0x00, 0x00, 0x94, 0x00, 0xB6, 0x0C, 0x07, 0x2D] 1))
      (fun t => (t.status.kind, readReg t .errOff, t.valid.word)) =
      some (.failed .malformedField, some 1, 0) := by decide +kernel

/-- S4, the source's own example. -/
theorem test_ioe_whole_section :
    after (step (running 5 [0x05, 0x02, 0x15, 0x03, 0x01, 0x01, 0x01, 0x42, 0x5E, 0x0F, 0x01, 0xF1, 0x00, 0x00, 0x60,
      0x1A, 0x01, 0x4E, 0, 0, 0, 0, 0, 0, 0, 0] 0))
      (fun t => ((t.recAt 0).elems.map fun e => (e.id.toNat, e.valueHex), (t.recAt 0).ioTotal, t.ioConsumed)) =
      some ([(21, ['0', '3']), (1, ['0', '1']), (66, ['5', 'e', '0', 'f']),
        (241, ['0', '0', '0', '0', '6', '0', '1', 'a']), (78, List.replicate 16 '0')], 5, 26) := by decide +kernel

/-- I3: a lenient stop inside the 1-byte group; and, as P4 step 4 says, no other field of `REC[0]` holds a value. -/
theorem test_ioe_lenient_stop :
    after (step (running 5 [0x01, 0x02, 0x02, 0x4A, 0x03] 0))
      (fun t => ((t.recAt 0).elems, t.ioConsumed, readReg t .status, readReg t .recTs)) =
      some ([⟨2, 1, 0x4A⟩], 4, some 0b01100001, none) := by decide +kernel

/-- T of section 2.6, priority 2, the block of vector G1. -/
def recordHead : List Byte :=
  [0, 0, 0, 0, 0, 0, 0, 1, 2] ++
    [0x0F, 0x0E, 0xA8, 0x50, 0x20, 0x9A, 0x69, 0x00, 0x00, 0x94, 0x00, 0xB6, 0x0C, 0x07, 0x2D]

/-- Q14. -/
theorem test_rec_one_record :
    after (step (running 2 ([0x01] ++ recordHead ++ [0, 0, 0, 0, 0]) 0))
      (fun t => (t.status.kind, t.recCnt, t.endCur, t.recs)) =
      some (.ok, 1, 30, [{ Record.zero with
        ts := 1, prio := 2, lat := 252618832, lon := 546990336, alt := 148, ang := 182, sat := 12, spd := 45 }]) := by
  decide +kernel

/-- Q18 (as REC at offset 9 of the same frame): the bytes of the cut element, read as the next timestamp. -/
theorem test_rec_after_lenient_stop :
    after (step (running 2
      (List.replicate 9 0 ++ [0x02] ++ recordHead ++ [0x01, 0, 0, 0, 0x01] ++ [0x87, 1, 2, 3, 4, 5, 6, 7]) 9))
      (fun t => (t.status.kind, readReg t .errOff, readReg t .recN)) =
      some (.failed .malformedField, some 39, none) := by decide +kernel

/-- The prefix of the vectors of section 2.6. -/
def prefix8 : List Byte := [0, 0, 0, 0, 0, 0, 0, 0, 0x08]

/-- Q19. -/
theorem test_frame_truncated_last_record :
    after (step (running 0
      (prefix8 ++ [0x01] ++ recordHead ++ [0x01, 0, 0, 0, 0x01] ++ [0x07, 1, 2, 3, 4, 5, 6, 7]) 0))
      (fun t => (t.status.kind, t.recN, t.endCur, t.status.ioTrunc, t.status.ioMismatch, t.valid.word)) =
      some (.ok, 1, 39, true, true, 0b000011) := by decide +kernel

/-- P3c in small, Q8: 14 bytes of the GPS block. -/
theorem test_frame_short_gps :
    after (step (running 0 (prefix8 ++ [0x01] ++ recordHead.take 23) 0))
      (fun t => (t.status.kind, readReg t .errOff, t.valid.word)) =
      some (.failed .truncatedRecord, some 19, 0) := by decide +kernel

/-- H15. -/
theorem test_route_codec16 :
    after (step (running 1 [0, 0, 0, 0, 1, 2, 3, 4, 0x10, 0xAA] 0))
      (fun t => (t.status.kind, readReg t .declLen, readReg t .codec, readReg t .payOff, readReg t .payLen)) =
      some (.ok, some 16909060, some (6 * 256 + 0x10), some 9, some 1) := by decide +kernel

/-- H3, with both parameter values, and H7: the header wins over the codec. -/
theorem test_route_failures :
    let short := running 1 [0, 0, 0, 0, 0, 0, 0, 0x35] 0
    after (step short) (fun t => (t.status.kind, readReg t .errOff)) = some (.failed .preconditionError, some 0) ∧
    after (step { short with params := { short.params with shortFrameKind := .invalidHeader } })
      (fun t => t.status.kind) = some (.failed .invalidHeader) ∧
    after (step (running 1 [1, 0, 0, 0, 0, 0, 0, 0x35, 0x07] 0)) (fun t => t.status.kind) =
      some (.failed .invalidHeader) := by decide +kernel

/-- What a codec row's word, placed after reset, reports. -/
def report (id : Nat) : Option (Kind × Option Nat × Option Nat) :=
  after (step (State.reset.withFetchWord 72 (53 * 256 + id)))
    fun t => (t.status.kind, readReg t .codec, readReg t .declLen)

/-- H1. -/
theorem test_codec8 : report 0x08 = some (.ok, some 0x008, some 53) := by decide +kernel
/-- H10. -/
theorem test_codec8Extended : report 0x8E = some (.ok, some 0x18E, some 53) := by decide +kernel
/-- H11. -/
theorem test_codec12 : report 0x0C = some (.ok, some 0x20C, some 53) := by decide +kernel
/-- H12. -/
theorem test_codec13 : report 0x0D = some (.ok, some 0x30D, some 53) := by decide +kernel
/-- H13. -/
theorem test_codec14 : report 0x0E = some (.ok, some 0x40E, some 53) := by decide +kernel
/-- H14. -/
theorem test_codec15 : report 0x0F = some (.ok, some 0x50F, some 53) := by decide +kernel
/-- R109. -/
theorem test_codec16 : report 0x10 = some (.ok, some 0x610, some 53) := by decide +kernel

/-- Q15: the six codecs without a layout, under FRAME. -/
theorem test_frame_noLayout :
    ∀ c ∈ [(0x8E : Byte), 0x0C, 0x0D, 0x0E, 0x0F, 0x10],
      after (step (running 0 [0, 0, 0, 0, 0, 0, 0, 0x35, c, 0xAA] 0))
        (fun t => (t.status.kind, readReg t .errOff, t.valid.word)) = some (.failed .noLayout, some 8, 0) := by
  decide +kernel

theorem test_reset_memory : Memory.wf State.reset.fb = true := by decide

/-! ## Witnesses: concrete states and operands that meet the hypotheses of each obligation, clause by clause -/

theorem witness_EncodeOfDecodeIsIdentity :
    decode (.ctrlWord 0b100011011) = .ok (.ts 3) ∧
    decode (.framePrefix [0, 0, 0, 0, 0xFF, 0, 0, 1, 0x0F]) = .ok (.codec15 0xFF000001) := by decide

theorem witness_StepRunsLatchedOperation :
    let s := running 5 [0x01, 0, 0, 0, 0] 0
    s.status.busy = true ∧ decodeCtrl s.job.word = .ok (.ioe 0) ∧ s.host = [] ∧
    ({ s with host := [.wait, .wait] } : State).host = .wait :: [.wait] := by decide +kernel

/-- A frame of exactly nine bytes, under ROUTE and under FRAME. -/
theorem witness_StepRunsCodecRow :
    let s := running 1 prefix8 0
    let s' := running 0 prefix8 0
    s.host = [] ∧ s.status.busy = true ∧ decodeCtrl s.job.word = .ok (.route 0) ∧ s.job.flen = 9 ∧
    decodePrefix (s.bytes 0 9) = .ok (.codec8 0) ∧ decodeCtrl s'.job.word = .ok (.frame 0) ∧
    lengthAccepted s.params (BitVec.ofNat 32 (be (s.bytes 4 4))) s.job.flen :=
  ⟨by decide +kernel, by decide +kernel, by decide +kernel, by decide +kernel, by decide +kernel, by decide +kernel,
    fun h => absurd h (by decide +kernel)⟩

/-- The optional length check may also be on and satisfied, whatever the function behind it is. -/
theorem witness_lengthAccepted_strict : Config.lengthConsistent 53 9 = true →
    lengthAccepted { Params.default with strictLength := true } 53 9 := fun h _ => h

theorem witness_PlacedWordRunsNext :
    Memory.wf State.reset.fb = true ∧ State.reset.params.strictLength = false ∧
    16 = (match encode (.gps 0) with | .ctrlWord _ => 16 | .framePrefix _ => 72) ∧
    72 = (match encode (.codec12 7) with | .ctrlWord _ => 16 | .framePrefix _ => 72) := by decide

theorem witness_IdleBlockHolds :
    State.reset.status.busy = false ∧ State.reset.host = [] ∧
    ({ State.reset with host := [.wait] } : State).host = .wait :: [] := by decide

/-- The host writes `v` to `CTRL` next. -/
def starting (s : State) (v : Nat) : State := { s with host := [.access (.writeReg 0 v)] }

/-- The buffer holds exactly `FRAME_MAX` bytes and `ARG_W` is 1 or 8; then the clause about the later writes. -/
theorem witness_AcceptedStartLatches :
    (∀ w ∈ [(1 : BitVec 4), 8],
      let s := { starting (loaded bufferB 0 w) 0b100000110 with
        params := { Params.default with frameMax := some 10 } }
      s.host = .access (.writeReg 0 0b100000110) :: [] ∧ 0b100000110 / 256 % 2 = 1 ∧ s.status.busy = false ∧
      0b100000110 % 8 ≠ 7 ∧ 1 ≤ s.argW.toNat ∧ s.argW.toNat ≤ 8 ∧ s.params.frameMax = some s.flen) ∧
    ∃ t, exec (.ts 0) (running 3 [0, 0, 0, 0, 0, 0, 0, 0] 0) = .next t ∧ t.status.kind = .ok :=
  ⟨by decide +kernel, next_of_after (f := fun t : State => t.status.kind) (by decide +kernel)⟩

theorem witness_IgnoredStartsChangeNothing :
    (starting State.reset 0b011111111).host = .access (.writeReg 0 0b011111111) :: [] ∧ 0b011111111 / 256 % 2 = 0 ∧
    (starting (running 1 [] 0) 0b100000000).host = .access (.writeReg 0 0b100000000) :: [] ∧
    (starting (running 1 [] 0) 0b100000000).status.busy = true ∧
    (starting State.reset 0b100000111).host = .access (.writeReg 0 0b100000111) :: [] ∧ 0b100000111 % 8 = 7 := by
  decide +kernel

/-- `OP = 7`; FIELD with `ARG_W` 0 and 9; Q15's frame for `NoLayout` and H1's for another outcome; the steps from an unmarked
to a marked state, by the host and by the block; a start that finds the mark; a reset. -/
theorem witness_RefusalsMarkTheRun :
    (starting State.reset 0b100000111).host = .access (.writeReg 0 0b100000111) :: [] ∧
    0b100000111 / 256 % 2 = 1 ∧ State.reset.status.busy = false ∧ 0b100000111 % 8 = 7 ∧
    0b100000110 / 256 % 2 = 1 ∧ 0b100000110 % 8 = 6 ∧ (loaded [] 0 0).argW.toNat < 1 ∧ 8 < (loaded [] 0 9).argW.toNat ∧
    (∃ t, exec (.frame 0) (running 0 [0, 0, 0, 0, 0, 0, 0, 0x35, 0x8E] 0) = .next t ∧
      t.status.kind = .failed .noLayout) ∧
    (∃ t, exec (.route 0) (running 1 prefix8 0) = .next t ∧ (t.status.kind, t.refusedStart) = (.ok, none)) ∧
    ((starting State.reset 0b100000111).runRefused = false ∧
      (∀ r, decodeCtrl State.reset.job.word ≠ .ok (.field r)) ∧
      ∃ t, step (starting State.reset 0b100000111) = .next t ∧ t.runRefused = true) ∧
    ((running 0 [0, 0, 0, 0, 0, 0, 0, 0x35, 0x8E] 0).runRefused = false ∧
      (∀ r, decodeCtrl (running 0 [0, 0, 0, 0, 0, 0, 0, 0x35, 0x8E] 0).job.word ≠ .ok (.field r)) ∧
      ∃ t, step (running 0 [0, 0, 0, 0, 0, 0, 0, 0x35, 0x8E] 0) = .next t ∧ t.runRefused = true) ∧
    (∃ t, step (starting (State.reset.refuseStart .reservedOp) 0b100000001) = .next t ∧ t.status.busy = true) ∧
    ∃ t, step { State.reset.refuseStart .reservedOp with host := [.access .reset] } = .next t ∧ t.flen = 0 :=
  ⟨by decide, by decide, by decide, by decide, by decide, by decide, by decide, by decide,
    next_of_after (f := fun t : State => t.status.kind) (by decide +kernel),
    next_of_after (f := fun t : State => (t.status.kind, t.refusedStart)) (by decide +kernel),
    ⟨by decide, by decide, next_of_after (f := State.runRefused) (by decide +kernel)⟩,
    ⟨by decide +kernel, by decide +kernel, next_of_after (f := State.runRefused) (by decide +kernel)⟩,
    next_of_after (f := fun t : State => t.status.busy) (by decide +kernel),
    next_of_after (f := fun t : State => t.flen) (by decide +kernel)⟩

/-- R76, R90, R176: the two refused starts change no register and mark the run. -/
theorem test_refused_starts :
    step (starting State.reset 0b100000111) = .next (State.reset.refuseStart .reservedOp) ∧
    step (starting (loaded [] 0 9) 0b100000110) = .next ((loaded [] 0 9).refuseStart .illegalWidth) ∧
    (State.reset.refuseStart .reservedOp).runRefused = true ∧
    { State.reset.refuseStart .reservedOp with refusedStart := none } = State.reset :=
  ⟨rfl, rfl, rfl, rfl⟩

/-- `ARG_W` 0 and 9. -/
theorem witness_IllegalWidthStartChangesNothing :
    ∀ w ∈ [(0 : BitVec 4), 9],
      let s := starting (loaded bufferB 0 w) 0b100000110
      s.host = .access (.writeReg 0 0b100000110) :: [] ∧ 0b100000110 % 8 = 6 ∧ (s.argW.toNat < 1 ∨ 8 < s.argW.toNat) := by
  decide +kernel

theorem witness_MeaninglessHostMovesStop :
    let small := { loaded bufferB 0 0 with params := { Params.default with frameMax := some 9 } }
    let s₁ := starting small 0b100000101
    let s₄ := starting { small with argW := 8 } 0b100000110
    let s₂ := { running 1 [] 0 with host := [.access (.writeFB 0 1)] }
    let s₃ := { small with host := [.access (.writeFB 9 1)] }
    (s₁.host = .access (.writeReg 0 0b100000101) :: [] ∧ 0b100000101 / 256 % 2 = 1 ∧ s₁.status.busy = false ∧
      0b100000101 % 8 ≠ 7 ∧ 0b100000101 % 8 ≠ 6 ∧ s₁.params.frameMax = some 9 ∧ 9 < s₁.flen) ∧
    (s₄.host = .access (.writeReg 0 0b100000110) :: [] ∧ 0b100000110 % 8 = 6 ∧ 1 ≤ s₄.argW.toNat ∧ s₄.argW.toNat ≤ 8 ∧
      s₄.params.frameMax = some 9 ∧ 9 < s₄.flen) ∧
    ({ small with host := [.access (.readFB 9)] } : State).host = .access (.readFB 9) :: [] ∧
    (s₂.host = .access (.writeFB 0 1) :: [] ∧ s₂.status.busy = true) ∧
    (s₃.host = .access (.writeFB 9 1) :: [] ∧ s₃.status.busy = false ∧ s₃.params.frameMax = some 9 ∧ 9 ≤ 9) ∧
    ({ small with host := [.access (.readReg 32)] } : State).host = .access (.readReg 32) :: [] ∧
    ({ small with host := [.access (.writeReg 32 0)] } : State).host = .access (.writeReg 32 0) :: [] ∧
    (31 < 32 ∧ 31 ∉ [0, 2, 3, 4, 17, 29] ∧
      ({ small with host := [.access (.writeReg 31 0)] } : State).host = .access (.writeReg 31 0) :: []) := by
  decide +kernel

theorem witness_HostWritesOneRegister :
    ∀ n ∈ [2, 3, 4, 17, 29],
      ({ running 1 [] 0 with host := [.access (.writeReg n 2000)] } : State).host = .access (.writeReg n 2000) :: [] := by
  decide +kernel

/-- The last byte of a buffer of four. -/
theorem witness_BufferWriteReadsBack :
    let s : State := { State.reset with
      params := { Params.default with frameMax := some 4 }, host := [.access (.writeFB 3 0xAA)] }
    let u : State := { s with host := [.access (.writeFB 3 0xAA), .access (.readFB 3)] }
    Memory.wf s.fb = true ∧ s.host = .access (.writeFB 3 0xAA) :: [] ∧ s.status.busy = false ∧
    (∀ m, s.params.frameMax = some m → 3 < m) ∧
    ({ s with host := [.access (.readFB 3)] } : State).host = .access (.readFB 3) :: [] ∧
    u.host = .access (.writeFB 3 0xAA) :: .access (.readFB 3) :: [] ∧ ∃ t, step u = .next t ∧ t.fb = [(3, 0xAA)] :=
  ⟨rfl, rfl, rfl, fun m h => by cases h; decide, rfl, rfl,
    next_of_after (f := fun t : State => t.fb) (by decide +kernel)⟩

theorem witness_ResetLeavesTable :
    let s : State := { running 0 prefix8 0 with host := [.access .reset] }
    s.host = .access .reset :: [] ∧ s.status.busy = true ∧ ∃ t, step s = .next t ∧ t.flen = 0 :=
  ⟨rfl, rfl, next_of_after (f := fun t : State => t.flen) (by decide +kernel)⟩

theorem witness_InvalidResultsReadAsNoValue :
    RegName.recTs.isResult = true ∧ (running 3 [] 0).status.busy = true ∧
    RegName.recTs.covered { Valid.clear with gps := true } = false := by decide

/-- `REC_SEL` at `REC_CNT` under `V_RECS`, at 1 under `V_TS`, and an element at `IO_N`. -/
theorem witness_EntriesBeyondCountReadAsNoValue :
    let s : State := { State.reset with valid := { Valid.clear with recs := true }, recCnt := 2, recSel := 2 }
    let u : State := { State.reset with valid := { Valid.clear with ts := true }, recSel := 1 }
    (RegName.recTs ∈ [RegName.recTs, .recPrio] ∧ s.valid.recs = true ∧ s.recCnt.toNat = s.recSel.toNat ∧ s.recSel ≠ 0) ∧
    (u.valid.recs = false ∧ u.recSel ≠ 0) ∧
    (State.reset.recAt State.reset.recSel.toNat).ioN.toNat ≤ State.reset.elemSel.toNat := by decide

theorem witness_ErrOffHasValueOnlyAfterFailure :
    (∀ s ∈ [Status.mk (.failed .unknownCodec) false true false false, okStatus false false], s.kind ≠ .none) ∧
    ({ State.reset with status := ⟨.failed .noLayout, false, true, false, false⟩ } : State).status.kind =
      .failed .noLayout ∧
    ({ State.reset with status := okStatus true true } : State).status.kind = .ok ∧
    State.reset.status.kind = .none := by decide

/-- The lowest and the highest number; a failure; each `VALID` bit, in an idle block; the last record below `REC_CNT` and
the last element below `IO_N`. -/
theorem witness_HostReadAnswersRegister :
    let v := Valid.clear
    let r : Record := { Record.zero with ioN := 1, elems := [⟨2, 1, 0x4A⟩] }
    let s : State := { State.reset with valid := { v with recs := true }, recCnt := 2, recSel := 1, recs := [r, r] }
    let u : State := { State.reset with valid := { v with io := true }, recs := [r] }
    0 < 32 ∧ 31 < 32 ∧
    ({ State.reset with host := [.access (.readReg 31)] } : State).host = .access (.readReg 31) :: [] ∧
    ({ State.reset with status := ⟨.failed .noLayout, false, true, false, false⟩ } : State).status.kind =
      .failed .noLayout ∧
    (∀ w ∈ [{ v with route := true }, { v with recs := true }, { v with ts := true }, { v with gps := true },
      { v with io := true }, { v with field := true }], w ≠ v) ∧
    (s.status.busy = false ∧ s.valid.recs = true ∧ s.recSel.toNat + 1 = s.recCnt.toNat ∧
      s.elemSel.toNat + 1 = (s.recAt s.recSel.toNat).ioN.toNat ∧
      (s.recAt s.recSel.toNat).elems[s.elemSel.toNat]? = some ⟨2, 1, 0x4A⟩) ∧
    (u.status.busy = false ∧ u.valid.io = true ∧ u.recSel = 0 ∧
      (u.recAt u.recSel.toNat).elems[u.elemSel.toNat]? = some ⟨2, 1, 0x4A⟩) := by decide

/-- The read ends at the end of the frame, or one byte beyond it. -/
theorem witness_ExtractorIsAllOrNothing : 2 + 8 ≤ bufferB.length ∧ bufferB.length < 3 + 8 := by decide

/-- F5 and F6, and the widths 0 and 9. -/
theorem witness_FieldOperation :
    let s := running 6 bufferB 2 8
    let u := running 6 bufferB 3 8
    (1 ≤ s.job.argW.toNat ∧ s.job.argW.toNat ≤ 8 ∧ s.job.argOff + s.job.argW.toNat = s.job.flen) ∧
    (1 ≤ u.job.argW.toNat ∧ u.job.argW.toNat ≤ 8 ∧ u.job.flen + 1 = u.job.argOff + u.job.argW.toNat) ∧
    ctrlOp 0b100000110 = 6 ∧ (loaded [] 0 0).argW.toNat < 1 ∧ 8 < (loaded [] 0 9).argW.toNat := by decide +kernel

theorem witness_FieldAndTimestampSeeSameBytes :
    let s := running 3 [0x7F, 1, 2, 3, 4, 5, 6, 7] 0 8
    s.job.argW = 8 ∧ (∃ t, exec (.field 0) s = .next t ∧ t.status.kind = .ok) ∧
    ∃ u, exec (.ts 0) s = .next u ∧ u.status.kind = .ok :=
  ⟨by decide +kernel, next_of_after (f := fun t : State => t.status.kind) (by decide +kernel),
    next_of_after (f := fun t : State => t.status.kind) (by decide +kernel)⟩

/-- T3, T4 under both policies, T6. -/
theorem witness_TimestampOperation :
    let s := running 3 [0x7F, 0xFF, 0xFF, 0xFF, 0xFF, 0xFF, 0xFF, 0xFF] 0
    let u := running 3 [0x80, 0, 0, 0, 0, 0, 0, 0] 0
    let v := running 3 [0, 0, 0, 0, 0, 0, 0] 0
    (s.job.argOff + 8 ≤ s.job.flen ∧ be (s.bytes s.job.argOff 8) + 1 = 2 ^ 63) ∧
    (u.job.argOff + 8 ≤ u.job.flen ∧ 2 ^ 63 = be (u.bytes u.job.argOff 8) ∧ u.params.tsBit63 = .malformed) ∧
    ({ u with params := { u.params with tsBit63 := .wrap } } : State).params.tsBit63 = .wrap ∧
    v.job.flen < v.job.argOff + 8 := by decide +kernel

theorem witness_GpsOperation :
    let s := running 4 (List.replicate 15 0) 0
    let u := running 4 (List.replicate 15 0) 1
    s.job.argOff + 15 = s.job.flen ∧ u.job.flen + 1 = u.job.argOff + 15 := by decide +kernel

/-- G5 and G6: `0xFF` and `0x00` at byte 13. -/
theorem witness_GpsIgnoresByte13 :
    let s := running 4 (List.replicate 15 0) 0
    (∀ a, a ≠ s.job.argOff + 13 → Memory.read [(13, 0xFF)] a = Memory.read s.fb a) ∧
    ∃ t, exec (.gps 0) s = .next t ∧ t.status.kind = .ok := by
  have hfb : (running 4 (List.replicate 15 0) 0).fb = [] := by decide +kernel
  refine ⟨fun a ha => ?_, next_of_after (f := fun t : State => t.status.kind) (by decide +kernel)⟩
  have h13 : 13 ≠ a := fun h => ha (by rw [← h]; decide +kernel)
  rw [hfb]
  exact if_neg h13

theorem witness_IopReadsWireSection :
    legalGroup 1 [(21, [3]), (1, [1])] ∧ legalGroup 2 [(66, [0x5E, 0x0F])] ∧ legalGroup 4 [(241, [0, 0, 0x60, 0x1A])] ∧
    legalGroup 8 [(78, [0, 0, 0, 0, 0, 0, 0, 0])] ∧ legalGroup 8 (List.replicate 255 (0, List.replicate 8 0)) :=
  ⟨⟨by decide, by decide⟩, ⟨by decide, by decide⟩, ⟨by decide, by decide⟩, ⟨by decide, by decide⟩,
    ⟨by decide +kernel, fun e he => by rw [(List.mem_replicate.mp he).2]; decide⟩⟩

theorem witness_UntruncatedSectionIsWhole : (iop [0x01, 0, 0, 0, 0] 0).tr = false := by decide

/-- Cuts of a section of 7 bytes, after 1, inside its element and before its last byte; the end of a frame; a cut and a
whole section. -/
theorem witness_TruncationKeepsDecodedElements :
    (∀ k ∈ [1, 3, 6], 0 < k ∧
      k < ((1 : Byte) :: (groupBytes [(2, [0x4A])] ++ groupBytes [] ++ groupBytes [] ++ groupBytes [])).length) ∧
    legalGroup 1 [(2, [0x4A])] ∧ legalGroup 2 [] ∧ legalGroup 4 [] ∧ legalGroup 8 [] ∧
    bufferB.length ≤ 10 ∧ bufferB.length ≤ 11 ∧
    0 < [(0x01 : Byte), 0x02, 0x02, 0x4A, 0x03].length ∧ (iop [0x01, 0x02, 0x02, 0x4A, 0x03] 0).tr = true ∧
    0 < [(0x01 : Byte), 0, 0, 0, 0].length ∧ (iop [0x01, 0, 0, 0, 0] 0).tr = false :=
  ⟨by decide, ⟨by decide, by decide⟩, ⟨by decide, by decide⟩, ⟨by decide, by decide⟩, ⟨by decide, by decide⟩,
    by decide, by decide, by decide, by decide, by decide, by decide⟩

/-- R144's third row and vector I3's cut: the items whole before the cut are those the document names. -/
theorem test_wholeItems :
    (wholeItems 4 (sectionItems [(2, [0x4A])] [] [] [])).filterMap SectionItem.elem = [⟨2, 1, 0x4A⟩] ∧
    ((wholeItems 4 (sectionItems [(2, [0x4A])] [] [] [])).map SectionItem.size).sum = 4 ∧
    (wholeItems 5 (sectionItems [(2, [0x4A]), (3, [0])] [] [] [])).filterMap SectionItem.elem = [⟨2, 1, 0x4A⟩] ∧
    ((wholeItems 5 (sectionItems [(2, [0x4A]), (3, [0])] [] [] [])).map SectionItem.size).sum = 4 := by decide

/-- Below the end, at it and beyond it. -/
theorem witness_IoSectionBounds : 0 ≤ bufferB.length ∧ bufferB.length ≤ 10 ∧ bufferB.length ≤ 12 := by decide

theorem witness_ElementValueRoundTrip :
    1 ∈ widthClasses ∧ 8 ∈ widthClasses ∧ [(0xFF : Byte)].length = 1 ∧ (List.replicate 8 (0xFF : Byte)).length = 8 := by
  decide

theorem witness_TotalDoesNotSteerParse : 9 < bufferB.length := by decide

/-- Q14's frame under REC. -/
def recQ14 : State := running 2 ([0x01] ++ recordHead ++ [0, 0, 0, 0, 0]) 0

/-- Q9's frame under FRAME, whose one record ends the frame. -/
def frameQ9 : State := running 0 (prefix8 ++ [0x01] ++ recordHead) 0

theorem witness_RecCompletes :
    recQ14.job.argOff < recQ14.job.flen ∧ ∃ rs fin, RecordsAt recQ14.params.tsBit63 recQ14.frame
      (Memory.read recQ14.fb recQ14.job.argOff).toNat (recQ14.job.argOff + 1) rs fin := by
  have hn : (Memory.read recQ14.fb recQ14.job.argOff).toNat = 1 := by decide +kernel
  rw [hn]
  exact ⟨by decide +kernel, _, _, .more (by decide +kernel) (.inl (by decide +kernel)) (.done _)⟩

/-- The first record fails, at each of its fields: no byte of the timestamp (Q4), bit 63 (Q10), no priority (Q6), 14
GPS bytes (Q8). -/
theorem witness_RecFailsAtFirstBadRecord :
    let s := running 2 [0x01] 0
    (s.job.argOff < s.job.flen ∧ 0 < (Memory.read s.fb s.job.argOff).toNat) ∧
    RecordsAt s.params.tsBit63 s.frame 0 (s.job.argOff + 1) [] 1 ∧
    recordFault .malformed [0x01] 1 = some (.truncatedRecord, 1) ∧
    recordFault .malformed ([0x01] ++ [0x80, 0, 0, 0, 0, 0, 0, 0]) 1 = some (.malformedField, 1) ∧
    recordFault .malformed ([0x01] ++ recordHead.take 8) 1 = some (.truncatedRecord, 9) ∧
    recordFault .malformed ([0x01] ++ recordHead.take 23) 1 = some (.truncatedRecord, 10) ∧
    recordFault .malformed ([0x01] ++ recordHead) 1 = none :=
  ⟨by decide +kernel, .done _, by decide +kernel, by decide +kernel, by decide +kernel, by decide +kernel,
    by decide +kernel⟩

/-- Q13 and Q1. -/
theorem witness_RecordCountAbsent :
    let s := running 2 [] 0
    let u := running 0 prefix8 0
    s.job.flen ≤ s.job.argOff ∧ u.job.flen = 9 ∧ u.bytes 0 4 = [0, 0, 0, 0] ∧ Memory.read u.fb 8 = 0x08 ∧
    lengthAccepted u.params (BitVec.ofNat 32 (be (u.bytes 4 4))) u.job.flen :=
  ⟨by decide +kernel, by decide +kernel, by decide +kernel, by decide +kernel,
    fun h => absurd h (by decide +kernel)⟩

/-- Q12. -/
theorem witness_RecOfZeroRecords :
    let s := running 2 [0x00] 0
    s.job.argOff < s.job.flen ∧ Memory.read s.fb s.job.argOff = 0 := by decide +kernel

theorem witness_TruncationOnlyInLastRecord :
    let s := running 2 ([0x02] ++ (recordHead ++ [0, 0, 0, 0, 0]) ++ recordHead) 0
    ∃ t, exec (.recOp 0) s = .next t ∧ (t.status.kind, t.recCnt, t.status.ioTrunc) = (.ok, 2, true) :=
  next_of_after (f := fun t : State => (t.status.kind, t.recCnt, t.status.ioTrunc)) (by decide +kernel)

/-- One record with an element of each of the first two widths, and a trailer. -/
theorem witness_WellFormedFrameDecodes :
    let w : WireRecord := ⟨recordHead.take 8, 2, recordHead.drop 9, 2, [(21, [3])], [(66, [0x5E, 0x0F])], [], []⟩
    let s := running 0 ([0, 0, 0, 0] ++ beBytes 4 53 ++ [0x08, 1] ++ w.bytes ++ [1, 0xC7, 0xCF]) 0
    w.Legal ∧ [w].length ≤ 255 ∧ lengthAccepted s.params 53 s.job.flen ∧
    s.frame = [0, 0, 0, 0] ++ beBytes 4 (53 : BitVec 32).toNat ++ [0x08, BitVec.ofNat 8 [w].length] ++
      [w].flatMap WireRecord.bytes ++ [1, 0xC7, 0xCF] :=
  ⟨⟨by decide, by decide +kernel, by decide, ⟨by decide, by decide⟩, ⟨by decide, by decide⟩, ⟨by decide, by decide⟩,
    ⟨by decide, by decide⟩⟩, by decide, fun h => absurd h (by decide +kernel), by decide +kernel⟩

theorem witness_FrameCompletes :
    10 ≤ frameQ9.job.flen ∧ frameQ9.bytes 0 4 = [0, 0, 0, 0] ∧ Memory.read frameQ9.fb 8 = 0x08 ∧
    lengthAccepted frameQ9.params (BitVec.ofNat 32 (be (frameQ9.bytes 4 4))) frameQ9.job.flen ∧
    ∃ rs fin, RecordsAt frameQ9.params.tsBit63 frameQ9.frame (Memory.read frameQ9.fb 9).toNat 10 rs fin := by
  have hn : (Memory.read frameQ9.fb 9).toNat = 1 := by decide +kernel
  rw [hn]
  exact ⟨by decide +kernel, by decide +kernel, by decide +kernel, fun h => absurd h (by decide +kernel), _, _,
    .more (by decide +kernel) (.inl (by decide +kernel)) (.done _)⟩

/-- Q15, with the first and the last id of the list. -/
theorem witness_FrameRefusesOtherCodecs :
    ∀ id ∈ [(0x8E : Byte), 0x10],
      let s := running 0 [0, 0, 0, 0, 0, 0, 0, 0x35, id] 0
      9 ≤ s.job.flen ∧ s.bytes 0 4 = [0, 0, 0, 0] ∧ Memory.read s.fb 8 = id ∧ s.params.strictLength = false := by
  decide +kernel

/-- P3b for the first clause, Q4 for the second. -/
theorem witness_FrameFailsAsRouteThenRec :
    let s := running 0 [0, 0, 0, 0, 0, 0, 0, 0x35, 0x07] 0
    let u := running 0 (prefix8 ++ [0x01]) 0
    (∃ t, exec (.route 0) s = .next t ∧ t.status.kind = .failed .unknownCodec) ∧
    (∃ t, exec (.route 0) u = .next t ∧ (t.status.kind, t.route.codecSel) = (.ok, .codec8)) ∧
    ∃ t, exec (.recOp 0) { u with job := { u.job with argOff := 9 } } = .next t ∧
      t.status.kind = .failed .truncatedRecord :=
  ⟨next_of_after (f := fun t : State => t.status.kind) (by decide +kernel),
    next_of_after (f := fun t : State => (t.status.kind, t.route.codecSel)) (by decide +kernel),
    next_of_after (f := fun t : State => t.status.kind) (by decide +kernel)⟩

theorem witness_RouteCompletes :
    ∀ p ∈ [((0x08 : Byte), Codec.codec8), (0x10, .codec16)],
      let s := running 1 [0, 0, 0, 0, 0, 0, 0, 0x35, p.1] 0
      s.job.flen = 9 ∧ s.bytes 0 4 = [0, 0, 0, 0] ∧ Memory.read s.fb 8 = p.1 ∧ s.params.strictLength = false := by
  decide +kernel

/-- Eight bytes, under each kind; H5; H8; H19's frame for the length check. -/
theorem witness_RouteFailsInOrder :
    let s := running 1 (List.replicate 8 0) 0
    let u := running 1 [0, 0, 0, 1, 0, 0, 0, 0x35, 0x08] 0
    let v := running 1 [0, 0, 0, 0, 0, 0, 0, 0x35, 0x07] 0
    let strict : State := { v with params := { v.params with strictLength := true } }
    (s.job.flen < 9 ∧ s.params.shortFrameKind = .preconditionError) ∧
    ({ s with params := { s.params with shortFrameKind := .invalidHeader } } : State).params.shortFrameKind =
      .invalidHeader ∧
    (9 ≤ u.job.flen ∧ u.bytes 0 4 ≠ [0, 0, 0, 0]) ∧
    (9 ≤ v.job.flen ∧ v.bytes 0 4 = [0, 0, 0, 0] ∧ v.params.strictLength = false ∧
      Memory.read v.fb 8 ∉ [(0x08 : Byte), 0x8E, 0x0C, 0x0D, 0x0E, 0x0F, 0x10]) ∧
    (9 ≤ strict.job.flen ∧ strict.bytes 0 4 = [0, 0, 0, 0] ∧ strict.params.strictLength = true) := by decide +kernel

theorem witness_CodecRowReportsCodec : ∀ r : BitVec 5, decodeCtrl (running 1 prefix8 0).job.word ≠ .ok (.frame r) := by
  decide +kernel

theorem witness_CodecRowWithoutLayoutRefused :
    decodeCtrl (running 0 prefix8 0).job.word = .ok (.frame 0) ∧
    Instr.codec16 53 ∈ [Instr.codec8Extended 53, .codec12 53, .codec13 53, .codec14 53, .codec15 53, .codec16 53] := by
  decide +kernel

theorem witness_Codec8RowDecodesRecords :
    decodeCtrl frameQ9.job.word = .ok (.frame 0) ∧ 10 ≤ frameQ9.job.flen ∧
    ∃ rs fin, RecordsAt frameQ9.params.tsBit63 frameQ9.frame (Memory.read frameQ9.fb 9).toNat 10 rs fin :=
  ⟨by decide +kernel, witness_FrameCompletes.1, witness_FrameCompletes.2.2.2.2⟩

theorem witness_EveryOperationFinishes :
    (∀ r, Instr.gps 0 = .field r → 1 ≤ (running 4 [] 0).job.argW.toNat ∧ (running 4 [] 0).job.argW.toNat ≤ 8) ∧
    1 ≤ (running 6 [] 0 8).job.argW.toNat ∧ (running 6 [] 0 8).job.argW.toNat ≤ 8 := by decide +kernel

theorem witness_FailureLeavesNoResult :
    (running 6 bufferB 3 8).status.kind = .none ∧
    ∃ t, exec (.field 0) (running 6 bufferB 3 8) = .next t ∧ t.status.kind = .failed .malformedField :=
  ⟨rfl, next_of_after (f := fun t : State => t.status.kind) (by decide +kernel)⟩

/-- The byte at `FLEN` itself. -/
theorem witness_BytesAboveLengthHaveNoEffect :
    let s := running 6 [] 0 1
    (∀ a, a < s.job.flen → Memory.read [(0, 0xFF)] a = Memory.read s.fb a) ∧ Memory.read [(0, 0xFF)] 0 ≠ Memory.read s.fb 0 ∧
    ∃ t, exec (.field 0) s = .next t ∧ t.status.kind = .failed .malformedField :=
  ⟨fun a h => absurd h (Nat.not_lt_zero a), by decide +kernel,
    next_of_after (f := fun t : State => t.status.kind) (by decide +kernel)⟩

/-- Two states that differ in what an earlier operation left. -/
theorem witness_OutcomeDependsOnInputsOnly :
    let s := running 4 (List.replicate 15 1) 0
    let s' : State := { s with recs := [{ Record.zero with ts := 5 }], endCur := 7, errOff := 3 }
    s'.params = s.params ∧ s'.job = s.job ∧ s'.frame = s.frame ∧ s'.recSel = s.recSel ∧ s'.elemSel = s.elemSel ∧
    (∀ r, Instr.gps 0 = .field r → 1 ≤ s.job.argW.toNat ∧ s.job.argW.toNat ≤ 8) ∧ s' ≠ s ∧
    (∃ t, exec (.gps 0) s = .next t ∧ t.status.kind = .ok) ∧ ∃ t', exec (.gps 0) s' = .next t' ∧ t'.status.kind = .ok :=
  ⟨rfl, rfl, rfl, rfl, rfl, by decide +kernel, by decide +kernel,
    next_of_after (f := fun t : State => t.status.kind) (by decide +kernel),
    next_of_after (f := fun t : State => t.status.kind) (by decide +kernel)⟩

/-- H17 against H16: only bytes 4 to 7 differ. -/
theorem witness_DeclaredLengthIsInformational :
    let s := running 1 prefix8 0
    s.params.strictLength = false ∧ (∀ a, a < 4 ∨ 8 ≤ a → Memory.read [(4, 0xFF), (8, 0x08)] a = Memory.read s.fb a) ∧
    ∃ t, exec (.route 0) s = .next t ∧ t.status.kind = .ok := by
  have hfb : (running 1 prefix8 0).fb = [(8, 0x08)] := by decide +kernel
  refine ⟨rfl, fun a ha => ?_, next_of_after (f := fun t : State => t.status.kind) (by decide +kernel)⟩
  have h4 : 4 ≠ a := by omega
  rw [hfb, Memory.read, if_neg h4]

theorem witness_ParametersAndBufferAreKept :
    let s : State := { State.reset with host := [.access (.writeFB 0 7)] }
    ∃ t, step s = .next t ∧ t.fb = [(0, 7)] :=
  next_of_after (f := fun t : State => t.fb) (by decide +kernel)

theorem witness_RouteFormsFrame :
    (∀ q, decodeCtrl (running 1 prefix8 0).job.word ≠ .ok (.frame q)) ∧
    (∃ t, exec (.route 0) (running 1 prefix8 0) = .next t ∧ t.status.kind = .ok) ∧
    (∃ t, exec (.route 0) (running 1 [] 0) = .next t ∧ t.status.kind = .failed .preconditionError) ∧
    ∃ t, exec (Codec.codec12.instr 5) (running 1 prefix8 0) = .next t ∧ t.status.kind = .ok :=
  ⟨by decide +kernel, next_of_after (f := fun t : State => t.status.kind) (by decide +kernel),
    next_of_after (f := fun t : State => t.status.kind) (by decide +kernel),
    next_of_after (f := fun t : State => t.status.kind) (by decide +kernel)⟩

theorem witness_RecordFormsFrame :
    decodeCtrl frameQ9.job.word = .ok (.frame 0) ∧
    (∃ t, exec (.recOp 0) recQ14 = .next t ∧ t.status.kind = .ok) ∧
    (∃ t, exec (.recOp 0) (running 2 [] 0) = .next t ∧ t.status.kind = .failed .malformedField) ∧
    (∃ t, exec (.frame 0) frameQ9 = .next t ∧ t.status.kind = .ok) ∧
    ∃ t, exec (Codec.codec8.instr 0) frameQ9 = .next t ∧ t.status.kind = .ok :=
  ⟨by decide +kernel, next_of_after (f := fun t : State => t.status.kind) (by decide +kernel),
    next_of_after (f := fun t : State => t.status.kind) (by decide +kernel),
    next_of_after (f := fun t : State => t.status.kind) (by decide +kernel),
    next_of_after (f := fun t : State => t.status.kind) (by decide +kernel)⟩

theorem witness_UnitOperationsFrame :
    (∃ t, exec (.ts 0) (running 3 (List.replicate 8 0) 0) = .next t ∧ t.status.kind = .ok) ∧
    (∃ t, exec (.gps 0) (running 4 (List.replicate 15 0) 0) = .next t ∧ t.status.kind = .ok) ∧
    (∃ t, exec (.ioe 0) (running 5 [] 0) = .next t ∧ t.status.kind = .ok) ∧
    ∃ t, exec (.field 0) (running 6 [0] 0 1) = .next t ∧ t.status.kind = .ok :=
  ⟨next_of_after (f := fun t : State => t.status.kind) (by decide +kernel),
    next_of_after (f := fun t : State => t.status.kind) (by decide +kernel),
    next_of_after (f := fun t : State => t.status.kind) (by decide +kernel),
    next_of_after (f := fun t : State => t.status.kind) (by decide +kernel)⟩

/-- A busy block with a frame in its buffer. -/
theorem witness_StepKeepsInvariant :
    (running 3 [0, 0, 0, 0, 0, 0, 0, 1] 0).Inv ∧
    ∃ t, step (running 3 [0, 0, 0, 0, 0, 0, 0, 1] 0) = .next t ∧ t.status.kind = .ok := by
  have hs : running 3 [0, 0, 0, 0, 0, 0, 0, 1] 0 = { State.reset with
      fb := [(7, 1)], flen := 8, job := ⟨0b100000011, 8, 0, 0⟩, status := ⟨.none, true, false, false, false⟩ } := by
    decide +kernel
  refine ⟨?_, next_of_after (f := fun t : State => t.status.kind) (by decide +kernel)⟩
  rw [hs]
  constructor <;> simp [State.reset, Memory.wf, Memory.wfFrom, Memory.unlisted, Valid.clear, State.fits, Params.default]
  exact ⟨rfl, ⟨.ts 0, by decide⟩, by decide, rfl⟩

end Sys2Proof.Tests
end

/-! PROOFS. What the host can read of an outcome is a function of the operation's inputs (R19, R38, R179): two runs
with the same inputs write the same values, and every register a set `VALID` bit shows was written by the run. -/

namespace Sys2Proof.Machine

/-! ## What two states must share for the host to read the same of them -/

/-- The inputs of an operation, R38, with the read pointers through which the host looks at its results. -/
structure State.SameInputs (s s' : State) : Prop where
  params : s'.params = s.params
  job : s'.job = s.job
  frame : s'.frame = s.frame
  recSel : s'.recSel = s.recSel
  elemSel : s'.elemSel = s.elemSel

/-- Two states agree in `STATUS`, `VALID` and the pointers, and in every result group that a set `VALID` bit shows. -/
structure State.SameReadable (t t' : State) : Prop where
  status : t'.status = t.status
  valid : t'.valid = t.valid
  recSel : t'.recSel = t.recSel
  elemSel : t'.elemSel = t.elemSel
  errOff : t'.errOffValue = t.errOffValue
  endCur : (t.valid.recs || t.valid.io || t.valid.field) = true → t'.endCur = t.endCur
  route : t.valid.route = true → t'.route = t.route
  records : t.valid.recs = true → t.KeepsRecords t'
  stamp : t.valid.ts = true → (t'.recAt 0).ts = (t.recAt 0).ts
  fix : t.valid.gps = true → ∃ (x : Fix) (r r' : Record), t.recAt 0 = r.withFix x ∧ t'.recAt 0 = r'.withFix x
  io : t.valid.io = true → ∃ (x : IoResult) (r r' : Record), t.recAt 0 = r.withIo x ∧ t'.recAt 0 = r'.withIo x
  ioConsumed : t.valid.io = true → t'.ioConsumed = t.ioConsumed
  field : t.valid.field = true → t'.fieldVal = t.fieldVal ∧ t'.fieldW = t.fieldW

namespace State.SameReadable

variable {t t' : State} (h : t.SameReadable t')
include h

theorem result_eq {v : Bool} {x x' : Nat} (hx : v = true → x' = x) : t'.result v x' = t.result v x := by
  cases v with
  | false => rfl
  | true => simp only [State.result, h.status, hx]

/-- The same entries of the record store hold a value. -/
theorem recHolds_eq (own : Bool) (k : Nat) : t'.recHolds own k = t.recHolds own k := by
  cases hr : t.valid.recs with
  | false => simp only [State.recHolds, h.status, h.valid, hr, Bool.false_and]
  | true => simp only [State.recHolds, h.status, h.valid, (h.records hr).recCnt]

/-- An entry that holds a value is one of the records produced, or `REC[0]` with the operation's own fields. -/
theorem recAt_eq {α : Type} {own : Bool} {k : Nat} {f : Record → α} (hk : t.recHolds own k = true)
    (hf : own = true → f (t'.recAt 0) = f (t.recAt 0)) : f (t'.recAt k) = f (t.recAt k) := by
  simp only [State.recHolds, Bool.and_eq_true, Bool.or_eq_true, beq_iff_eq] at hk
  obtain ⟨-, ⟨hr, -⟩ | ⟨ho, rfl⟩⟩ := hk
  · simp only [State.recAt, (h.records hr).recs]
  · exact hf ho

theorem recResult_eq {own : Bool} {f : Record → Nat} (hf : own = true → f (t'.recAt 0) = f (t.recAt 0)) :
    t'.recResult own f = t.recResult own f := by
  simp only [State.recResult, h.recSel, h.recHolds_eq]
  split
  · next hk => rw [h.recAt_eq hk hf]
  · rfl

theorem recResult_eq_of_fix {f : Record → Nat}
    (hf : ∀ (r r' : Record) (x : Fix), f (r'.withFix x) = f (r.withFix x)) :
    t'.recResult t.valid.gps f = t.recResult t.valid.gps f :=
  h.recResult_eq fun hg => by
    obtain ⟨x, r, r', hr, hr'⟩ := h.fix hg
    rw [hr, hr', hf r r']

theorem io_eq {α : Type} {f : Record → α}
    (hf : ∀ (r r' : Record) (x : IoResult), f (r'.withIo x) = f (r.withIo x)) (hi : t.valid.io = true) :
    f (t'.recAt 0) = f (t.recAt 0) := by
  obtain ⟨x, r, r', hr, hr'⟩ := h.io hi
  rw [hr, hr', hf r r']

theorem recResult_eq_of_io {f : Record → Nat}
    (hf : ∀ (r r' : Record) (x : IoResult), f (r'.withIo x) = f (r.withIo x)) :
    t'.recResult t.valid.io f = t.recResult t.valid.io f :=
  h.recResult_eq (h.io_eq hf)

theorem elemResult_eq (f : Elem → Nat) : t'.elemResult f = t.elemResult f := by
  simp only [State.elemResult, h.recSel, h.elemSel, h.valid, h.recHolds_eq]
  cases hk : t.recHolds t.valid.io t.recSel.toNat with
  | false => rfl
  | true =>
    rw [h.recAt_eq (f := (·.ioN)) hk (h.io_eq fun _ _ _ => rfl),
      h.recAt_eq (f := (·.elems)) hk (h.io_eq fun _ _ _ => rfl)]

/-- R42, R43: the host reads the same from every result register. -/
theorem readReg_eq {r : RegName} (hr : r.isResult = true) : readReg t' r = readReg t r := by
  cases r
  case ctrl | status | flen | argOff | argW | errOff | valid | recSel | elemSel => cases hr
  all_goals simp only [readReg, h.valid]
  case endCur => exact h.result_eq h.endCur
  case declLen | codec | payOff | payLen => exact h.result_eq fun hv => by rw [h.route hv]
  case recN => exact h.result_eq fun hv => by rw [(h.records hv).recN]
  case recCnt => exact h.result_eq fun hv => by rw [(h.records hv).recCnt]
  case ioConsumed => exact h.result_eq h.ioConsumed
  case field => exact h.result_eq fun hv => by rw [(h.field hv).1]
  case fieldW => exact h.result_eq fun hv => by rw [(h.field hv).2]
  case recTs => exact h.recResult_eq fun hv => by rw [h.stamp hv]
  case recPrio => exact h.recResult_eq nofun
  case recLat | recLon | recAlt | recAng | recSat | recSpd => exact h.recResult_eq_of_fix fun _ _ _ => rfl
  case recIoTotal | recIoN | recIoFlags => exact h.recResult_eq_of_io fun _ _ _ => rfl
  case elemIdW | elemVal => exact h.elemResult_eq _

end State.SameReadable

/-! ## Every finish with the same results leaves two such states -/

namespace State.SameInputs

variable {s s' : State} (h : s.SameInputs s')
include h

theorem fail (f : Failure) : (s.fail f).SameReadable (s'.fail f) := by
  constructor <;> simp [Valid.clear, State.errOffValue, h.recSel, h.elemSel]

theorem finishField (v : BitVec 64) (w : BitVec 4) (e : Nat) :
    ((s.setField v w e).finishOk { Valid.clear with field := true } false false e).SameReadable
      ((s'.setField v w e).finishOk { Valid.clear with field := true } false false e) := by
  constructor <;> simp [Valid.clear, State.errOffValue, h.recSel, h.elemSel]

theorem finishTs (x : BitVec 64) (e : Nat) :
    ((s.modifyRec0 fun r => { r with ts := x }).finishOk { Valid.clear with ts := true } false false e).SameReadable
      ((s'.modifyRec0 fun r => { r with ts := x }).finishOk { Valid.clear with ts := true } false false e) := by
  constructor <;> simp [Valid.clear, State.errOffValue, h.recSel, h.elemSel]

theorem finishGps (x : Fix) (e : Nat) :
    ((s.modifyRec0 fun r => r.withFix x).finishOk { Valid.clear with gps := true } false false e).SameReadable
      ((s'.modifyRec0 fun r => r.withFix x).finishOk { Valid.clear with gps := true } false false e) := by
  constructor
  case fix => exact fun _ => ⟨x, _, _, rfl, rfl⟩
  all_goals simp [Valid.clear, State.errOffValue, h.recSel, h.elemSel]

theorem finishIoe (x : IoResult) (e : Nat) :
    (((s.modifyRec0 fun r => r.withIo x).setConsumed x.consumed e).finishOk
      { Valid.clear with io := true } x.tr x.mm e).SameReadable
      (((s'.modifyRec0 fun r => r.withIo x).setConsumed x.consumed e).finishOk
        { Valid.clear with io := true } x.tr x.mm e) := by
  constructor
  case io => exact fun _ => ⟨x, _, _, rfl, rfl⟩
  all_goals simp [Valid.clear, State.errOffValue, h.recSel, h.elemSel]

theorem commit (q : RecResult) (b : Bool) (hr : b = true → s'.route = s.route) :
    (s.commit q { Valid.clear with route := b, recs := true }).SameReadable
      (s'.commit q { Valid.clear with route := b, recs := true }) := by
  constructor
  case route => exact hr
  case records => exact fun _ => ⟨rfl, rfl, rfl⟩
  all_goals simp [State.commit, Valid.clear, State.errOffValue, h.recSel, h.elemSel]

theorem setRoute_route (c : Codec) (l : BitVec 32) : (s'.setRoute c l).route = (s.setRoute c l).route := by
  simp only [State.setRoute, h.job]

theorem setRoute (c : Codec) (l : BitVec 32) : (s.setRoute c l).SameInputs (s'.setRoute c l) :=
  ⟨h.params, h.job, h.frame, h.recSel, h.elemSel⟩

theorem routeCodec (c : Codec) (l : BitVec 32) : (s.routeCodec c l).SameReadable (s'.routeCodec c l) := by
  constructor
  case route => exact fun _ => h.setRoute_route c l
  all_goals simp [State.routeCodec, Valid.clear, State.errOffValue, h.recSel, h.elemSel]

theorem frameCodec (c : Codec) (l : BitVec 32) : (s.frameCodec c l).SameReadable (s'.frameCodec c l) := by
  simp only [State.frameCodec, h.params, h.frame]
  cases codecLayout c with
  | none => exact h.fail _
  | some lay =>
    dsimp only
    cases decodeRecords lay s.params.tsBit63 s.frame 9 with
    | error f => exact h.fail f
    | ok q => exact (h.setRoute c l).commit q true fun _ => h.setRoute_route c l

theorem selectCodec (c : Codec) (l : BitVec 32) : (s.selectCodec c l).SameReadable (s'.selectCodec c l) := by
  have hf : s'.framing = s.framing := by simp only [State.framing, h.job]
  simp only [State.selectCodec, hf]
  cases s.framing with
  | true => exact h.frameCodec c l
  | false => exact h.routeCodec c l

end State.SameInputs

/-! ## Every operation takes its finish and its results from the inputs alone -/

/-- From the same inputs an operation answers twice, and the host reads the same of both answers. The width premise
shuts out the FIELD that R90 never lets start. -/
theorem exec_sameReadable {i : Instr} {s s' : State} (h : s.SameInputs s')
    (hw : ∀ r, i = .field r → legalWidth s.job.argW = true) :
    ∃ t t', exec i s = .next t ∧ exec i s' = .next t' ∧ t.SameReadable t' := by
  cases i with
  | codec8 l => exact ⟨_, _, rfl, rfl, h.selectCodec .codec8 l⟩
  | codec8Extended l => exact ⟨_, _, rfl, rfl, h.selectCodec .codec8Extended l⟩
  | codec12 l => exact ⟨_, _, rfl, rfl, h.selectCodec .codec12 l⟩
  | codec13 l => exact ⟨_, _, rfl, rfl, h.selectCodec .codec13 l⟩
  | codec14 l => exact ⟨_, _, rfl, rfl, h.selectCodec .codec14 l⟩
  | codec15 l => exact ⟨_, _, rfl, rfl, h.selectCodec .codec15 l⟩
  | codec16 l => exact ⟨_, _, rfl, rfl, h.selectCodec .codec16 l⟩
  | frame r =>
    simp only [exec, execFrame, h.params, h.frame]
    rcases hv s.params s.frame with f | ⟨c, l⟩
    · exact ⟨_, _, rfl, rfl, h.fail f⟩
    · exact ⟨_, _, rfl, rfl, h.frameCodec c l⟩
  | route r =>
    simp only [exec, execRoute, h.params, h.frame]
    rcases hv s.params s.frame with f | ⟨c, l⟩
    · exact ⟨_, _, rfl, rfl, h.fail f⟩
    · exact ⟨_, _, rfl, rfl, h.routeCodec c l⟩
  | recOp r =>
    simp only [exec, execRec, h.params, h.frame, h.job]
    rcases decodeRecords .codec8 s.params.tsBit63 s.frame s.job.argOff with f | q
    · exact ⟨_, _, rfl, rfl, h.fail f⟩
    · exact ⟨_, _, rfl, rfl, h.commit q false nofun⟩
  | ts r =>
    simp only [exec, execTs, h.params, h.frame, h.job]
    rcases fx s.frame s.job.argOff 8 with - | b
    · exact ⟨_, _, rfl, rfl, h.fail _⟩
    · dsimp only
      rcases tsd s.params.tsBit63 b with - | x
      · exact ⟨_, _, rfl, rfl, h.fail _⟩
      · exact ⟨_, _, rfl, rfl, h.finishTs x _⟩
  | gps r =>
    simp only [exec, execGps, h.frame, h.job]
    rcases fx s.frame s.job.argOff 15 with - | b
    · exact ⟨_, _, rfl, rfl, h.fail _⟩
    · exact ⟨_, _, rfl, rfl, h.finishGps (gpd b) _⟩
  | ioe r =>
    simp only [exec, execIoe, h.frame, h.job]
    exact ⟨_, _, rfl, rfl, h.finishIoe _ _⟩
  | field r =>
    simp only [exec, execField, h.frame, h.job, hw r rfl, if_true]
    rcases fx s.frame s.job.argOff s.job.argW.toNat with - | b
    · exact ⟨_, _, rfl, rfl, h.fail _⟩
    · exact ⟨_, _, rfl, rfl, h.finishField _ _ _⟩

/-- Settles O52: both runs end as `exec_sameReadable` says, in states of which the host reads the same. -/
theorem outcomeDependsOnInputsOnly : Obligations.OutcomeDependsOnInputsOnly := by
  intro i s s' t t' hparams hjob hframe hrecSel helemSel hwidth hs hs'
  have hw : ∀ r, i = .field r → legalWidth s.job.argW = true := fun r hr => by simpa [legalWidth] using hwidth r hr
  obtain ⟨u, u', hu, hu', h⟩ := exec_sameReadable ⟨hparams, hjob, hframe, hrecSel, helemSel⟩ hw
  cases hs.symm.trans hu
  cases hs'.symm.trans hu'
  exact ⟨h.status, h.valid, h.errOff, fun _ hr => h.readReg_eq hr⟩

end Sys2Proof.Machine

/-! PROOFS. The state of the machine (10_state.md): every step keeps the invariant, from every state that meets it. -/

namespace Sys2Proof

/-! ## The fields of a CTRL word -/

theorem ctrlStart_ofNat (v : Nat) : ctrlStart (BitVec.ofNat 9 v) = true ↔ v / 256 % 2 = 1 := by
  rw [ctrlStart, BitVec.getLsbD_ofNat, Nat.testBit_eq_decide_div_mod_eq]
  simp

theorem ctrlOp_ofNat_toNat (v : Nat) : (ctrlOp (BitVec.ofNat 9 v)).toNat = v % 8 := by
  simp only [ctrlOp, BitVec.extractLsb'_toNat, BitVec.toNat_ofNat, Nat.shiftRight_zero]
  omega

/-- The operation code of a written value is its number modulo 8. -/
theorem ctrlOp_ofNat_eq_iff {v : Nat} {op : BitVec 3} : ctrlOp (BitVec.ofNat 9 v) = op ↔ v % 8 = op.toNat := by
  rw [← BitVec.toNat_inj, ctrlOp_ofNat_toNat]

theorem encodeCtrl_ctrlOp_ctrlReserved {w : BitVec 9} (h : ctrlStart w = true) :
    encodeCtrl (ctrlOp w) (ctrlReserved w) = w := by
  revert w
  decide

/-- A CTRL word that starts an operation is the code of that operation: no bit of it is dropped. -/
theorem encode_of_decodeCtrl {w : BitVec 9} {i : Instr} (h : decodeCtrl w = .ok i) : encode i = .ctrlWord w := by
  unfold decodeCtrl at h
  split at h
  · next hs =>
    have hw := encodeCtrl_ctrlOp_ctrlReserved hs
    generalize ctrlOp w = op, ctrlReserved w = r at h hw
    subst hw
    split at h <;> cases h
    all_goals
      next hop => exact congrArg (fun o => Code.ctrlWord (encodeCtrl o r)) (BitVec.eq_of_toNat_eq hop.symm)
  · cases h

theorem ctrlOp_encodeCtrl (op : BitVec 3) (r : BitVec 5) : ctrlOp (encodeCtrl op r) = op := by
  revert op r
  decide

end Sys2Proof

namespace Sys2Proof.Machine

theorem decodeCtrl_ne_codec {w : BitVec 9} (c : Codec) (l : BitVec 32) : decodeCtrl w ≠ .ok (c.instr l) := by
  intro h
  have := encode_of_decodeCtrl h
  cases c <;> cases this

theorem ctrlOp_of_decodeCtrl_field {w : BitVec 9} {r : BitVec 5} (h : decodeCtrl w = .ok (.field r)) :
    ctrlOp w = 6 := by
  rw [← Code.ctrlWord.inj (encode_of_decodeCtrl h), ctrlOp_encodeCtrl]

/-! ## The bytes of a frame give values in their ranges -/

theorem gpd_fixOk {b : List Byte} (r : Record) (h : b.length = 15) : (r.withFix (gpd b)).FixOk := by
  have range := fun lo hi (h1 : hi ≤ b.length) (h2 : hi - lo ≤ 8) => zext64_be_slice (fr := b) (lo := lo) h1 h2
  rw [h] at range
  exact ⟨range 0 4 (by omega) (by omega), range 4 8 (by omega) (by omega), range 8 10 (by omega) (by omega),
    range 10 12 (by omega) (by omega), range 12 13 (by omega) (by omega), range 14 15 (by omega) (by omega)⟩

theorem stampOk_of_timestampFits {policy : TsBit63Policy} {b : List Byte} {r : Record} (h : b.length = 8)
    (hf : timestampFits policy b) (hr : r.ts = zext64 (be b)) : r.StampOk policy := by
  rintro rfl
  rw [hr, zext64_be_toNat h.le]
  simpa [timestampFits] using hf

/-- R145, R29: the cursor after an IO section stands inside the frame, or has not moved. -/
theorem iop_cursor_le (fr : List Byte) (off : Nat) : off + (iop fr off).consumed ≤ max fr.length off := by
  rcases Nat.le_total off fr.length with h | h
  · exact ((iop_of fr off).inside h).trans (le_max_left ..)
  · rw [(iop_of fr off).absent h]
    exact le_max_right ..

theorem rsq_error_cursor_le {policy : TsBit63Policy} {fr : List Byte} {off : Nat} {f : Failure}
    (h : rsq policy fr off = .error f) : f.cur ≤ max fr.length off := by
  obtain ⟨hcur, hoff, -⟩ := rsq_error h
  omega

/-- R36: no bit of a FIELD value stands above its width. -/
theorem zext64_be_bytes_lt (s : State) (a : Nat) {w : BitVec 4} (hw : legalWidth w = true) :
    (zext64 (be (s.bytes a w.toNat))).toNat < 256 ^ w.toNat := by
  have hlen := s.bytes_length a w.toNat
  have h8 : (s.bytes a w.toNat).length ≤ 8 := by simp_all [legalWidth]
  rw [zext64_be_toNat h8]
  simpa only [hlen] using be_lt (s.bytes a w.toNat)

/-! ## Every finish keeps the invariant -/

namespace State.Inv

variable {s : State} (h : s.Inv)
include h

/-- R178. -/
theorem fail {f : Failure} (hf : f.cur ≤ max s.job.flen s.job.argOff) : (s.fail f).Inv := by
  constructor
  case canonical => exact h.canonical
  case capacity => exact h.capacity
  case cursor => exact hf
  all_goals simp [Valid.clear]

theorem finishField {v : BitVec 64} {w : BitVec 4} {e : Nat} (hw : legalWidth w = true)
    (hv : v.toNat < 256 ^ w.toNat) (he : e ≤ max s.job.flen s.job.argOff) :
    ((s.setField v w e).finishOk { Valid.clear with field := true } false false e).Inv := by
  constructor
  case canonical => exact h.canonical
  case capacity => exact h.capacity
  case field => exact fun _ => ⟨hw, hv⟩
  case cursor => exact he
  all_goals simp [Valid.clear]

theorem finishTs {f : Record → Record} {e : Nat} (hr : (f (s.recAt 0)).StampOk s.params.tsBit63)
    (he : e ≤ max s.job.flen s.job.argOff) :
    ((s.modifyRec0 f).finishOk { Valid.clear with ts := true } false false e).Inv := by
  constructor
  case canonical => exact h.canonical
  case capacity => exact h.capacity
  case stamp => exact fun _ => hr
  case cursor => exact he
  all_goals simp [Valid.clear]

theorem finishGps {f : Record → Record} {e : Nat} (hr : (f (s.recAt 0)).FixOk)
    (he : e ≤ max s.job.flen s.job.argOff) :
    ((s.modifyRec0 f).finishOk { Valid.clear with gps := true } false false e).Inv := by
  constructor
  case canonical => exact h.canonical
  case capacity => exact h.capacity
  case fix => exact fun _ => hr
  case cursor => exact he
  all_goals simp [Valid.clear]

theorem finishIoe {f : Record → Record} {n e : Nat} (hr : (f (s.recAt 0)).IoOk)
    (he : e ≤ max s.job.flen s.job.argOff) :
    (((s.modifyRec0 f).setConsumed n e).finishOk { Valid.clear with io := true } (f (s.recAt 0)).ioTr
      (f (s.recAt 0)).ioMm e).Inv := by
  constructor
  case canonical => exact h.canonical
  case capacity => exact h.capacity
  case io => exact fun _ => ⟨hr, rfl, rfl⟩
  case cursor => exact he
  all_goals simp [Valid.clear]

theorem routeCodec {c : Codec} {l : BitVec 32} (h9 : 9 ≤ s.job.flen) : (s.routeCodec c l).Inv := by
  constructor
  case canonical => exact h.canonical
  case capacity => exact h.capacity
  case route => exact fun _ => ⟨rfl, rfl⟩
  case cursor => exact h9.trans (le_max_left ..)
  all_goals simp [State.routeCodec, Valid.clear]

/-- R151 `commit`, after REC (`route` clear) and after FRAME (`route` set). -/
theorem commit {q : RecResult} {off : Nat} {route : Bool} (hq : q.Of s.params.tsBit63 s.frame off)
    (hr : route = true → s.route.payOff = 9 ∧ s.route.codecId = s.route.codecSel.id) :
    (s.commit q { Valid.clear with route := route, recs := true }).Inv := by
  obtain ⟨⟨-, hfin⟩, hcount, hrecords⟩ := hq
  have hcnt : (BitVec.ofNat 9 q.recs.length).toNat = q.recs.length := by
    have := q.n.isLt
    rw [BitVec.toNat_ofNat]
    omega
  constructor
  case canonical => exact h.canonical
  case capacity => exact h.capacity
  case shape => cases route <;> simp [State.commit, Valid.clear]
  case route => exact hr
  case counts => exact fun _ => ⟨hcnt, hcnt.trans hcount⟩
  case records => exact fun _ => hrecords
  case summaries => exact fun _ => ⟨rfl, rfl⟩
  case cursor => exact (s.frame_length ▸ hfin).trans (le_max_left ..)
  all_goals simp [State.commit, Valid.clear]

theorem setRoute (c : Codec) (l : BitVec 32) : (s.setRoute c l).Inv :=
  { h with
    busy := fun hb => { h.busy hb with }
    route := fun _ => ⟨rfl, rfl⟩ }

/-- R160, R161: what FRAME does with the codec it selected. -/
theorem frameCodec {c : Codec} {l : BitVec 32} (h9 : 9 ≤ s.job.flen) : (s.frameCodec c l).Inv := by
  have h9' : 9 ≤ max s.job.flen s.job.argOff := h9.trans (le_max_left ..)
  rcases s.frameCodec_cases c l with ⟨-, ht⟩ | ⟨f, -, hf, ht⟩ | ⟨q, -, hq, ht⟩ <;> rw [ht]
  · exact h.fail h9'
  · exact h.fail ((rsq_error_cursor_le hf).trans (by rw [s.frame_length]; omega))
  · exact (h.setRoute c l).commit (rsq_of hq) fun _ => ⟨rfl, rfl⟩

/-- R41, R178: the operation that a busy block latched ends in a state that meets the invariant. -/
theorem exec {i : Instr} {t : State} (hb : s.status.busy = true) (hd : decodeCtrl s.job.word = .ok i)
    (ht : Machine.exec i s = .next t) : t.Inv := by
  have hstay : s.job.argOff ≤ max s.job.flen s.job.argOff := le_max_right ..
  have hin : ∀ {n}, n ≤ s.job.flen → n ≤ max s.job.flen s.job.argOff := fun hn => hn.trans (le_max_left ..)
  cases i with
  | codec8 l => exact absurd hd (decodeCtrl_ne_codec .codec8 l)
  | codec8Extended l => exact absurd hd (decodeCtrl_ne_codec .codec8Extended l)
  | codec12 l => exact absurd hd (decodeCtrl_ne_codec .codec12 l)
  | codec13 l => exact absurd hd (decodeCtrl_ne_codec .codec13 l)
  | codec14 l => exact absurd hd (decodeCtrl_ne_codec .codec14 l)
  | codec15 l => exact absurd hd (decodeCtrl_ne_codec .codec15 l)
  | codec16 l => exact absurd hd (decodeCtrl_ne_codec .codec16 l)
  | frame r =>
    rcases execFrame_cases r s with ⟨f, hf, hx⟩ | ⟨c, l, hv, hx⟩ <;> cases hx.symm.trans ht
    · exact h.fail (hin (s.frame_length ▸ (hv_error hf).1))
    · exact h.frameCodec (s.frame_length ▸ (hv_ok_iff.mp hv).1)
  | route r =>
    rcases execRoute_cases r s with ⟨f, hf, hx⟩ | ⟨c, l, hv, hx⟩ <;> cases hx.symm.trans ht
    · exact h.fail (hin (s.frame_length ▸ (hv_error hf).1))
    · exact h.routeCodec (s.frame_length ▸ (hv_ok_iff.mp hv).1)
  | recOp r =>
    rcases execRec_cases r s with ⟨f, hf, hx⟩ | ⟨q, hq, hx⟩ <;> cases hx.symm.trans ht
    · exact h.fail (s.frame_length ▸ rsq_error_cursor_le hf)
    · exact h.commit (route := false) (rsq_of hq) nofun
  | ts r =>
    rcases execTs_cases r s with ⟨-, hx⟩ | ⟨hroom, hf, hx⟩ <;> cases hx.symm.trans ht
    · exact h.fail hstay
    · exact h.finishTs (stampOk_of_timestampFits (s.bytes_length _ 8) hf rfl) (hin hroom)
  | gps r =>
    rcases execGps_cases r s with ⟨-, hx⟩ | ⟨hroom, hx⟩ <;> cases hx.symm.trans ht
    · exact h.fail hstay
    · exact h.finishGps (gpd_fixOk _ (s.bytes_length _ 15)) (hin hroom)
  | ioe r =>
    cases ht
    exact h.finishIoe (Record.withIo_ioOk _) (s.frame_length ▸ iop_cursor_le s.frame s.job.argOff)
  | field r =>
    rcases execField_cases r s with ⟨hw, -⟩ | ⟨-, -, hx⟩ | ⟨hw, hroom, hx⟩
    · cases hw.symm.trans ((h.busy hb).width (ctrlOp_of_decodeCtrl_field hd))
    · cases hx.symm.trans ht
      exact h.fail hstay
    · cases hx.symm.trans ht
      exact h.finishField hw (zext64_be_bytes_lt s s.job.argOff hw) (hin hroom)

/-! ## Every access of the host keeps the invariant -/

/-- R197: the inputs and the pointers that the host may write at any time, and the model's own fields for the host,
bear on no clause of the invariant. -/
theorem withInputs (flen argOff : Nat) (argW : BitVec 4) (recSel : BitVec 8) (elemSel : BitVec 10)
    (host : List Move) (rdata : Option Nat) :
    State.Inv { s with
      flen := flen, argOff := argOff, argW := argW, recSel := recSel, elemSel := elemSel, host := host
      rdata := rdata } :=
  { h with busy := fun hb => { h.busy hb with } }

theorem withHost (rest : List Move) : State.Inv { s with host := rest } :=
  h.withInputs s.flen s.argOff s.argW s.recSel s.elemSel rest s.rdata

/-- R40, R29. -/
theorem startOp {w : BitVec 9} (hw : startVerdict s w = .accepted) : (s.startOp w).Inv := by
  obtain ⟨hstart, -, h7, hwidth, hroom⟩ := (startVerdict_accepted_iff s w).mp hw
  constructor
  case canonical => exact h.canonical
  case capacity => exact h.capacity
  case busy => exact fun _ => ⟨rfl, decodeCtrl_of_accepted hstart h7, hwidth, hroom⟩
  case cursor =>
    simp only [State.startOp_cur, State.startOp_job, startCursor]
    split <;> omega
  all_goals simp [Valid.clear]

theorem refuseStart {y : RefusedStart} (hb : s.status.busy = false) : (s.refuseStart y).Inv :=
  { h with
    busy := fun hbusy => { h.busy hbusy with }
    mark := fun _ => hb }

theorem writeBuffer {off : Nat} {b : Byte} (hroom : s.fits (off + 1) = true) :
    State.Inv { s with fb := Memory.write s.fb off b } :=
  { h with
    canonical := Memory.wf_write s.fb off b h.canonical
    capacity := fun c hc => by
      rcases Memory.mem_write hc with hc | hc
      · exact h.capacity c hc
      · exact hc ▸ hroom
    busy := fun hbusy => { h.busy hbusy with } }

/-- R44, R190: nothing is asked of what reset leaves unspecified but the buffer's canonical form and its size. -/
theorem resetBlock : s.resetBlock.Inv := by
  constructor
  case canonical => exact h.canonical
  case capacity => exact h.capacity
  all_goals simp [State.reset, Valid.clear]

theorem accessed {t : State} (ht : Accessed s t) : t.Inv := by
  cases ht with
  | same => exact h
  | started w hw => exact h.startOp hw
  | refused y hb => exact h.refuseStart hb
  | flen v => exact h.withInputs v s.argOff s.argW s.recSel s.elemSel s.host s.rdata
  | argOff v => exact h.withInputs s.flen v s.argW s.recSel s.elemSel s.host s.rdata
  | argW v => exact h.withInputs s.flen s.argOff v s.recSel s.elemSel s.host s.rdata
  | recSel v => exact h.withInputs s.flen s.argOff s.argW v s.elemSel s.host s.rdata
  | elemSel v => exact h.withInputs s.flen s.argOff s.argW s.recSel v s.host s.rdata
  | read x => exact h.withInputs s.flen s.argOff s.argW s.recSel s.elemSel s.host x
  | buffer off b _ hroom => exact h.writeBuffer hroom
  | reset => exact h.resetBlock

theorem blockStep {t : State} (ht : Machine.blockStep s = .next t) : t.Inv := by
  rcases blockStep_cases ht with ⟨-, rfl⟩ | ⟨hb, i, hd, hx⟩
  · exact h
  · exact h.exec hb hd hx

theorem step {t : State} (ht : Machine.step s = .next t) : t.Inv := by
  rcases step_cases ht with ⟨-, hx⟩ | ⟨rest, -, hx⟩ | ⟨a, rest, -, hx⟩
  · exact h.blockStep hx
  · exact (h.withHost rest).blockStep hx
  · exact (h.withHost rest).accessed (hostStep_accessed hx)

end State.Inv

/-- Settles O58: each way of `step_cases` keeps the invariant. -/
theorem stepKeepsInvariant : Obligations.StepKeepsInvariant :=
  fun _ _ hs ht => hs.step ht

/-- Settles O59: a block reset over an empty buffer. -/
theorem resetMeetsInvariant : Obligations.ResetMeetsInvariant := by
  constructor <;> simp [State.reset, Valid.clear, Memory.wf, Memory.wfFrom]

end Sys2Proof.Machine

/-! PROOFS. The registers of the machine (10_state.md): the start, the buffer port, the parameters, reset, and what the
host reads. -/

namespace Sys2Proof.Machine

/-! ## A step by its next move -/

theorem step_of_nil {s : State} (h : s.host = []) : step s = blockStep s := by
  rw [step, h]

theorem step_of_wait {s : State} {rest : List Move} (h : s.host = .wait :: rest) :
    step s = blockStep { s with host := rest } := by
  rw [step, h]

theorem step_of_access {s : State} {a : Access} {rest : List Move} (h : s.host = .access a :: rest) :
    step s = hostStep a { s with host := rest } := by
  rw [step, h]

theorem blockStep_busy {s : State} {i : Instr} (hb : s.status.busy = true) (hd : decodeCtrl s.job.word = .ok i) :
    blockStep s = exec i s := by
  simp only [blockStep, fetch, hb, hd, if_true]

/-- Settles O5: the block moves, and `fetch` gives the latched operation. -/
theorem stepRunsLatchedOperation : Obligations.StepRunsLatchedOperation :=
  fun _ _ hb hd => ⟨fun hh => (step_of_nil hh).trans (blockStep_busy hb hd),
    fun _ hh => (step_of_wait hh).trans (blockStep_busy hb hd)⟩

/-! ## What no operation changes -/

theorem ending_of_exec {i : Instr} {s t : State} (h : exec i s = .next t) : Ending i s t := by
  obtain ⟨u, hu, he⟩ := exec_ending i s
  cases hu.symm.trans h
  exact he

theorem exec_params {i : Instr} {s t : State} (h : exec i s = .next t) : t.params = s.params := by
  cases ending_of_exec h <;> rfl

theorem exec_fb {i : Instr} {s t : State} (h : exec i s = .next t) : t.fb = s.fb := by
  cases ending_of_exec h <;> rfl

/-! ## The start -/

theorem fits_eq_true_iff {s : State} {n : Nat} : s.fits n = true ↔ ∀ m, s.params.frameMax = some m → n ≤ m := by
  unfold State.fits
  cases s.params.frameMax <;> simp

theorem legalWidth_eq_true_iff {w : BitVec 4} : legalWidth w = true ↔ 1 ≤ w.toNat ∧ w.toNat ≤ 8 := by
  simp [legalWidth]

theorem startVerdict_ofNat_accepted_iff (s : State) (v : Nat) : startVerdict s (BitVec.ofNat 9 v) = .accepted ↔
    v / 256 % 2 = 1 ∧ s.status.busy = false ∧ v % 8 ≠ 7 ∧ (v % 8 = 6 → 1 ≤ s.argW.toNat ∧ s.argW.toNat ≤ 8) ∧
      ∀ m, s.params.frameMax = some m → s.flen ≤ m := by
  rw [startVerdict_accepted_iff, ctrlStart_ofNat, ne_eq, ctrlOp_ofNat_eq_iff, ctrlOp_ofNat_eq_iff,
    legalWidth_eq_true_iff, fits_eq_true_iff]
  rfl

theorem startCursor_ofNat (v off : Nat) : startCursor (BitVec.ofNat 9 v) off = if v % 8 ≤ 1 then 0 else off := by
  simp only [startCursor, ctrlOp_ofNat_eq_iff]
  exact if_congr (by simp; omega) rfl rfl

theorem writeCtrl_accepted {s : State} {w : BitVec 9} (h : startVerdict s w = .accepted) :
    writeCtrl w s = .next (s.startOp w) := by
  rw [writeCtrl, h]

/-- R45, R197: the state with the buffer and the inputs at other values, which the host may give them. -/
def State.rewritten (s : State) (fb : List Host.Cell) (flen argOff : Nat) (argW : BitVec 4) : State :=
  { s with fb := fb, flen := flen, argOff := argOff, argW := argW }

section
variable {s : State} {fb : List Host.Cell} (flen argOff : Nat) (argW : BitVec 4)
  (hf : (s.rewritten fb flen argOff argW).frame = s.frame)
include hf

theorem frameCodec_rewritten (c : Codec) (l : BitVec 32) :
    (s.rewritten fb flen argOff argW).frameCodec c l = (s.frameCodec c l).rewritten fb flen argOff argW := by
  have hp : (s.rewritten fb flen argOff argW).params = s.params := rfl
  simp only [State.frameCodec, hp, hf]
  cases codecLayout c with
  | none => rfl
  | some lay => dsimp only; cases decodeRecords lay s.params.tsBit63 s.frame 9 <;> rfl

theorem selectCodec_rewritten (c : Codec) (l : BitVec 32) :
    (s.rewritten fb flen argOff argW).selectCodec c l = (s.selectCodec c l).rewritten fb flen argOff argW := by
  have hg : (s.rewritten fb flen argOff argW).framing = s.framing := rfl
  simp only [State.selectCodec, hg, frameCodec_rewritten flen argOff argW hf]
  cases s.framing <;> rfl

/-- R40, R51: an operation reads the latched arguments and the frame; whatever else the buffer and the inputs hold, it
ends as it would have. -/
theorem exec_rewritten (i : Instr) :
    ∃ t, exec i s = .next t ∧
      exec i (s.rewritten fb flen argOff argW) = .next (t.rewritten fb flen argOff argW) := by
  have hp : (s.rewritten fb flen argOff argW).params = s.params := rfl
  have hj : (s.rewritten fb flen argOff argW).job = s.job := rfl
  have codecRow : ∀ (c : Codec) (l : BitVec 32), ∃ t, exec (c.instr l) s = .next t ∧
      exec (c.instr l) (s.rewritten fb flen argOff argW) = .next (t.rewritten fb flen argOff argW) := fun c l =>
    ⟨_, exec_codec c l s, by rw [exec_codec, selectCodec_rewritten flen argOff argW hf]⟩
  cases i with
  | codec8 l => exact codecRow .codec8 l
  | codec8Extended l => exact codecRow .codec8Extended l
  | codec12 l => exact codecRow .codec12 l
  | codec13 l => exact codecRow .codec13 l
  | codec14 l => exact codecRow .codec14 l
  | codec15 l => exact codecRow .codec15 l
  | codec16 l => exact codecRow .codec16 l
  | frame r =>
    simp only [exec, execFrame, hp, hf, frameCodec_rewritten flen argOff argW hf]
    rcases hv s.params s.frame with f | ⟨c, l⟩ <;> exact ⟨_, rfl, rfl⟩
  | route r =>
    simp only [exec, execRoute, hp, hf]
    rcases hv s.params s.frame with f | ⟨c, l⟩ <;> exact ⟨_, rfl, rfl⟩
  | recOp r =>
    simp only [exec, execRec, hp, hj, hf]
    rcases decodeRecords .codec8 s.params.tsBit63 s.frame s.job.argOff with f | q <;> exact ⟨_, rfl, rfl⟩
  | ts r =>
    simp only [exec, execTs, hp, hj, hf]
    rcases fx s.frame s.job.argOff 8 with - | b
    · exact ⟨_, rfl, rfl⟩
    · dsimp only
      rcases tsd s.params.tsBit63 b with - | x <;> exact ⟨_, rfl, rfl⟩
  | gps r =>
    simp only [exec, execGps, hj, hf]
    rcases fx s.frame s.job.argOff 15 with - | b <;> exact ⟨_, rfl, rfl⟩
  | ioe r =>
    simp only [exec, execIoe, hj, hf]
    exact ⟨_, rfl, rfl⟩
  | field r =>
    simp only [exec, execField, hj, hf]
    cases legalWidth s.job.argW with
    | false => exact ⟨_, rfl, rfl⟩
    | true => rcases fx s.frame s.job.argOff s.job.argW.toNat with - | b <;> exact ⟨_, rfl, rfl⟩

end

/-- Settles O9: the write is an accepted start, and the operation that runs reads the latched arguments alone. -/
theorem acceptedStartLatches : Obligations.AcceptedStartLatches := by
  constructor
  · intro s v rest hh hstart hb h7 h6 hfits
    have hv : startVerdict { s with host := rest } (BitVec.ofNat 9 v) = .accepted :=
      (startVerdict_ofNat_accepted_iff _ v).mpr ⟨hstart, hb, h7, h6, hfits⟩
    rw [step_of_access hh, ← startCursor_ofNat]
    exact writeCtrl_accepted hv
  · intro i s t a b w ht
    obtain ⟨u, hu, hw⟩ := exec_rewritten (s := s) (fb := s.fb) a b w rfl i
    cases hu.symm.trans ht
    change exec i (s.rewritten s.fb a b w) = .next (t.rewritten t.fb a b w)
    rw [exec_fb ht, hw]

/-! ## The buffer port -/

theorem hostStep_writeFB_next_iff {s t : State} {off : Nat} {b : Byte} : hostStep (.writeFB off b) s = .next t ↔
    s.status.busy = false ∧ s.fits (off + 1) = true ∧ t = { s with fb := Memory.write s.fb off b } := by
  simp only [hostStep]
  cases s.status.busy <;> cases s.fits (off + 1) <;> simp [eq_comm]

theorem step_of_readFB {s : State} {off : Nat} {rest : List Move} (hh : s.host = .access (.readFB off) :: rest)
    (hroom : s.fits (off + 1) = true) :
    step s = .next { s with host := rest, rdata := some (Memory.read s.fb off).toNat } :=
  (step_of_access hh).trans (if_pos hroom)

/-- Settles O14 from the laws of a read after a write. -/
theorem bufferWriteReadsBack : Obligations.BufferWriteReadsBack := by
  refine ⟨?_, ?_, ?_⟩
  · intro s off b rest hwf hh hb hroom
    refine ⟨Memory.write s.fb off b, ?_, Memory.wf_write s.fb off b hwf, Memory.read_write_same s.fb off b hwf,
      fun a ha => Memory.read_write_other s.fb off a b ha⟩
    rw [step_of_access hh]
    exact hostStep_writeFB_next_iff.mpr ⟨hb, fits_eq_true_iff.mpr hroom, rfl⟩
  · intro s off rest hh hroom
    exact step_of_readFB hh (fits_eq_true_iff.mpr hroom)
  · intro s t off b rest hwf hh ht
    rw [step_of_access hh] at ht
    obtain ⟨-, hroom, rfl⟩ := hostStep_writeFB_next_iff.mp ht
    have hread := step_of_readFB
      (s := { s with fb := Memory.write s.fb off b, host := .access (.readFB off) :: rest }) rfl hroom
    rwa [Memory.read_write_same s.fb off b hwf] at hread

/-! ## What no step changes -/

theorem Accessed.params {s t : State} (h : Accessed s t) : t.params = s.params := by
  cases h <;> rfl

theorem writeReg_fb {r : RegName} {v : Nat} {s t : State} (h : writeReg r v s = .next t) : t.fb = s.fb := by
  cases r
  case ctrl =>
    rcases writeCtrl_cases (BitVec.ofNat 9 v) s with ⟨-, hw⟩ | ⟨-, hw⟩ | ⟨y, -, hw⟩ | ⟨-, hw⟩ <;>
      cases hw.symm.trans h <;> rfl
  all_goals cases h <;> rfl

/-- R45, R46: of the host's accesses a write to the buffer alone changes it, and only an idle block's. -/
theorem hostStep_fb {a : Access} {s t : State} (h : hostStep a s = .next t) :
    t.fb = s.fb ∨ s.status.busy = false ∧ ∃ off b, a = .writeFB off b := by
  cases a with
  | writeReg n v =>
    simp only [hostStep, onRegister] at h
    split at h
    · exact .inl (writeReg_fb h)
    · cases h
  | readReg n =>
    simp only [hostStep, onRegister] at h
    split at h <;> cases h
    exact .inl rfl
  | writeFB off b => exact .inr ⟨(hostStep_writeFB_next_iff.mp h).1, off, b, rfl⟩
  | readFB off =>
    simp only [hostStep] at h
    split at h <;> cases h
    exact .inl rfl
  | reset => cases h; exact .inl rfl

theorem blockStep_params_fb {s t : State} (h : blockStep s = .next t) : t.params = s.params ∧ t.fb = s.fb := by
  rcases blockStep_cases h with ⟨-, rfl⟩ | ⟨-, i, -, hx⟩
  · exact ⟨rfl, rfl⟩
  · exact ⟨exec_params hx, exec_fb hx⟩

/-- Settles O54: neither the block nor an access but `writeFB` changes the buffer, and nothing the parameters. -/
theorem parametersAndBufferAreKept : Obligations.ParametersAndBufferAreKept := by
  intro s t ht
  rcases step_cases ht with ⟨-, hx⟩ | ⟨rest, -, hx⟩ | ⟨a, rest, hh, hx⟩
  · obtain ⟨hp, hf⟩ := blockStep_params_fb hx
    exact ⟨hp, fun hne => absurd hf hne⟩
  · obtain ⟨hp, hf⟩ := blockStep_params_fb hx
    exact ⟨hp, fun hne => absurd hf hne⟩
  · refine ⟨(hostStep_accessed hx).params, fun hne => ?_⟩
    obtain ⟨hb, off, b, rfl⟩ := (hostStep_fb hx).resolve_left hne
    exact ⟨hb, off, b, rest, hh⟩

/-! ## Registers that hold no value -/

section
variable {s : State}

theorem result_eq_none {v : Bool} (x : Nat) (h : s.status.busy = true ∨ v = false) : s.result v x = none := by
  rcases h with h | h <;> simp [State.result, h]

theorem recHolds_eq_false_iff {own : Bool} {k : Nat} : s.recHolds own k = false ↔
    s.status.busy = true ∨ ((s.valid.recs = true → s.recCnt.toNat ≤ k) ∧ (k = 0 → own = false)) := by
  simp only [State.recHolds]
  cases s.status.busy <;> cases s.valid.recs <;> cases own <;> simp

/-- R42, R28: no entry holds a value in a field that no `VALID` bit covers. -/
theorem recHolds_eq_false_of_not_covered {own : Bool} (k : Nat)
    (h : s.status.busy = true ∨ (s.valid.recs || own) = false) : s.recHolds own k = false :=
  recHolds_eq_false_iff.mpr (h.imp_right fun hv => by simp_all)

theorem recResult_eq_none {own : Bool} {f : Record → Nat} (h : s.recHolds own s.recSel.toNat = false) :
    s.recResult own f = none := by
  simp [State.recResult, h]

theorem elemResult_eq_none {f : Elem → Nat} (h : s.recHolds s.valid.io s.recSel.toNat = false) :
    s.elemResult f = none := by
  simp [State.elemResult, h]

theorem elemResult_eq_none_of_count_le {f : Elem → Nat}
    (h : (s.recAt s.recSel.toNat).ioN.toNat ≤ s.elemSel.toNat) : s.elemResult f = none := by
  simp [State.elemResult, Nat.not_lt.mpr h]

/-- R42: of a register of class (c), with the `VALID` bits that cover it. -/
theorem readReg_eq_none {r : RegName} (hr : r.isResult = true)
    (h : s.status.busy = true ∨ r.covered s.valid = false) : readReg s r = none := by
  cases r
  case ctrl | status | flen | argOff | argW | errOff | valid | recSel | elemSel => cases hr
  all_goals simp only [readReg, RegName.covered] at h ⊢
  case elemIdW | elemVal => exact elemResult_eq_none (recHolds_eq_false_of_not_covered _ h)
  case recPrio => exact recResult_eq_none (recHolds_eq_false_of_not_covered _ (by rwa [Bool.or_false]))
  case recTs | recLat | recLon | recAlt | recAng | recSat | recSpd | recIoTotal | recIoN | recIoFlags =>
    exact recResult_eq_none (recHolds_eq_false_of_not_covered _ h)
  all_goals exact result_eq_none _ h

end

/-- Settles O16: `readReg_eq_none`. -/
theorem invalidResultsReadAsNoValue : Obligations.InvalidResultsReadAsNoValue :=
  fun _ _ hr h => readReg_eq_none hr h

/-- Settles O17: neither the records produced nor `REC[0]` alone holds a value at the pointer. -/
theorem entriesBeyondCountReadAsNoValue : Obligations.EntriesBeyondCountReadAsNoValue := by
  constructor
  · intro s r hr hcnt hown
    have holds : ∀ own, (s.recSel = 0 → own = false) → s.recHolds own s.recSel.toNat = false := fun own ho =>
      recHolds_eq_false_iff.mpr (.inr ⟨hcnt, fun h0 => ho (BitVec.eq_of_toNat_eq h0)⟩)
    have hts := holds s.valid.ts fun h0 => (hown h0).1
    have hgps := holds s.valid.gps fun h0 => (hown h0).2.1
    have hio := holds s.valid.io fun h0 => (hown h0).2.2
    cases r
    all_goals simp only [readReg]
    case recTs => exact recResult_eq_none hts
    case recPrio => exact recResult_eq_none (holds false fun _ => rfl)
    case recLat | recLon | recAlt | recAng | recSat | recSpd => exact recResult_eq_none hgps
    case recIoTotal | recIoN | recIoFlags => exact recResult_eq_none hio
    case elemIdW | elemVal => exact elemResult_eq_none hio
    all_goals simp at hr
  · exact fun s h => ⟨elemResult_eq_none_of_count_le h, elemResult_eq_none_of_count_le h⟩

/-- Settles O18 by the three forms of `KIND`. -/
theorem errOffHasValueOnlyAfterFailure : Obligations.ErrOffHasValueOnlyAfterFailure := by
  refine fun s => ⟨fun c hc => ?_, ?_⟩
  · simp only [readReg, State.errOffValue, hc]
  · rintro (hk | hk) <;> simp only [readReg, State.errOffValue, hk]

/-! ## Reset -/

/-- The state after reset is itself one that was reset. -/
theorem reset_eq_resetBlock : State.reset = State.reset.resetBlock := rfl

/-- R44, R42: no result register of a block that was reset holds a value. -/
theorem readReg_resetBlock (s : State) {r : RegName} (hr : r.isResult = true) : readReg s.resetBlock r = none := by
  refine readReg_eq_none hr (.inr ?_)
  cases r
  case ctrl | status | flen | argOff | argW | errOff | valid | recSel | elemSel => cases hr
  all_goals rfl

theorem step_of_reset {s : State} {rest : List Move} (h : s.host = .access .reset :: rest) :
    step s = .next { s with host := rest }.resetBlock :=
  step_of_access h

/-- Settles O15: both kinds of state are `resetBlock` of some state. -/
theorem resetLeavesTable : Obligations.ResetLeavesTable := by
  constructor
  · intro t ht
    obtain ⟨u, rfl⟩ : ∃ u : State, t = u.resetBlock := by
      rcases ht with rfl | ⟨s, rest, hh, hs⟩
      · exact ⟨_, reset_eq_resetBlock⟩
      · exact ⟨_, (Host.Outcome.next.inj ((step_of_reset hh).symm.trans hs)).symm⟩
    have hword : some State.reset.status.word.toNat = some 0 := by decide
    exact ⟨rfl, rfl, rfl, rfl, rfl, hword, rfl, rfl, fun _ hr => readReg_resetBlock u hr, rfl, rfl, rfl, rfl⟩
  · exact fun s rest hh => ⟨_, step_of_reset hh, rfl, rfl, rfl⟩

/-! ## Registers that hold a value -/

section
variable {s : State}

/-- The list of the host's moves bears on no register. -/
theorem readReg_withHost (r : RegName) (rest : List Move) : readReg { s with host := rest } r = readReg s r := by
  cases r <;> rfl

theorem step_of_readReg {n : Nat} {r : RegName} {rest : List Move} (hn : RegName.ofNumber n = some r)
    (hh : s.host = .access (.readReg n) :: rest) :
    step s = .next { s with host := rest, rdata := readReg { s with host := rest } r } := by
  rw [step_of_access hh]
  simp only [hostStep, onRegister, hn]

/-- R43: what a register reads as is what the host's read of its number answers. -/
theorem step_readReg_of_eq {n x : Nat} {r : RegName} (rest : List Move) (hn : RegName.ofNumber n = some r)
    (hx : readReg s r = some x) :
    step { s with host := .access (.readReg n) :: rest } = .next { s with host := rest, rdata := some x } := by
  rw [← hx, ← readReg_withHost r rest]
  exact step_of_readReg hn rfl

theorem result_eq_some {v : Bool} (x : Nat) (hb : s.status.busy = false) (hv : v = true) :
    s.result v x = some x := by
  simp [State.result, hb, hv]

/-- R28, R32: the entry that `REC_SEL` selects holds a value in a field of which `own` is the operation's own bit. -/
theorem recHolds_recSel_eq_true {own : Bool} (hb : s.status.busy = false)
    (h : (s.valid.recs = true ∧ s.recSel.toNat < s.recCnt.toNat) ∨ (own = true ∧ s.recSel = 0)) :
    s.recHolds own s.recSel.toNat = true := by
  rcases h with ⟨hv, hlt⟩ | ⟨ho, h0⟩
  · simp [State.recHolds, hb, hv, hlt]
  · simp [State.recHolds, hb, ho, h0]

theorem recResult_eq_some {own : Bool} (f : Record → Nat) (h : s.recHolds own s.recSel.toNat = true) :
    s.recResult own f = some (f (s.recAt s.recSel.toNat)) := by
  simp [State.recResult, h]

theorem elemResult_eq_some {e : Elem} (f : Elem → Nat) (h : s.recHolds s.valid.io s.recSel.toNat = true)
    (hlt : s.elemSel.toNat < (s.recAt s.recSel.toNat).ioN.toNat)
    (he : (s.recAt s.recSel.toNat).elems[s.elemSel.toNat]? = some e) : s.elemResult f = some (f e) := by
  simp [State.elemResult, h, hlt, he]

end

/-- A field above `n` bits counts `2 ^ n` times. -/
theorem toNat_append_eq_add {m n : Nat} (hi : BitVec m) (lo : BitVec n) :
    (hi ++ lo).toNat = lo.toNat + 2 ^ n * hi.toNat := by
  rw [BitVec.toNat_append, ← Nat.shiftLeft_add_eq_or_of_lt lo.isLt, Nat.shiftLeft_eq]
  ring

/-- Settles O19: each register's number, and what that register reads as. -/
theorem hostReadAnswersRegister : Obligations.HostReadAnswersRegister := by
  refine ⟨?_, by decide, ?_⟩
  · intro s n rest hn hh
    have hr : RegName.ofNumber n = some registerTable[n] := List.getElem?_eq_getElem hn
    exact ⟨_, hr, step_of_readReg hr hh⟩
  · intro s rest reads rec_ holds
    have answer : ∀ {n x : Nat} (r : RegName), RegName.ofNumber n = some r → readReg s r = some x → reads n x :=
      fun r hn hx => step_readReg_of_eq rest hn hx
    refine ⟨?_, ?_, ?_⟩
    · exact ⟨answer .ctrl rfl rfl, answer .status rfl rfl, answer .flen rfl rfl, answer .argOff rfl rfl,
        answer .argW rfl rfl, answer .valid rfl rfl, answer .recSel rfl rfl, answer .elemSel rfl rfl⟩
    · intro c hc
      exact answer .errOff rfl ((errOffHasValueOnlyAfterFailure s).1 c hc)
    · intro hb
      have result : ∀ {n x : Nat} {v : Bool} (r : RegName), RegName.ofNumber n = some r →
          readReg s r = s.result v x → v = true → reads n x :=
        fun r hn hx hv => answer r hn (hx.trans (result_eq_some _ hb hv))
      have record : ∀ {n : Nat} {own : Bool} (r : RegName) (f : Record → Nat), RegName.ofNumber n = some r →
          readReg s r = s.recResult own f → holds own → reads n (f rec_) :=
        fun r f hn hx h => answer r hn (hx.trans (recResult_eq_some f (recHolds_recSel_eq_true hb h)))
      refine ⟨fun hv => ?_, fun hv => ?_, fun hv => ?_, fun hv => ?_, fun hv => ?_, fun h => ?_, fun h => ?_,
        fun h => ?_, fun h => ?_⟩
      · refine ⟨result .declLen rfl rfl hv, ?_, result .payOff rfl rfl hv, result .payLen rfl rfl hv⟩
        rw [show 256 = 2 ^ 8 from rfl, ← toNat_append_eq_add]
        exact result .codec rfl rfl hv
      · exact ⟨result .recN rfl rfl hv, result .recCnt rfl rfl hv⟩
      · exact result .endCur rfl rfl (by simpa [or_assoc] using hv)
      · exact result .ioConsumed rfl rfl hv
      · exact ⟨result .field rfl rfl hv, result .fieldW rfl rfl hv⟩
      · exact record .recTs (·.ts.toNat) rfl rfl h
      · exact record .recPrio (·.prio.toNat) rfl rfl h
      · exact ⟨record .recLat (·.lat.toNat) rfl rfl h, record .recLon (·.lon.toNat) rfl rfl h,
          record .recAlt (·.alt.toNat) rfl rfl h, record .recAng (·.ang.toNat) rfl rfl h,
          record .recSat (·.sat.toNat) rfl rfl h, record .recSpd (·.spd.toNat) rfl rfl h⟩
      · refine ⟨record .recIoTotal (·.ioTotal.toNat) rfl rfl h, record .recIoN (·.ioN.toNat) rfl rfl h, ?_, ?_⟩
        · have hflags := record (n := 28) .recIoFlags
            (fun r => (BitVec.ofBool r.ioMm ++ BitVec.ofBool r.ioTr).toNat) rfl rfl h
          simpa only [toNat_append_eq_add, BitVec.toNat_ofBool, pow_one] using hflags
        · intro e hlt he
          have hio := recHolds_recSel_eq_true hb h
          refine ⟨?_, answer .elemVal rfl (elemResult_eq_some (·.val.toNat) hio hlt he)⟩
          rw [show 65536 = 2 ^ 16 from rfl, ← toNat_append_eq_add]
          exact answer .elemIdW rfl (elemResult_eq_some (fun e => (e.w ++ e.id).toNat) hio hlt he)

/-! ## The words of STATUS and VALID -/

theorem Kind.two_le_code_iff (k : Kind) : 2 ≤ k.code.toNat ↔ ∃ c, k = .failed c := by
  cases k with
  | none => simp [Kind.code]
  | ok => simp [Kind.code]
  | failed c => cases c <;> simp [Kind.code, Cause.code]

/-- Settles O20: each word is a concatenation, and of the codes those of 2 or more are the failures'. -/
theorem statusValidAndSignals : Obligations.StatusValidAndSignals := by
  refine ⟨by decide, fun s => ⟨?_, ?_, rfl, ?_⟩⟩
  · refine ⟨BitVec.extractLsb'_append_eq_right, ?_⟩
    simp only [Status.word, BitVec.getLsbD_append, BitVec.getLsbD_ofBool]
    simp
  · simp only [Valid.word, BitVec.getLsbD_append, BitVec.getLsbD_ofBool]
    simp
  · simp [State.errSignal, Kind.two_le_code_iff]

/-! ## The value of an element -/

theorem hexstr_length (b : List Byte) : (hexstr b).length = 2 * b.length := by
  induction b with
  | nil => rfl
  | cons x b ih =>
    simp only [hexstr, List.length_cons, ih]
    omega

/-- Settles O33: the value is the bytes' big-endian number, which `beBytes` reads back. -/
theorem elementValueRoundTrip : Obligations.ElementValueRoundTrip := by
  intro w x v hw hv
  have h8 : w ≤ 8 := by
    revert hw
    simp [widthClasses]
    omega
  have hwidth : (mkElem w (x :: v)).w.toNat = w := by
    simp [mkElem]
    omega
  have hval : (mkElem w (x :: v)).val.toNat = be v := zext64_be_toNat (b := v) (by omega)
  have hbytes : (mkElem w (x :: v)).valueBytes = v := by
    rw [Elem.valueBytes, hwidth, hval, ← hv, beBytes_be]
  refine ⟨hbytes, ?_, hwidth, congrArg hexstr hbytes, ?_⟩
  · simp [mkElem]
    omega
  · rw [hexstr_length, hv]

end Sys2Proof.Machine

/-! PROOFS. The frame buffer (20_memory.md): the bytes that an operation reads and those it does not, and the codec row
that the header validator fetches from the first nine. -/

namespace Sys2Proof.Machine

/-! ## The codec row of nine bytes -/

theorem be_eq_zero_iff {b : List Byte} : be b = 0 ↔ ∀ x ∈ b, x = 0 := by
  induction b with
  | nil => simp
  | cons x b ih => simp [be_cons, ih, ← BitVec.toNat_inj (x := x)]

/-- R61, R70 to R72: the nine bytes that a codec row is read from, field by field as HV reads them (R97 to R99). -/
theorem decodePrefix_ok_iff {b : List Byte} {i : Instr} : decodePrefix b = .ok i ↔
    b.length = 9 ∧ be (slice b 0 4) = 0 ∧ ∃ c : Codec, codecIdByte b = c.id ∧ i = c.instr (declaredLength b) := by
  unfold decodePrefix
  split
  · next h0 h1 h2 h3 l0 l1 l2 l3 x =>
    have hheader : be (slice [h0, h1, h2, h3, l0, l1, l2, l3, x] 0 4) = 0 ↔ h0 = 0 ∧ h1 = 0 ∧ h2 = 0 ∧ h3 = 0 := by
      simp [slice, be_eq_zero_iff]
    have hid : codecIdByte [h0, h1, h2, h3, l0, l1, l2, l3, x] = x := by simp [codecIdByte, slice]
    have hlen : declaredLength [h0, h1, h2, h3, l0, l1, l2, l3, x] = BitVec.ofNat 32 (be [l0, l1, l2, l3]) := rfl
    simp only [hheader, hid, hlen, ← Codec.ofId_eq_some_iff]
    split
    · next hz => cases Codec.ofId x <;> simp [hz, eq_comm]
    · next hz => exact iff_of_false nofun fun h => hz h.2.1
  · next hne =>
    refine iff_of_false nofun fun ⟨hlen, _⟩ => ?_
    match b, hlen with
    | [h0, h1, h2, h3, l0, l1, l2, l3, x], _ => exact hne h0 h1 h2 h3 l0 l1 l2 l3 x rfl

theorem decodePrefix_encodePrefix (c : Codec) (l : BitVec 32) : decodePrefix (encodePrefix c l) = .ok (c.instr l) := by
  have hlen : declaredLength (encodePrefix c l) = l := by
    change BitVec.ofNat 32 (be (beBytes 4 l.toNat)) = l
    rw [be_beBytes, Nat.mod_eq_of_lt (show l.toNat < 256 ^ 4 from l.isLt), BitVec.ofNat_toNat, BitVec.setWidth_eq]
  have hid : codecIdByte (encodePrefix c l) = c.id := by
    change BitVec.ofNat 8 (be [c.id]) = c.id
    simp
  exact decodePrefix_ok_iff.mpr ⟨by simp [encodePrefix], rfl, c, hid, by rw [hlen]⟩

theorem decode_encode (i : Instr) : decode (encode i) = .ok i := by
  cases i with
  | codec8 l => exact decodePrefix_encodePrefix .codec8 l
  | codec8Extended l => exact decodePrefix_encodePrefix .codec8Extended l
  | codec12 l => exact decodePrefix_encodePrefix .codec12 l
  | codec13 l => exact decodePrefix_encodePrefix .codec13 l
  | codec14 l => exact decodePrefix_encodePrefix .codec14 l
  | codec15 l => exact decodePrefix_encodePrefix .codec15 l
  | codec16 l => exact decodePrefix_encodePrefix .codec16 l
  | _ r => revert r; decide

theorem tableCode_ctrlWord (w : BitVec 9) : tableCode 16 w.toNat = some (.ctrlWord w) := by
  simp [tableCode]

theorem tableCode_framePrefix {b : List Byte} (h : b.length = 9) : tableCode 72 (be b) = some (.framePrefix b) := by
  simp only [tableCode, if_true, ← h, beBytes_be]

/-! ## The row that ROUTE and FRAME run -/

/-- R95, R97: on a frame whose first nine bytes are a codec row, HV selects that row. -/
theorem hv_of_decodePrefix {s : State} {i : Instr} (h9 : 9 ≤ s.job.flen)
    (hl : lengthAccepted s.params (BitVec.ofNat 32 (be (s.bytes 4 4))) s.job.flen)
    (hd : decodePrefix (s.bytes 0 9) = .ok i) : ∃ c l, i = c.instr l ∧ hv s.params s.frame = .ok (c, l) := by
  have hslice : ∀ {lo hi}, lo ≤ hi → hi ≤ 9 → slice (s.bytes 0 9) lo hi = slice s.frame lo hi := fun hlo hhi => by
    rw [s.slice_bytes hhi hlo, s.slice_frame (hhi.trans h9) hlo, Nat.zero_add]
  obtain ⟨-, hzero, c, hid, rfl⟩ := decodePrefix_ok_iff.mp hd
  have hlen : declaredLength (s.bytes 0 9) = declaredLength s.frame := by
    simp only [declaredLength, hslice (show 4 ≤ 8 by decide) (by decide)]
  rw [codecIdByte, hslice (by decide) (by decide)] at hid
  rw [hslice (by decide) (by decide)] at hzero
  refine ⟨c, _, rfl, hv_ok_iff.mpr ⟨by rwa [s.frame_length], hzero, ?_, hid, hlen⟩⟩
  rwa [s.frame_length, declaredLength, s.slice_frame (by omega) (by decide)]

theorem exec_route_of_hv {s : State} {r : BitVec 5} {c : Codec} {l : BitVec 32}
    (hd : decodeCtrl s.job.word = .ok (.route r)) (h : hv s.params s.frame = .ok (c, l)) :
    exec (.route r) s = exec (c.instr l) s := by
  have hf : s.framing = false := by simp only [State.framing, hd]
  rw [exec_codec, State.selectCodec, hf]
  simp only [exec, execRoute, h, Bool.false_eq_true, if_false]

theorem exec_frame_of_hv {s : State} {r : BitVec 5} {c : Codec} {l : BitVec 32}
    (hd : decodeCtrl s.job.word = .ok (.frame r)) (h : hv s.params s.frame = .ok (c, l)) :
    exec (.frame r) s = exec (c.instr l) s := by
  have hf : s.framing = true := by simp only [State.framing, hd]
  rw [exec_codec, State.selectCodec, hf]
  simp only [exec, execFrame, h, if_true]

/-- Settles O6: the latched operation runs, and HV selects the row for it. -/
theorem stepRunsCodecRow : Obligations.StepRunsCodecRow := by
  intro s i r hh hb hop h9 hl hd
  obtain ⟨c, l, rfl, hhv⟩ := hv_of_decodePrefix h9 hl hd
  rw [step_of_nil hh]
  rcases hop with hop | hop
  · rw [blockStep_busy hb hop, exec_route_of_hv hop hhv]
  · rw [blockStep_busy hb hop, exec_frame_of_hv hop hhv]

/-! ## A placed word -/

/-- A placed CTRL word is a start with no access of the host due; only `ARG_W` may be another than before. -/
theorem State.placeCtrl_eq (s : State) (w : BitVec 9) :
    ∃ a, s.placeCtrl w = { State.startOp { s with argW := a } w with host := [] } := by
  unfold State.placeCtrl
  split
  · exact ⟨1, rfl⟩
  · exact ⟨s.argW, rfl⟩

theorem step_placeCtrl (s : State) {w : BitVec 9} {i : Instr} (hd : decodeCtrl w = .ok i) :
    step (s.placeCtrl w) = exec i (s.placeCtrl w) := by
  obtain ⟨a, ha⟩ := s.placeCtrl_eq w
  rw [ha]
  exact (step_of_nil rfl).trans (blockStep_busy rfl hd)

theorem State.bytes_of_writeBytes {s : State} {m : List Host.Cell} {a : Nat} {b : List Byte}
    (hm : Memory.wf m = true) (hs : s.fb = Memory.writeBytes m a b) : s.bytes a b.length = b := by
  refine List.ext_getElem (s.bytes_length a b.length) fun k _ hk => ?_
  simp only [State.bytes, hs, List.getElem_map, List.getElem_range, Memory.read_writeBytes b m a k hm hk]

theorem step_placePrefix {s : State} {b : List Byte} {i : Instr} (hwf : Memory.wf s.fb = true)
    (hstrict : s.params.strictLength = false) (hd : decodePrefix b = .ok i) :
    step (s.placePrefix b) = exec i (s.placePrefix b) := by
  have h9 := (decodePrefix_ok_iff.mp hd).1
  have hroute : decodeCtrl (encodeCtrl 1 0) = .ok (.route 0) := by decide
  obtain ⟨a, ha⟩ :=
    State.placeCtrl_eq { s with fb := Memory.writeBytes s.fb 0 b, flen := max 9 s.flen } (encodeCtrl 1 0)
  rw [State.placePrefix, ha]
  refine stepRunsCodecRow _ i 0 rfl rfl (.inl hroute) (le_max_left 9 s.flen) (fun hs => ?_) ?_
  · exact absurd (hstrict.symm.trans hs) (by decide)
  · rw [← h9, State.bytes_of_writeBytes hwf rfl, hd]

/-- Settles O7: a CTRL word is latched by the start that places it, a codec row fetched by the ROUTE placed with it. -/
theorem placedWordRunsNext : Obligations.PlacedWordRunsNext := by
  intro s i n hwf hstrict hn
  have hd := decode_encode i
  cases he : encode i with
  | ctrlWord w =>
    rw [he] at hd hn
    subst hn
    simp only [State.withFetchWord, Code.number, tableCode_ctrlWord]
    exact step_placeCtrl s hd
  | framePrefix b =>
    rw [he] at hd hn
    subst hn
    simp only [State.withFetchWord, Code.number, tableCode_framePrefix (decodePrefix_ok_iff.mp hd).1]
    exact step_placePrefix hwf hstrict hd

/-! ## The bytes an operation reads -/

/-- Settles O24: where both succeed, each holds `be` of the eight bytes at `ARG_OFF`. -/
theorem fieldAndTimestampSeeSameBytes : Obligations.FieldAndTimestampSeeSameBytes := by
  intro r r' s t u hw ht hu htok huok
  rcases execTs_cases r' s with ⟨-, hx⟩ | ⟨-, -, hx⟩ <;> cases hx.symm.trans hu
  · cases huok
  rcases execField_cases r s with ⟨hbad, -⟩ | ⟨-, -, hx⟩ | ⟨-, -, hx⟩
  · rw [hw] at hbad
    cases hbad
  · cases hx.symm.trans ht
    cases htok
  · cases hx.symm.trans ht
    simp [hw]

theorem frame_eq_of_read_eq {s t : State} (hj : t.job.flen = s.job.flen)
    (h : ∀ a, a < s.job.flen → Memory.read t.fb a = Memory.read s.fb a) : t.frame = s.frame := by
  rw [State.frame, State.frame, hj]
  exact List.map_congr_left fun a ha => h a (List.mem_range.mp ha)

theorem exec_inputs {i : Instr} {s t : State} (h : exec i s = .next t) :
    t.flen = s.flen ∧ t.argOff = s.argOff ∧ t.argW = s.argW := by
  cases ending_of_exec h <;> exact ⟨rfl, rfl, rfl⟩

/-- Settles O51: both buffers hold one frame, and `exec_rewritten` says that an operation reads no more. -/
theorem bytesAboveLengthHaveNoEffect : Obligations.BytesAboveLengthHaveNoEffect := by
  intro i s t fb' hread ht
  have hframe : (s.rewritten fb' s.flen s.argOff s.argW).frame = s.frame := frame_eq_of_read_eq rfl hread
  obtain ⟨u, hu, hx⟩ := exec_rewritten s.flen s.argOff s.argW hframe i
  cases hu.symm.trans ht
  obtain ⟨hflen, hoff, hw⟩ := exec_inputs ht
  have hrewritten : t.rewritten fb' s.flen s.argOff s.argW = { t with fb := fb' } := by
    rw [← hflen, ← hoff, ← hw, State.rewritten]
  exact hx.trans (congrArg _ hrewritten)

end Sys2Proof.Machine

/-! PROOFS. The codes of the instructions (30_encoding.md): the CTRL word, the nine bytes of a codec row and the opcode
table's number, each decoded and encoded, and the CTRL words that start nothing. -/

namespace Sys2Proof.Machine

/-! ## A code and the instruction it decodes to -/

/-- Settles O1: the decoders evaluated on the words. -/
theorem writtenOutWordsDecode : Obligations.WrittenOutWordsDecode := by
  unfold Obligations.WrittenOutWordsDecode
  decide

/-- Settles O2: `decode_encode`, a CTRL word by its bits and a codec row by its three fields. -/
theorem decodeOfEncodeIsIdentity : Obligations.DecodeOfEncodeIsIdentity :=
  decode_encode

theorem encode_codec (c : Codec) (l : BitVec 32) : encode (c.instr l) = .framePrefix (encodePrefix c l) := by
  cases c <;> rfl

/-- R15: four bytes are what their 32-bit number is written as. -/
theorem beBytes_ofNat_be {b : List Byte} (h : b.length = 4) : beBytes 4 (BitVec.ofNat 32 (be b)).toNat = b := by
  have hlt : be b < 2 ^ 32 := by simpa [h] using be_lt b
  rw [BitVec.toNat_ofNat, Nat.mod_eq_of_lt hlt, ← h, beBytes_be]

/-- Nine bytes with a zero header are what the encoder writes for their codec and their declared length. -/
theorem encodePrefix_declaredLength {b : List Byte} {c : Codec} (h9 : b.length = 9) (hz : be (slice b 0 4) = 0)
    (hid : codecIdByte b = c.id) : encodePrefix c (declaredLength b) = b := by
  match b, h9 with
  | [h0, h1, h2, h3, l0, l1, l2, l3, x], _ =>
    obtain ⟨rfl, rfl, rfl, rfl⟩ : h0 = 0 ∧ h1 = 0 ∧ h2 = 0 ∧ h3 = 0 := by simpa [slice, be_eq_zero_iff] using hz
    have hx : x = c.id := by simpa [codecIdByte, slice] using hid
    have hlen : beBytes 4 (declaredLength [0, 0, 0, 0, l0, l1, l2, l3, x]).toNat = [l0, l1, l2, l3] :=
      beBytes_ofNat_be rfl
    rw [encodePrefix, hlen, hx]
    rfl

theorem encode_of_decodePrefix {b : List Byte} {i : Instr} (h : decodePrefix b = .ok i) :
    encode i = .framePrefix b := by
  obtain ⟨h9, hz, c, hid, rfl⟩ := decodePrefix_ok_iff.mp h
  rw [encode_codec, encodePrefix_declaredLength h9 hz hid]

/-- Settles O3, for each of the two kinds of code. -/
theorem encodeOfDecodeIsIdentity : Obligations.EncodeOfDecodeIsIdentity
  | .ctrlWord _, _, h => encode_of_decodeCtrl h
  | .framePrefix _, _, h => encode_of_decodePrefix h

theorem decodeTableWord_of_tableCode {n w : Nat} {c : Code} {i : Instr} (hc : tableCode n w = some c)
    (hd : decode c = .ok i) : decodeTableWord n w = some i := by
  simp only [decodeTableWord, hc, hd]

/-- Settles O4: the number is laid out as the code it is the number of, and `decode_encode` gives the instruction. -/
theorem tableNumberDecodes : Obligations.TableNumberDecodes := by
  intro i
  have hd := decode_encode i
  cases he : encode i with
  | ctrlWord w =>
    rw [he] at hd
    exact decodeTableWord_of_tableCode (tableCode_ctrlWord w) hd
  | framePrefix b =>
    rw [he] at hd
    exact decodeTableWord_of_tableCode (tableCode_framePrefix (decodePrefix_ok_iff.mp hd).1) hd

/-! ## CTRL words that start nothing -/

/-- R25, R198: a write without `START`, and any write while busy. -/
theorem startVerdict_ignored {s : State} {w : BitVec 9} (h : ctrlStart w = false ∨ s.status.busy = true) :
    startVerdict s w = .noStart ∨ startVerdict s w = .ignoredBusy := by
  unfold startVerdict
  split
  · exact .inl rfl
  · next hs => exact .inr (if_pos (h.resolve_left hs))

theorem writeCtrl_ignored {s : State} {w : BitVec 9} (h : ctrlStart w = false ∨ s.status.busy = true) :
    writeCtrl w s = .next s := by
  rcases startVerdict_ignored h with hv | hv <;> simp only [writeCtrl, hv]

/-- R76: `OP = 7` is neither accepted nor held against `FRAME_MAX`. -/
theorem writeCtrl_reservedOp (s : State) {w : BitVec 9} (h7 : ctrlOp w = 7) :
    ∃ m, writeCtrl w s = .next { s with refusedStart := m } := by
  rcases writeCtrl_cases w s with ⟨hv, -⟩ | ⟨hv, -⟩ | ⟨y, -, hw⟩ | ⟨-, hw⟩
  · obtain ⟨-, -, hne, -⟩ := (startVerdict_accepted_iff s w).mp hv
    exact absurd h7 hne
  · obtain ⟨-, -, hne, -⟩ := (startVerdict_overCapacity_iff s w).mp hv
    exact absurd h7 hne
  · exact ⟨some y, hw⟩
  · exact ⟨s.refusedStart, hw⟩

theorem decodeCtrl_reservedOp {w : BitVec 9} (h7 : ctrlOp w = 7) (i : Instr) : decodeCtrl w ≠ .ok i := by
  unfold decodeCtrl
  split
  · rw [h7]
    nofun
  · nofun

theorem step_of_writeCtrl {s : State} {v : Nat} {rest : List Move}
    (h : s.host = .access (.writeReg 0 v) :: rest) :
    step s = writeCtrl (BitVec.ofNat 9 v) { s with host := rest } :=
  step_of_access h

/-- Settles O10: the write's verdict in each of the three cases. -/
theorem ignoredStartsChangeNothing : Obligations.IgnoredStartsChangeNothing := by
  refine ⟨fun s v rest hh h => ?_, fun s v rest hh h7 => ?_, fun v i h7 => ?_⟩
  · rw [step_of_writeCtrl hh]
    refine writeCtrl_ignored (h.imp_left fun h0 => Bool.eq_false_iff.mpr fun hs => ?_)
    have := (ctrlStart_ofNat v).mp hs
    omega
  · rw [step_of_writeCtrl hh]
    exact writeCtrl_reservedOp _ (ctrlOp_ofNat_eq_iff.mpr h7)
  · exact decodeCtrl_reservedOp (ctrlOp_ofNat_eq_iff.mpr h7) i

end Sys2Proof.Machine

/-! PROOFS. A well-formed frame (30_encoding.md R62 to R66): the bytes that a device writes for a group, an IO section,
a record and a list of records are read back as what they were made of, wherever they stand. -/

namespace Sys2Proof.Machine

/-! ## Bytes that stand at an offset -/

/-- R13: the bytes `b` stand at offset `cur` of the frame. -/
def StandsAt (fr : List Byte) (cur : Nat) (b : List Byte) : Prop := b <+: fr.drop cur

theorem standsAt_append_iff {fr a b : List Byte} {cur : Nat} :
    StandsAt fr cur (a ++ b) ↔ StandsAt fr cur a ∧ StandsAt fr (cur + a.length) b := by
  unfold StandsAt
  rw [← List.drop_drop]
  constructor
  · rintro ⟨t, ht⟩
    simp [← ht]
  · rintro ⟨⟨t, ht⟩, hb⟩
    rw [← ht] at hb ⊢
    simpa using hb

theorem standsAt_cons_iff {fr b : List Byte} {x : Byte} {cur : Nat} :
    StandsAt fr cur (x :: b) ↔ StandsAt fr cur [x] ∧ StandsAt fr (cur + 1) b :=
  standsAt_append_iff (a := [x])

theorem StandsAt.slice_eq {fr b : List Byte} {lo hi : Nat} (h : StandsAt fr lo b) (hhi : hi = lo + b.length) :
    slice fr lo hi = b := by
  obtain ⟨t, ht⟩ := h
  rw [slice, hhi, Nat.add_sub_cancel_left, ← ht, List.take_left]

theorem StandsAt.le_length {fr b : List Byte} {cur : Nat} (h : StandsAt fr cur b) (hb : 0 < b.length) :
    cur + b.length ≤ fr.length := by
  have := h.length_le
  rw [List.length_drop] at this
  omega

/-- R85: FX reads the bytes that stand at the cursor. -/
theorem StandsAt.fx_eq {fr b : List Byte} {cur n : Nat} (h : StandsAt fr cur b) (hn : b.length = n) (h0 : 0 < n) :
    fx fr cur n = some b := by
  subst hn
  exact fx_eq_some_iff.mpr ⟨h.le_length h0, (h.slice_eq rfl).symm⟩

theorem StandsAt.fx_byte {fr : List Byte} {x : Byte} {cur : Nat} (h : StandsAt fr cur [x]) : fx fr cur 1 = some [x] :=
  h.fx_eq rfl Nat.one_pos

/-- R65, R151: a count byte is read as the count. -/
theorem be_count {n : Nat} (h : n ≤ 255) : be [BitVec.ofNat 8 n] = n := by
  rw [be_singleton, BitVec.toNat_ofNat, Nat.mod_eq_of_lt (by omega)]

/-- R15: the four bytes of a 32-bit number are read as the number. -/
theorem ofNat_be_beBytes (l : BitVec 32) : BitVec.ofNat 32 (be (beBytes 4 l.toNat)) = l := by
  rw [be_beBytes, Nat.mod_eq_of_lt (show l.toNat < 256 ^ 4 from l.isLt), BitVec.ofNat_toNat, BitVec.setWidth_eq]

/-! ## An IO section -/

theorem mkElem_elementBytes (w : Nat) (e : Byte × List Byte) : mkElem w (elementBytes e) = wireElem w e := by
  simp [mkElem, elementBytes, wireElem]

/-- R138: the elements of a group, after its count byte. -/
theorem parseGroup_of_standsAt {fr : List Byte} {w : Nat} {es : List (Byte × List Byte)} {cur : Nat}
    (hw : ∀ e ∈ es, e.2.length = w) (h : StandsAt fr cur (es.flatMap elementBytes)) :
    parseGroup fr w es.length cur = ⟨es.map (wireElem w), cur + (es.flatMap elementBytes).length, false⟩ := by
  induction es generalizing cur with
  | nil => rfl
  | cons e es ih =>
    have hlen : (elementBytes e).length = 1 + w := by
      rw [elementBytes, List.length_cons, hw e (List.mem_cons_self ..), Nat.add_comm]
    rw [List.flatMap_cons, standsAt_append_iff] at h
    obtain ⟨he, hes⟩ := h
    rw [hlen, ← Nat.add_assoc] at hes
    have hrest := ih (fun x hx => hw x (List.mem_cons_of_mem _ hx)) hes
    simp only [List.length_cons, parseGroup, he.fx_eq hlen (by omega), hrest, mkElem_elementBytes, List.map_cons,
      List.flatMap_cons, List.length_append, hlen, ← Nat.add_assoc]

/-- R136, R137: a legal group is read whole, and the parse goes on behind it. -/
theorem parseGroups_of_standsAt {fr : List Byte} {w : Nat} {es : List (Byte × List Byte)} {cur : Nat}
    (hg : legalGroup w es) (h : StandsAt fr cur (groupBytes es)) (ws : List Nat) :
    parseGroups fr (w :: ws) cur =
      let q := parseGroups fr ws (cur + (groupBytes es).length)
      ⟨es.map (wireElem w) ++ q.elems, q.cur, q.stopped⟩ := by
  obtain ⟨hcount, hw⟩ := hg
  obtain ⟨hc, hes⟩ := standsAt_cons_iff.mp h
  have hlen : cur + (groupBytes es).length = cur + 1 + (es.flatMap elementBytes).length := by
    rw [groupBytes, List.length_cons]
    omega
  simp only [parseGroups, hc.fx_byte, be_count hcount, parseGroup_of_standsAt hw hes, hlen, Bool.false_eq_true,
    if_false]

/-- R65: the bytes of an IO section, the total byte and the four groups. -/
def sectionBytes (total : Byte) (g1 g2 g4 g8 : List (Byte × List Byte)) : List Byte :=
  total :: (groupBytes g1 ++ groupBytes g2 ++ groupBytes g4 ++ groupBytes g8)

/-- R133, R145, R146: a well-formed section is read whole, wherever it stands. -/
theorem iop_of_standsAt {fr : List Byte} {off : Nat} {total : Byte} {g1 g2 g4 g8 : List (Byte × List Byte)}
    (h1 : legalGroup 1 g1) (h2 : legalGroup 2 g2) (h4 : legalGroup 4 g4) (h8 : legalGroup 8 g8)
    (h : StandsAt fr off (sectionBytes total g1 g2 g4 g8)) :
    iop fr off =
      let elems := g1.map (wireElem 1) ++ g2.map (wireElem 2) ++ g4.map (wireElem 4) ++ g8.map (wireElem 8)
      ⟨elems, total.toNat, (sectionBytes total g1 g2 g4 g8).length, false, total.toNat != elems.length⟩ := by
  obtain ⟨ht, hg⟩ := standsAt_cons_iff.mp h
  simp only [standsAt_append_iff, List.length_append, ← Nat.add_assoc] at hg
  obtain ⟨⟨⟨hg1, hg2⟩, hg4⟩, hg8⟩ := hg
  have hgroups : parseGroups fr widthClasses (off + 1) =
      ⟨g1.map (wireElem 1) ++ g2.map (wireElem 2) ++ g4.map (wireElem 4) ++ g8.map (wireElem 8),
        off + (sectionBytes total g1 g2 g4 g8).length, false⟩ := by
    rw [widthClasses, parseGroups_of_standsAt h1 hg1, parseGroups_of_standsAt h2 hg2, parseGroups_of_standsAt h4 hg4,
      parseGroups_of_standsAt h8 hg8]
    simp only [parseGroups, List.append_nil, List.append_assoc, sectionBytes, List.length_cons, List.length_append,
      GroupResult.mk.injEq, true_and, and_true]
    omega
  simp only [iop, ht.fx_byte, hgroups, be_singleton, ioMismatch, Nat.add_sub_cancel_left]

/-! ## Records -/

theorem WireRecord.bytes_eq (w : WireRecord) :
    w.bytes = w.stamp ++ [w.prio] ++ w.gps ++ sectionBytes w.total w.g1 w.g2 w.g4 w.g8 := by
  simp [WireRecord.bytes, sectionBytes]

/-- R63, R151: a legal record is read back. -/
theorem readRecord_of_standsAt (policy : TsBit63Policy) {fr : List Byte} {cur : Nat} {w : WireRecord} (hw : w.Legal)
    (h : StandsAt fr cur w.bytes) : readRecord policy fr cur = .ok (w.record, cur + w.bytes.length) := by
  rw [w.bytes_eq] at h
  simp only [standsAt_append_iff, List.length_append, List.length_singleton, hw.stamp, hw.gps, Nat.reduceAdd] at h
  obtain ⟨⟨⟨hstamp, hprio⟩, hgps⟩, hio⟩ := h
  have htsd : tsd policy w.stamp = some (zext64 (be w.stamp)) := tsd_eq_some_iff.mpr ⟨.inl hw.fits, rfl⟩
  have hp : BitVec.ofNat 8 (be [w.prio]) = w.prio := by simp
  have hlen : w.bytes.length = 24 + (sectionBytes w.total w.g1 w.g2 w.g4 w.g8).length := by
    simp only [w.bytes_eq, List.length_append, List.length_singleton, hw.stamp, hw.gps]
  simp only [readRecord, hstamp.fx_eq hw.stamp (by decide), htsd, hprio.fx_byte,
    hgps.fx_eq hw.gps (by decide), iop_of_standsAt hw.g1 hw.g2 hw.g4 hw.g8 hio, hp, hlen, Nat.add_assoc]
  rfl

/-- R151: a list of legal records is read back in wire order. -/
theorem readRecords_of_standsAt (policy : TsBit63Policy) {fr : List Byte} {ws : List WireRecord} {cur : Nat}
    (hws : ∀ w ∈ ws, w.Legal) (h : StandsAt fr cur (ws.flatMap WireRecord.bytes)) :
    readRecords policy fr ws.length cur =
      .ok (ws.map WireRecord.record, cur + (ws.flatMap WireRecord.bytes).length) := by
  induction ws generalizing cur with
  | nil => rfl
  | cons w ws ih =>
    rw [List.flatMap_cons, standsAt_append_iff] at h
    obtain ⟨hw, hrest⟩ := h
    simp only [List.length_cons, readRecords, readRecord_of_standsAt policy (hws w (List.mem_cons_self ..)) hw,
      ih (fun x hx => hws x (List.mem_cons_of_mem _ hx)) hrest, List.map_cons, List.flatMap_cons, List.length_append,
      Nat.add_assoc]

/-- R151, R156: RSQ on a count byte and the records it announces. -/
theorem rsq_of_standsAt (policy : TsBit63Policy) {fr : List Byte} {off : Nat} {ws : List WireRecord}
    (hn : ws.length ≤ 255) (hws : ∀ w ∈ ws, w.Legal)
    (h : StandsAt fr off (BitVec.ofNat 8 ws.length :: ws.flatMap WireRecord.bytes)) :
    rsq policy fr off = .ok ⟨BitVec.ofNat 8 ws.length, ws.map WireRecord.record,
      off + 1 + (ws.flatMap WireRecord.bytes).length⟩ := by
  obtain ⟨hc, hrecs⟩ := standsAt_cons_iff.mp h
  simp only [rsq, hc.fx_byte, be_count hn, readRecords_of_standsAt policy hws hrecs]

/-! ## A frame -/

/-- R61, R95: HV selects the codec whose row stands at offset 0, with its declared length. -/
theorem hv_of_standsAt {p : Params} {fr : List Byte} {c : Codec} {l : BitVec 32} (h : StandsAt fr 0 (encodePrefix c l))
    (hl : lengthAccepted p l fr.length) : hv p fr = .ok (c, l) := by
  have h9 := h.le_length (by simp [encodePrefix])
  simp only [encodePrefix, standsAt_append_iff, List.length_append, beBytes_length] at h h9
  obtain ⟨⟨hzero, hlen⟩, hid⟩ := h
  have hdecl : declaredLength fr = l := by
    have hs : slice fr 4 8 = beBytes 4 l.toNat := hlen.slice_eq (by simp)
    rw [declaredLength, hs, ofNat_be_beBytes]
  have hs0 : slice fr 0 4 = [0, 0, 0, 0] := hzero.slice_eq rfl
  have hs8 : slice fr 8 9 = [c.id] := hid.slice_eq rfl
  exact hv_ok_iff.mpr ⟨h9, by rw [hs0]; rfl, by rwa [hdecl], by simp [codecIdByte, hs8], hdecl.symm⟩

/-- R160: FRAME commits the route group and the records that RSQ returns. -/
theorem exec_frame_of_rsq (r : BitVec 5) {s : State} {l : BitVec 32} {q : RecResult}
    (hhv : hv s.params s.frame = .ok (.codec8, l)) (hq : rsq s.params.tsBit63 s.frame 9 = .ok q) :
    exec (.frame r) s =
      .next ((s.setRoute .codec8 l).commit q { Valid.clear with route := true, recs := true }) := by
  simp only [exec, execFrame, hhv, State.frameCodec, codecLayout, decodeRecords, hq]

theorem anyTruncated_wire (ws : List WireRecord) : anyTruncated (ws.map WireRecord.record) = false := by
  simp [anyTruncated, WireRecord.record]

theorem anyMismatch_wire (ws : List WireRecord) :
    anyMismatch (ws.map WireRecord.record) = ws.any fun w => w.total.toNat != w.elems.length :=
  List.any_map

/-- Settles O40: the codec row and then the counted records stand in the frame, and each is read back. -/
theorem wellFormedFrameDecodes : Obligations.WellFormedFrameDecodes := by
  intro r s declLen ws trailer hn hws hl hframe
  have h : StandsAt s.frame 0
      (encodePrefix .codec8 declLen ++ BitVec.ofNat 8 ws.length :: ws.flatMap WireRecord.bytes) :=
    ⟨trailer, by simp [hframe, encodePrefix, Codec.id]⟩
  obtain ⟨hrow, hrecs⟩ := standsAt_append_iff.mp h
  have hhv := hv_of_standsAt hrow (by rwa [s.frame_length])
  have hq := rsq_of_standsAt s.params.tsBit63 (off := 9) hn hws (by simpa [encodePrefix] using hrecs)
  rw [exec_frame_of_rsq r hhv hq, State.commit, anyTruncated_wire, anyMismatch_wire]
  simp only [State.setRecords, State.setRoute, State.finishOk, okStatus, Valid.clear, Codec.id, List.length_map]

end Sys2Proof.Machine

/-! PROOFS. FX, BEU and FIELD (40_field_extract_unpack.md): big endian as a positional sum, the extractor's two
answers, and how a FIELD ends. -/

namespace Sys2Proof

/-- R88: each byte weighs 256 times its successor, the last one 1. -/
theorem be_eq_sum (b : List Byte) :
    be b = ∑ i ∈ Finset.range b.length, (b.getD i 0).toNat * 256 ^ (b.length - 1 - i) := by
  induction b with
  | nil => rfl
  | cons x b ih =>
    have hexp : ∀ i, b.length - 1 - i = b.length - (i + 1) := by omega
    rw [be_cons, ih, List.length_cons, Finset.sum_range_succ', Nat.add_comm]
    simp only [List.getD_cons_succ, List.getD_cons_zero, Nat.add_sub_cancel, Nat.sub_zero, hexp]

theorem be_lt_two_pow (b : List Byte) : be b < 2 ^ (8 * b.length) := by
  rw [pow_mul]
  exact be_lt b

/-- Settles O22: `be_eq_sum` and the bound; the examples are evaluated. -/
theorem bigEndianIsPositionalSum : Obligations.BigEndianIsPositionalSum :=
  ⟨fun b => ⟨be_eq_sum b, be_lt_two_pow b⟩, by decide⟩

end Sys2Proof

namespace Sys2Proof.Machine

theorem slice_getElem? (b : List Byte) (c : Nat) {n k : Nat} (h : k < n) : (slice b c (c + n))[k]? = b[c + k]? := by
  rw [slice, Nat.add_sub_cancel_left, List.getElem?_take_of_lt h, List.getElem?_drop]

/-- Settles O21: the answer is the slice at the cursor when that ends inside the frame. -/
theorem extractorIsAllOrNothing : Obligations.ExtractorIsAllOrNothing := by
  refine fun fr c n => ⟨fun h => ⟨slice fr c (c + n), fx_some h, ?_, fun k hk => slice_getElem? fr c hk⟩, fx_none⟩
  rw [length_slice h, Nat.add_sub_cancel_left]

theorem legalWidth_eq_false_iff {w : BitVec 4} : legalWidth w = false ↔ w.toNat < 1 ∨ 8 < w.toNat := by
  rw [← Bool.not_eq_true, legalWidth_eq_true_iff]
  omega

theorem startVerdict_field_ne_accepted {s : State} {w : BitVec 9} (h6 : ctrlOp w = 6)
    (hw : s.argW.toNat < 1 ∨ 8 < s.argW.toNat) : startVerdict s w ≠ .accepted := by
  intro hv
  obtain ⟨-, -, -, hwidth, -⟩ := (startVerdict_accepted_iff s w).mp hv
  exact absurd (legalWidth_eq_false_iff.mpr hw) (by simp [hwidth h6])

/-- Settles O23: a legal width leaves two of the three cases of `execField_cases`, told apart by the room in the
frame. -/
theorem fieldOperation : Obligations.FieldOperation := by
  refine ⟨fun r s h1 h8 hroom => ?_, fun r s h1 h8 hshort => ?_, fun s w => startVerdict_field_ne_accepted,
    fun r => decode_encode (.field r)⟩
  · rcases execField_cases r s with ⟨hbad, -⟩ | ⟨-, hshort, -⟩ | ⟨-, -, hx⟩
    · have := legalWidth_eq_false_iff.mp hbad
      omega
    · omega
    · exact hx
  · rcases execField_cases r s with ⟨hbad, -⟩ | ⟨-, -, hx⟩ | ⟨-, hroom, -⟩
    · have := legalWidth_eq_false_iff.mp hbad
      omega
    · exact hx
    · omega

end Sys2Proof.Machine

/-! PROOFS. The header validator (41_header_validator.md): how HV answers on the frame of the running operation, step
by step in the order of R95, what ROUTE, FRAME and the codec rows make of its answer, and what the bytes of the declared
length bear on. -/

namespace Sys2Proof

theorem Codec.ofId_eq_none_iff {b : Byte} : Codec.ofId b = none ↔ ∀ c : Codec, b ≠ c.id := by
  simp only [Option.eq_none_iff_forall_ne_some, ne_eq, Codec.ofId_eq_some_iff]

end Sys2Proof

namespace Sys2Proof.Machine

/-! ## The fields of the header, as bytes of the buffer -/

theorem State.bytes_one (s : State) (off : Nat) : s.bytes off 1 = [Memory.read s.fb off] := rfl

theorem be_bytes_eq_zero_iff (s : State) : be (s.bytes 0 4) = 0 ↔ s.bytes 0 4 = [0, 0, 0, 0] := by
  rw [be_eq_zero_iff, show ([0, 0, 0, 0] : List Byte) = List.replicate 4 0 from rfl, List.eq_replicate_iff]
  simp

section
variable {s : State} (h9 : 9 ≤ s.job.flen)
include h9

theorem header_frame : slice s.frame 0 4 = s.bytes 0 4 := s.slice_frame (by omega) (by decide)

theorem declaredLength_frame : declaredLength s.frame = BitVec.ofNat 32 (be (s.bytes 4 4)) := by
  rw [declaredLength, s.slice_frame (by omega) (by decide)]

theorem codecIdByte_frame : codecIdByte s.frame = Memory.read s.fb 8 := by
  rw [codecIdByte, s.slice_frame h9 (by decide), s.bytes_one]
  simp

/-! ## HV's answers -/

theorem hv_of_header_ne_zero (hz : s.bytes 0 4 ≠ [0, 0, 0, 0]) :
    hv s.params s.frame = .error ⟨.invalidHeader, 0, 4⟩ := by
  rw [hv, s.frame_length, if_neg (Nat.not_lt.mpr h9), header_frame h9, if_pos (mt (be_bytes_eq_zero_iff s).mp hz)]

theorem hv_of_lengthRejected (hz : s.bytes 0 4 = [0, 0, 0, 0])
    (hl : lengthRejected s.params (BitVec.ofNat 32 (be (s.bytes 4 4))) s.job.flen = true) :
    hv s.params s.frame = .error ⟨.lengthMismatch, 4, 9⟩ := by
  rw [hv, s.frame_length, if_neg (Nat.not_lt.mpr h9), header_frame h9,
    if_neg (not_not.mpr ((be_bytes_eq_zero_iff s).mpr hz)), declaredLength_frame h9, if_pos hl]

theorem hv_of_unknownCodec (hz : s.bytes 0 4 = [0, 0, 0, 0])
    (hl : lengthAccepted s.params (BitVec.ofNat 32 (be (s.bytes 4 4))) s.job.flen)
    (hid : ∀ c : Codec, Memory.read s.fb 8 ≠ c.id) : hv s.params s.frame = .error ⟨.unknownCodec, 8, 9⟩ := by
  rw [hv, s.frame_length, if_neg (Nat.not_lt.mpr h9), header_frame h9,
    if_neg (not_not.mpr ((be_bytes_eq_zero_iff s).mpr hz)), declaredLength_frame h9,
    lengthRejected_eq_false_iff.mpr hl, if_neg Bool.false_ne_true, codecIdByte_frame h9,
    Codec.ofId_eq_none_iff.mpr hid]

theorem hv_of_codec {c : Codec} (hz : s.bytes 0 4 = [0, 0, 0, 0])
    (hl : lengthAccepted s.params (BitVec.ofNat 32 (be (s.bytes 4 4))) s.job.flen)
    (hid : Memory.read s.fb 8 = c.id) :
    hv s.params s.frame = .ok (c, BitVec.ofNat 32 (be (s.bytes 4 4))) := by
  rw [hv_ok_iff, s.frame_length, header_frame h9, be_bytes_eq_zero_iff, declaredLength_frame h9, codecIdByte_frame h9]
  exact ⟨h9, hz, hl, hid, rfl⟩

end

theorem hv_of_short {s : State} (h : s.job.flen < 9) :
    hv s.params s.frame = .error ⟨shortFrameCause s.params.shortFrameKind, 0, 0⟩ := by
  rw [hv, s.frame_length, if_pos h]

/-! ## ROUTE and FRAME by HV's answer -/

theorem exec_route_of_error (r : BitVec 5) {s : State} {f : Failure} (h : hv s.params s.frame = .error f) :
    exec (.route r) s = .next (s.fail f) := by
  simp only [exec, execRoute, h]

theorem exec_route_of_ok (r : BitVec 5) {s : State} {c : Codec} {l : BitVec 32}
    (h : hv s.params s.frame = .ok (c, l)) : exec (.route r) s = .next (s.routeCodec c l) := by
  simp only [exec, execRoute, h]

theorem exec_frame_of_error (r : BitVec 5) {s : State} {f : Failure} (h : hv s.params s.frame = .error f) :
    exec (.frame r) s = .next (s.fail f) := by
  simp only [exec, execFrame, h]

theorem exec_frame_of_ok (r : BitVec 5) {s : State} {c : Codec} {l : BitVec 32}
    (h : hv s.params s.frame = .ok (c, l)) : exec (.frame r) s = .next (s.frameCodec c l) := by
  simp only [exec, execFrame, h]

/-- Settles O45: HV's four failures, each under the condition that R95's order of steps gives it. -/
theorem routeFailsInOrder : Obligations.RouteFailsInOrder := by
  intro r s
  have hshort : s.job.flen < 9 →
      exec (.route r) s = .next (s.failedWith (shortFrameCause s.params.shortFrameKind) 0 0) :=
    fun h => exec_route_of_error r (hv_of_short h)
  refine ⟨fun h hk => ?_, fun h hk => ?_, fun h9 hz => ?_, fun h9 hz hs => ?_, fun h9 hz hl hid => ?_⟩
  · exact ⟨0, by rw [hshort h, hk, shortFrameCause]⟩
  · exact ⟨0, by rw [hshort h, hk, shortFrameCause]⟩
  · exact ⟨4, exec_route_of_error r (hv_of_header_ne_zero h9 hz)⟩
  · refine or_iff_not_imp_left.mpr fun hl => ⟨9, exec_route_of_error r (hv_of_lengthRejected h9 hz ?_)⟩
    simp [lengthRejected, hs, hl]
  · refine ⟨9, exec_route_of_error r (hv_of_unknownCodec h9 hz hl fun c hc => hid ?_)⟩
    rw [hc]
    cases c <;> decide

/-- Settles O44: the listed ids are those of the seven codecs, and HV selects the one at offset 8. -/
theorem routeCompletes : Obligations.RouteCompletes := by
  intro r s id codec hmem h9 hz hid hl
  obtain rfl : id = codec.id := by revert hmem; cases codec <;> simp [Codec.id]
  exact ⟨9, exec_route_of_ok r (hv_of_codec h9 hz hl hid)⟩

/-! ## The codec rows -/

theorem exec_codec_of_frame {s : State} {r : BitVec 5} (h : decodeCtrl s.job.word = .ok (.frame r)) (c : Codec)
    (l : BitVec 32) : exec (c.instr l) s = .next (s.frameCodec c l) := by
  have hf : s.framing = true := by simp only [State.framing, h]
  rw [exec_codec, State.selectCodec, if_pos hf]

theorem exec_codec_of_not_frame {s : State} (h : ∀ r, decodeCtrl s.job.word ≠ .ok (.frame r)) (c : Codec)
    (l : BitVec 32) : exec (c.instr l) s = .next (s.routeCodec c l) := by
  have hf : s.framing = false := by
    unfold State.framing
    split
    · next r hr => exact absurd hr (h r)
    · rfl
  rw [exec_codec, State.selectCodec, hf, if_neg Bool.false_ne_true]

/-- Settles O46: one argument for every codec. -/
theorem codecRowReportsCodec : Obligations.CodecRowReportsCodec := by
  intro s l hw reported
  have row : ∀ c : Codec, ∃ t, exec (c.instr l) s = .next t ∧ reported c.id c t ∧ t.route.codecSel.sel = c.sel :=
    fun c => ⟨_, exec_codec_of_not_frame hw c l, ⟨rfl, 9, rfl⟩, rfl⟩
  exact ⟨row .codec8, row .codec8Extended, row .codec12, row .codec13, row .codec14, row .codec15, row .codec16⟩

theorem State.frameCodec_of_ne_codec8 (s : State) {c : Codec} (hc : c ≠ .codec8) (l : BitVec 32) :
    s.frameCodec c l = s.failedWith .noLayout 8 9 := by
  rcases s.frameCodec_cases c l with ⟨-, h⟩ | ⟨f, h8, -⟩ | ⟨q, h8, -⟩
  · exact h
  · exact absurd h8 hc
  · exact absurd h8 hc

/-- Settles O47: one argument for every codec but Codec8. -/
theorem codecRowWithoutLayoutRefused : Obligations.CodecRowWithoutLayoutRefused := by
  intro s l r hw i hi
  have row : ∀ c : Codec, c ≠ .codec8 → ∃ cur, exec (c.instr l) s = .next (s.failedWith .noLayout 8 cur) :=
    fun c hc => ⟨9, by rw [exec_codec_of_frame hw, s.frameCodec_of_ne_codec8 hc]⟩
  simp only [List.mem_cons, List.not_mem_nil, or_false] at hi
  rcases hi with rfl | rfl | rfl | rfl | rfl | rfl
  · exact row .codec8Extended nofun
  · exact row .codec12 nofun
  · exact row .codec13 nofun
  · exact row .codec14 nofun
  · exact row .codec15 nofun
  · exact row .codec16 nofun

/-! ## Records that stand in the frame -/

theorem readRecords_of_recordsAt {policy : TsBit63Policy} {fr : List Byte} {n cur fin : Nat} {rs : List Record}
    (h : RecordsAt policy fr n cur rs fin) : readRecords policy fr n cur = .ok (rs, fin) := by
  induction h with
  | done cur => rfl
  | more room stamp _ ih => simp only [readRecords, readRecord_ok_iff.mpr ⟨room, stamp, rfl, rfl⟩, ih]

/-- R151: RSQ returns the records that stand whole, as many as the count byte announces. -/
theorem rsq_of_recordsAt {s : State} {off fin : Nat} {rs : List Record} (hroom : off < s.job.flen)
    (h : RecordsAt s.params.tsBit63 s.frame (Memory.read s.fb off).toNat (off + 1) rs fin) :
    rsq s.params.tsBit63 s.frame off = .ok ⟨Memory.read s.fb off, rs, fin⟩ := by
  simp [rsq, s.fx_frame, Nat.succ_le_of_lt hroom, s.bytes_one, readRecords_of_recordsAt h]

theorem State.frameCodec_of_rsq {s : State} {q : RecResult} (h : rsq s.params.tsBit63 s.frame 9 = .ok q)
    (l : BitVec 32) : s.frameCodec .codec8 l =
      (s.setRoute .codec8 l).commit q { Valid.clear with route := true, recs := true } := by
  simp only [State.frameCodec, codecLayout, decodeRecords, h]

theorem State.frameCodec_of_rsq_error {s : State} {f : Failure} (h : rsq s.params.tsBit63 s.frame 9 = .error f)
    (l : BitVec 32) : s.frameCodec .codec8 l = s.fail f := by
  simp only [State.frameCodec, codecLayout, decodeRecords, h]

/-- Settles O48: the row runs FRAME's decoding, and RSQ returns the records that stand there. -/
theorem codec8RowDecodesRecords : Obligations.Codec8RowDecodesRecords := by
  intro s l r rs fin hw h10 hrecs
  have hcount := (readRecords_facts (readRecords_of_recordsAt hrecs)).count
  have hrow := exec_codec_of_frame hw .codec8 l
  rw [State.frameCodec_of_rsq (rsq_of_recordsAt h10 hrecs)] at hrow
  rw [← hcount]
  exact hrow

/-! ## The bytes of the declared length -/

/-- R85: FX reads the same from either frame at every offset from `lo` on. Every parser reads the frame through FX. -/
def ReadsSameFrom (lo : Nat) (fr fr' : List Byte) : Prop := ∀ c n, lo ≤ c → fx fr' c n = fx fr c n

section
variable {lo : Nat} {fr fr' : List Byte} (h : ReadsSameFrom lo fr fr')
include h

theorem parseGroup_congr (w g : Nat) {cur : Nat} (hc : lo ≤ cur) : parseGroup fr' w g cur = parseGroup fr w g cur := by
  induction g generalizing cur with
  | zero => rfl
  | succ g ih => simp only [parseGroup, h cur _ hc, ih (show lo ≤ cur + 1 + w by omega)]

theorem parseGroups_congr (ws : List Nat) {cur : Nat} (hc : lo ≤ cur) :
    parseGroups fr' ws cur = parseGroups fr ws cur := by
  induction ws generalizing cur with
  | nil => rfl
  | cons w ws ih =>
    have hnext : ∀ g, lo ≤ (parseGroup fr w g (cur + 1)).cur := fun g => by
      rw [(parseGroup_of fr w g (cur + 1)).cursor]
      omega
    simp only [parseGroups, h cur 1 hc, parseGroup_congr h w _ (show lo ≤ cur + 1 by omega), ih (hnext _)]

theorem iop_congr {off : Nat} (hc : lo ≤ off) : iop fr' off = iop fr off := by
  simp only [iop, h off 1 hc, parseGroups_congr h widthClasses (show lo ≤ off + 1 by omega)]

theorem readRecord_congr (policy : TsBit63Policy) {cur : Nat} (hc : lo ≤ cur) :
    readRecord policy fr' cur = readRecord policy fr cur := by
  simp only [readRecord, h cur 8 hc, h (cur + 8) 1 (by omega), h (cur + 9) 15 (by omega),
    iop_congr h (show lo ≤ cur + 24 by omega)]

theorem readRecords_congr (policy : TsBit63Policy) (n : Nat) {cur : Nat} (hc : lo ≤ cur) :
    readRecords policy fr' n cur = readRecords policy fr n cur := by
  induction n generalizing cur with
  | zero => rfl
  | succ n ih =>
    simp only [readRecords, readRecord_congr h policy hc]
    cases hr : readRecord policy fr cur with
    | error f => rfl
    | ok x =>
      obtain ⟨r, next⟩ := x
      obtain ⟨-, -, -, hnext⟩ := readRecord_ok_iff.mp hr
      simp only [ih (show lo ≤ next by omega)]

theorem rsq_congr (policy : TsBit63Policy) {off : Nat} (hc : lo ≤ off) : rsq policy fr' off = rsq policy fr off := by
  simp only [rsq, h off 1 hc, readRecords_congr h policy _ (show lo ≤ off + 1 by omega)]

end

/-- R98: without the length check HV takes nothing but the declared length itself from the bytes 4 to 7. -/
theorem hv_eq_map_of_not_strict {p : Params} {fr fr' : List Byte} (hp : p.strictLength = false)
    (hlen : fr'.length = fr.length) (hheader : 9 ≤ fr.length → slice fr' 0 4 = slice fr 0 4)
    (hid : 9 ≤ fr.length → codecIdByte fr' = codecIdByte fr) :
    hv p fr' = (hv p fr).map fun x => (x.1, declaredLength fr') := by
  rcases Nat.lt_or_ge fr.length 9 with hshort | h9
  · rw [hv, hv, if_pos hshort, if_pos (hlen ▸ hshort)]
    rfl
  · simp only [hv, lengthRejected, hp, hlen, hheader h9, hid h9, Bool.false_and, Bool.false_eq_true, if_false,
      Nat.not_lt.mpr h9]
    split
    · rfl
    · cases Codec.ofId (codecIdByte fr) <;> rfl

/-- The state with another buffer and another declared length. -/
def State.redeclared (s : State) (fb : List Host.Cell) (l : BitVec 32) : State :=
  { s with fb := fb, route := { s.route with declLen := l } }

theorem State.bytes_congr {s t : State} {off n : Nat}
    (h : ∀ a, off ≤ a → a < off + n → Memory.read t.fb a = Memory.read s.fb a) : t.bytes off n = s.bytes off n :=
  List.map_congr_left fun i hi => h (off + i) (by omega) (by have := List.mem_range.mp hi; omega)

theorem readsSameFrom_frame {s t : State} {lo : Nat} (hj : t.job = s.job)
    (h : ∀ a, lo ≤ a → Memory.read t.fb a = Memory.read s.fb a) : ReadsSameFrom lo s.frame t.frame := by
  intro c n hc
  rw [s.fx_frame, t.fx_frame, hj, State.bytes_congr fun a ha _ => h a (hc.trans ha)]

section
variable {s : State} {fb : List Host.Cell} (hread : ∀ a, a < 4 ∨ 8 ≤ a → Memory.read fb a = Memory.read s.fb a)
include hread

theorem hv_redeclared (hp : s.params.strictLength = false) (k : BitVec 32) :
    hv s.params (s.redeclared fb k).frame =
      (hv s.params s.frame).map fun x => (x.1, declaredLength (s.redeclared fb k).frame) := by
  have h9 : 9 ≤ s.frame.length → 9 ≤ (s.redeclared fb k).job.flen := fun h => by rwa [s.frame_length] at h
  refine hv_eq_map_of_not_strict hp (by rw [State.frame_length, State.frame_length]; rfl) (fun h => ?_) fun h => ?_
  · rw [header_frame (h9 h), header_frame (s := s) (h9 h), State.bytes_congr fun a _ ha => hread a (by omega)]
  · rw [codecIdByte_frame (h9 h), codecIdByte_frame (s := s) (h9 h)]
    exact hread 8 (by omega)

/-- R160: the records stand behind the declared length, and only the route group takes it up. -/
theorem frameCodec_redeclared (c : Codec) (l l' k : BitVec 32) :
    ∃ m, (s.redeclared fb k).frameCodec c l' = (s.frameCodec c l).redeclared fb m := by
  have hrsq := rsq_congr (readsSameFrom_frame (s := s) (t := s.redeclared fb k) (lo := 9) rfl
    fun a ha => hread a (by omega)) s.params.tsBit63 (le_refl 9)
  have hp : (s.redeclared fb k).params = s.params := rfl
  rcases s.frameCodec_cases c l with ⟨hc, hs⟩ | ⟨f, rfl, hq, hs⟩ | ⟨q, rfl, hq, hs⟩ <;> rw [hs]
  · exact ⟨k, State.frameCodec_of_ne_codec8 _ hc l'⟩
  · exact ⟨k, State.frameCodec_of_rsq_error (hrsq.trans hq) l'⟩
  · exact ⟨l', State.frameCodec_of_rsq (hrsq.trans hq) l'⟩

theorem exec_route_redeclared (hp : s.params.strictLength = false) (r : BitVec 5) (k : BitVec 32) :
    ∃ t m, exec (.route r) s = .next t ∧ exec (.route r) (s.redeclared fb k) = .next (t.redeclared fb m) := by
  have hhv := hv_redeclared hread hp k
  rcases execRoute_cases r s with ⟨f, hf, hs⟩ | ⟨c, l, hc, hs⟩
  · rw [hf] at hhv
    exact ⟨_, k, hs, exec_route_of_error r hhv⟩
  · rw [hc] at hhv
    exact ⟨_, _, hs, exec_route_of_ok r hhv⟩

theorem exec_frame_redeclared (hp : s.params.strictLength = false) (r : BitVec 5) (k : BitVec 32) :
    ∃ t m, exec (.frame r) s = .next t ∧ exec (.frame r) (s.redeclared fb k) = .next (t.redeclared fb m) := by
  have hhv := hv_redeclared hread hp k
  rcases execFrame_cases r s with ⟨f, hf, hs⟩ | ⟨c, l, hc, hs⟩
  · rw [hf] at hhv
    exact ⟨_, k, hs, exec_frame_of_error r hhv⟩
  · rw [hc] at hhv
    obtain ⟨m, hm⟩ := frameCodec_redeclared hread c l (declaredLength (s.redeclared fb k).frame) k
    exact ⟨_, m, hs, (exec_frame_of_ok r hhv).trans (congrArg _ hm)⟩

end

/-- Settles O53: the second run starts from `redeclared` with the declared length that `s` holds. -/
theorem declaredLengthIsInformational : Obligations.DeclaredLengthIsInformational := by
  intro r i s t fb hi hp hread ht
  have hrun : ∃ u m, exec i s = .next u ∧ exec i (s.redeclared fb s.route.declLen) = .next (u.redeclared fb m) := by
    rcases hi with rfl | rfl
    · exact exec_frame_redeclared hread hp r _
    · exact exec_route_redeclared hread hp r _
  obtain ⟨u, m, hu, hx⟩ := hrun
  cases hu.symm.trans ht
  exact ⟨m, hx⟩

/-! ## What ROUTE leaves unchanged -/

/-- R20, R46: no operation writes its inputs or the buffer. -/
theorem exec_keepsInputs {i : Instr} {s t : State} (h : exec i s = .next t) : s.KeepsInputs t := by
  have hread : ∀ a, Memory.read t.fb a = Memory.read s.fb a := fun a => by rw [exec_fb h]
  cases ending_of_exec h <;> exact ⟨rfl, hread, rfl, rfl, rfl, rfl, rfl, rfl, rfl, rfl, rfl⟩

/-- ROUTE and, under ROUTE, a codec row end in a failure or in the report of a codec. -/
theorem exec_route_or_codec_cases {r : BitVec 5} {c : Codec} {l : BitVec 32} {i : Instr} {s t : State}
    (hi : i = .route r ∨ (i = c.instr l ∧ ∀ q, decodeCtrl s.job.word ≠ .ok (.frame q))) (ht : exec i s = .next t) :
    (∃ f, t = s.fail f) ∨ ∃ c' l', t = s.routeCodec c' l' := by
  rcases hi with rfl | ⟨rfl, hw⟩
  · rcases execRoute_cases r s with ⟨f, -, hs⟩ | ⟨c', l', -, hs⟩ <;> cases hs.symm.trans ht
    · exact .inl ⟨f, rfl⟩
    · exact .inr ⟨c', l', rfl⟩
  · cases (exec_codec_of_not_frame hw c l).symm.trans ht
    exact .inr ⟨c, l, rfl⟩

/-- Settles O55: a failure leaves every result, the report of a codec every one but the route group. -/
theorem routeFormsFrame : Obligations.RouteFormsFrame := by
  intro r c l i s t hi ht
  refine ⟨exec_keepsInputs ht, ?_⟩
  rcases exec_route_or_codec_cases hi ht with ⟨f, rfl⟩ | ⟨c', l', rfl⟩
  · exact ⟨⟨rfl, rfl, rfl⟩, ⟨rfl, rfl, rfl⟩, rfl, nofun, fun _ => rfl⟩
  · exact ⟨⟨rfl, rfl, rfl⟩, ⟨rfl, rfl, rfl⟩, rfl, fun _ => rfl, fun hk => absurd rfl hk⟩

end Sys2Proof.Machine

/-! PROOFS. TSD and TS (42_timestamp.md): the value a timestamp's bytes hold as a signed number, how TS ends, and what
it and the other operations on a single unit, GPS, IOE and FIELD, leave unchanged. -/

namespace Sys2Proof.Machine

/-! ## How TS ends -/

/-- R117, R118: the signed reading of at most eight bytes in their container. -/
theorem zext64_be_toInt {b : List Byte} (h : b.length ≤ 8) :
    (zext64 (be b)).toInt = if be b < 2 ^ 63 then (be b : Int) else be b - 2 ^ 64 := by
  rw [BitVec.toInt_eq_toNat_cond, zext64_be_toNat h]
  exact if_congr (by omega) rfl rfl

theorem exec_ts_of_timestampFits (r : BitVec 5) {s : State} (hroom : s.job.argOff + 8 ≤ s.job.flen)
    (hf : timestampFits s.params.tsBit63 (s.bytes s.job.argOff 8)) :
    exec (.ts r) s = .next
      ((s.modifyRec0 fun r => { r with ts := zext64 (be (s.bytes s.job.argOff 8)) }).finishOk
        { Valid.clear with ts := true } false false (s.job.argOff + 8)) := by
  rcases execTs_cases r s with ⟨hshort | hbad, -⟩ | ⟨-, -, hx⟩
  · omega
  · exact absurd hf hbad
  · exact hx

theorem exec_ts_of_malformed (r : BitVec 5) {s : State}
    (h : s.job.flen < s.job.argOff + 8 ∨ ¬timestampFits s.params.tsBit63 (s.bytes s.job.argOff 8)) :
    exec (.ts r) s = .next (s.failedWith .malformedField s.job.argOff s.job.argOff) := by
  rcases execTs_cases r s with ⟨-, hx⟩ | ⟨hroom, hf, -⟩
  · exact hx
  · exact absurd h (by simp [hroom, hf])

/-- Settles O25: the value is below `2 ^ 63` or TSD goes by its policy; the cursor ends behind the eight bytes. -/
theorem timestampOperation : Obligations.TimestampOperation := by
  intro r s u stored
  have hvalue := zext64_be_toInt (s.bytes_length s.job.argOff 8).le
  refine ⟨decode_encode (.ts r), fun hroom hlt => ?_, fun hroom hge hp => ?_, fun _ hge hp => ?_, fun hshort => ?_⟩
  · exact ⟨_, _, hvalue.trans (if_pos hlt), exec_ts_of_timestampFits r hroom (.inl hlt)⟩
  · exact ⟨_, _, hvalue.trans (if_neg (Nat.not_lt.mpr hge)), exec_ts_of_timestampFits r hroom (.inr hp)⟩
  · refine exec_ts_of_malformed r (.inr ?_)
    rintro (hlt | hwrap)
    · exact absurd hlt (Nat.not_lt.mpr hge)
    · cases hp.symm.trans hwrap
  · exact exec_ts_of_malformed r (.inl hshort)

/-! ## What TS, GPS, IOE and FIELD leave unchanged -/

/-- The entries beyond the first are the tail of the store. -/
theorem State.keepsOtherRecords_of_tail {s t : State} (hn : t.recN = s.recN) (hc : t.recCnt = s.recCnt)
    (h : t.recs.tail = s.recs.tail) : s.KeepsOtherRecords t := by
  refine ⟨hn, hc, fun k hk => ?_⟩
  obtain ⟨j, rfl⟩ := Nat.exists_eq_succ_of_ne_zero hk.ne'
  simp only [State.recAt, List.getD_eq_getElem?_getD, Nat.succ_eq_add_one, ← List.getElem?_tail, h]

/-- Settles O57: a failure leaves every result, a finish every one but the operation's own, and the FIELD that R89
refuses all of them. -/
theorem unitOperationsFrame : Obligations.UnitOperationsFrame := by
  intro r s t
  refine ⟨fun ht => ⟨exec_keepsInputs ht, ?_⟩, fun ht => ⟨exec_keepsInputs ht, ?_⟩,
    fun ht => ⟨exec_keepsInputs ht, ?_⟩, fun ht => ⟨exec_keepsInputs ht, ?_⟩⟩
  · rcases execTs_cases r s with ⟨-, hx⟩ | ⟨-, -, hx⟩ <;> cases hx.symm.trans ht
    · exact ⟨⟨rfl, rfl, rfl⟩, State.keepsOtherRecords_of_tail rfl rfl rfl, rfl, rfl, rfl, nofun⟩
    · exact ⟨⟨rfl, rfl, rfl⟩, State.keepsOtherRecords_of_tail rfl rfl rfl, rfl, rfl, rfl, fun _ => rfl⟩
  · rcases execGps_cases r s with ⟨-, hx⟩ | ⟨-, hx⟩ <;> cases hx.symm.trans ht
    · exact ⟨⟨rfl, rfl, rfl⟩, State.keepsOtherRecords_of_tail rfl rfl rfl, rfl, rfl, rfl, nofun⟩
    · exact ⟨⟨rfl, rfl, rfl⟩, State.keepsOtherRecords_of_tail rfl rfl rfl, rfl, rfl, rfl, fun _ => rfl⟩
  · cases ht
    exact ⟨State.keepsOtherRecords_of_tail rfl rfl rfl, rfl, rfl, rfl, rfl, rfl⟩
  · rcases execField_cases r s with ⟨-, hx⟩ | ⟨-, -, hx⟩ | ⟨-, -, hx⟩ <;> cases hx.symm.trans ht
    · exact ⟨⟨rfl, rfl, rfl⟩, rfl, rfl, fun _ => rfl⟩
    · exact ⟨⟨rfl, rfl, rfl⟩, rfl, rfl, nofun⟩
    · exact ⟨⟨rfl, rfl, rfl⟩, rfl, rfl, fun _ => rfl⟩

end Sys2Proof.Machine

/-! PROOFS. GPD and GPS (43_gps.md): the fix by the bytes of the buffer each field stands in, how GPS ends, and what
byte 13 of the block bears on. -/

namespace Sys2Proof.Machine

/-! ## The fix of a block in the buffer -/

/-- R123, R125, R126: each field of the fix from bytes of its own, none from byte 13. -/
theorem State.gpd_bytes (s : State) (a : Nat) : gpd (s.bytes a 15) =
    { lat := zext64 (be (s.bytes a 4)), lon := zext64 (be (s.bytes (a + 4) 4))
      alt := zext64 (be (s.bytes (a + 8) 2)), ang := zext64 (be (s.bytes (a + 10) 2))
      sat := zext64 (be (s.bytes (a + 12) 1)), spd := zext64 (be (s.bytes (a + 14) 1)) } := by
  simp [gpd, s.slice_bytes]

/-- R125: two buffers that agree everywhere but at byte 13 of the block give equal fixes. -/
theorem State.gpd_bytes_congr {s t : State} {a : Nat}
    (h : ∀ b, b ≠ a + 13 → Memory.read t.fb b = Memory.read s.fb b) : gpd (t.bytes a 15) = gpd (s.bytes a 15) := by
  have hbytes (lo n : Nat) (hskip : lo + n ≤ a + 13 ∨ a + 14 ≤ lo) : t.bytes lo n = s.bytes lo n :=
    State.bytes_congr fun b _ _ => h b (by omega)
  rw [s.gpd_bytes, t.gpd_bytes, hbytes a 4 (by omega), hbytes (a + 4) 4 (by omega), hbytes (a + 8) 2 (by omega),
    hbytes (a + 10) 2 (by omega), hbytes (a + 12) 1 (by omega), hbytes (a + 14) 1 (by omega)]

/-! ## How GPS ends -/

theorem exec_gps_of_short (r : BitVec 5) {s : State} (h : s.job.flen < s.job.argOff + 15) :
    exec (.gps r) s = .next (s.fail ⟨.malformedField, s.job.argOff, s.job.argOff⟩) := by
  rcases execGps_cases r s with ⟨-, hx⟩ | ⟨hroom, -⟩
  · exact hx
  · omega

theorem exec_gps_of_gpd (r : BitVec 5) {s : State} {fix : Fix} (hroom : s.job.argOff + 15 ≤ s.job.flen)
    (hfix : gpd (s.bytes s.job.argOff 15) = fix) :
    exec (.gps r) s = .next ((s.modifyRec0 fun r => r.withFix fix).finishOk { Valid.clear with gps := true } false false
      (s.job.argOff + 15)) := by
  rcases execGps_cases r s with ⟨hshort, -⟩ | ⟨-, hx⟩
  · omega
  · rwa [hfix] at hx

/-- Settles O26: by the room for the fifteen bytes; the cursor ends behind them. -/
theorem gpsOperation : Obligations.GpsOperation := by
  intro r s field
  refine ⟨decode_encode (.gps r), fun hroom => ⟨s.job.argOff + 15, ?_⟩, fun hshort => ?_⟩
  · exact exec_gps_of_gpd r hroom (s.gpd_bytes s.job.argOff)
  · exact exec_gps_of_short r hshort

/-! ## Byte 13 -/

/-- R125: whether GPS succeeds is a matter of the latched length alone, and byte 13 is not in the fix. -/
theorem exec_gps_with_fb (r : BitVec 5) {s t : State} {fb : List Host.Cell}
    (hread : ∀ a, a ≠ s.job.argOff + 13 → Memory.read fb a = Memory.read s.fb a) (ht : exec (.gps r) s = .next t) :
    exec (.gps r) { s with fb := fb } = .next { t with fb := fb } := by
  rcases execGps_cases r s with ⟨hshort, hx⟩ | ⟨hroom, hx⟩ <;> cases hx.symm.trans ht
  · exact exec_gps_of_short r hshort
  · exact exec_gps_of_gpd (s := { s with fb := fb }) r hroom (State.gpd_bytes_congr hread)

/-- Settles O27: the noninterference is `exec_gps_with_fb`; GPS wants room for all fifteen bytes, byte 13 among them. -/
theorem gpsIgnoresByte13 : Obligations.GpsIgnoresByte13 := by
  refine ⟨fun r s t fb hread ht => exec_gps_with_fb r hread ht, fun r s => ?_⟩
  rcases execGps_cases r s with ⟨hshort, hx⟩ | ⟨hroom, hx⟩
  · exact ⟨_, hx, fun _ => rfl, fun hlen => by omega⟩
  · exact ⟨_, hx, fun hlen => by omega, fun _ => rfl⟩

end Sys2Proof.Machine

/-! PROOFS. IOP and IOE (44_io_elements.md): the section of a frame by the items it is made of, read whole, cut after
any of its bytes, or announced by another total byte. -/

namespace Sys2Proof.Machine

/-! ## The bytes that FX answers -/

theorem standsAt_byte_of_lt {fr : List Byte} {off : Nat} (h : off < fr.length) : StandsAt fr off [fr[off]] :=
  ⟨fr.drop (off + 1), (List.drop_eq_getElem_cons h).symm⟩

theorem length_of_fx {fr b : List Byte} {cur n : Nat} (h : fx fr cur n = some b) : b.length = n := by
  obtain ⟨hroom, rfl⟩ := fx_eq_some_iff.mp h
  rw [length_slice hroom, Nat.add_sub_cancel_left]

/-- R85: what FX answers stands at the cursor. -/
theorem standsAt_of_fx {fr b : List Byte} {cur n : Nat} (h : fx fr cur n = some b) : StandsAt fr cur b := by
  obtain ⟨-, rfl⟩ := fx_eq_some_iff.mp h
  rw [slice, Nat.add_sub_cancel_left]
  exact List.take_prefix ..

theorem StandsAt.append_frame {fr b : List Byte} {cur : Nat} (h : StandsAt fr cur b) (more : List Byte) :
    StandsAt (fr ++ more) cur b := by
  unfold StandsAt at h ⊢
  rw [List.drop_append]
  exact h.trans (List.prefix_append ..)

/-- R134, R141, R147: behind its total byte a section is its groups. -/
theorem iop_of_total {fr : List Byte} {off : Nat} {total : Byte} (h : StandsAt fr off [total]) :
    iop fr off =
      let r := parseGroups fr widthClasses (off + 1)
      ⟨r.elems, total.toNat, r.cur - off, r.stopped, total.toNat != r.elems.length⟩ := by
  simp only [iop, h.fx_byte, be_singleton, ioMismatch]

/-- R139: an element that does not stand whole stops its group. -/
theorem parseGroup_of_fx_none {fr : List Byte} {w cur : Nat} (g : Nat) (h : fx fr cur (1 + w) = none) :
    parseGroup fr w (g + 1) cur = ⟨[], cur, true⟩ := by
  simp only [parseGroup, h]

/-- R137: an absent count byte stops the parse. -/
theorem parseGroups_of_fx_none {fr : List Byte} {cur : Nat} (w : Nat) (ws : List Nat) (h : fx fr cur 1 = none) :
    parseGroups fr (w :: ws) cur = ⟨[], cur, true⟩ := by
  simp only [parseGroups, h]

/-! ## A section read whole -/

theorem elementBytes_length {w : Nat} {e : Byte × List Byte} (h : e.2.length = w) :
    (elementBytes e).length = 1 + w := by
  rw [elementBytes, List.length_cons, h, Nat.add_comm]

theorem flatMap_elementBytes_length {w : Nat} {es : List (Byte × List Byte)} (hw : ∀ e ∈ es, e.2.length = w) :
    (es.flatMap elementBytes).length = (1 + w) * es.length := by
  have hone : es.map (fun e => (elementBytes e).length) = es.map fun _ => 1 + w :=
    List.map_congr_left fun e he => elementBytes_length (hw e he)
  rw [List.length_flatMap, hone, List.map_const', List.sum_replicate, smul_eq_mul, Nat.mul_comm]

theorem groupBytes_length {w : Nat} {es : List (Byte × List Byte)} (hg : legalGroup w es) :
    (groupBytes es).length = 1 + (1 + w) * es.length := by
  rw [groupBytes, List.length_cons, flatMap_elementBytes_length hg.2, Nat.add_comm]

/-- R65, R146: the length of a section by its group counts. -/
theorem sectionBytes_length (total : Byte) {g1 g2 g4 g8 : List (Byte × List Byte)}
    (h1 : legalGroup 1 g1) (h2 : legalGroup 2 g2) (h4 : legalGroup 4 g4) (h8 : legalGroup 8 g8) :
    (sectionBytes total g1 g2 g4 g8).length =
      5 + 2 * g1.length + 3 * g2.length + 5 * g4.length + 9 * g8.length := by
  simp only [sectionBytes, List.length_cons, List.length_append, groupBytes_length h1, groupBytes_length h2,
    groupBytes_length h4, groupBytes_length h8]
  omega

/-- Settles O29: the section stands behind `before`. -/
theorem iopReadsWireSection : Obligations.IopReadsWireSection := by
  intro before after total g1 g2 g4 g8 h1 h2 h4 h8 section_ elems
  have h : StandsAt (before ++ section_ ++ after) before.length (sectionBytes total g1 g2 g4 g8) :=
    ⟨after, by simp [section_, sectionBytes]⟩
  rw [iop_of_standsAt h1 h2 h4 h8 h, sectionBytes_length total h1 h2 h4 h8]

/-! ## A section that was not truncated -/

/-- R138: when a group does not stop, all its elements stand in the frame. -/
theorem parseGroup_whole {fr : List Byte} {w g cur : Nat} (h : (parseGroup fr w g cur).stopped = false) :
    ∃ es : List (Byte × List Byte), es.length = g ∧ (∀ e ∈ es, e.2.length = w) ∧
      StandsAt fr cur (es.flatMap elementBytes) := by
  induction g generalizing cur with
  | zero => exact ⟨[], rfl, nofun, List.nil_prefix⟩
  | succ g ih =>
    unfold parseGroup at h
    split at h
    · cases h
    · next b hb =>
      obtain ⟨es, hlen, hw, hes⟩ := ih h
      have hblen := length_of_fx hb
      cases b with
      | nil => rw [List.length_nil] at hblen; omega
      | cons x v =>
        have hv : v.length = w := by rw [List.length_cons] at hblen; omega
        refine ⟨(x, v) :: es, by rw [List.length_cons, hlen], List.forall_mem_cons.mpr ⟨hv, hw⟩, ?_⟩
        rw [List.flatMap_cons, standsAt_append_iff]
        exact ⟨standsAt_of_fx hb, by rwa [elementBytes, hblen, ← Nat.add_assoc]⟩

/-- R136, R137: when the groups do not stop, the first stands whole in the frame and the rest do not stop behind it. -/
theorem parseGroups_cons_whole {fr : List Byte} {w cur : Nat} {ws : List Nat}
    (h : (parseGroups fr (w :: ws) cur).stopped = false) :
    ∃ es, legalGroup w es ∧ StandsAt fr cur (groupBytes es) ∧
      (parseGroups fr ws (cur + (groupBytes es).length)).stopped = false := by
  cases hc : fx fr cur 1 with
  | none => simp [parseGroups_of_fx_none w ws hc] at h
  | some c =>
    obtain ⟨x, rfl⟩ := List.length_eq_one_iff.mp (length_of_fx hc)
    have hgroup : (parseGroup fr w x.toNat (cur + 1)).stopped = false := by
      cases hs : (parseGroup fr w x.toNat (cur + 1)).stopped with
      | false => rfl
      | true => simp [parseGroups, hc, hs] at h
    obtain ⟨es, hcount, hw, hes⟩ := parseGroup_whole hgroup
    have hlegal : legalGroup w es := ⟨by have := x.isLt; omega, hw⟩
    have hstands : StandsAt fr cur (groupBytes es) :=
      standsAt_cons_iff.mpr ⟨by simpa [hcount] using standsAt_of_fx hc, hes⟩
    rw [parseGroups_of_standsAt hlegal hstands] at h
    exact ⟨es, hlegal, hstands, h⟩

/-- R146: when `IO_TR = 0` a legal section stands in the frame. -/
theorem standsAt_section_of_untruncated {fr : List Byte} {off : Nat} (h : (iop fr off).tr = false) :
    ∃ total g1 g2 g4 g8, legalGroup 1 g1 ∧ legalGroup 2 g2 ∧ legalGroup 4 g4 ∧ legalGroup 8 g8 ∧
      StandsAt fr off (sectionBytes total g1 g2 g4 g8) := by
  have hoff : off < fr.length := by
    by_contra hle
    simp [(iop_of fr off).absent (Nat.not_lt.mp hle)] at h
  have ht := standsAt_byte_of_lt hoff
  rw [iop_of_total ht] at h
  obtain ⟨g1, h1, hg1, h⟩ := parseGroups_cons_whole h
  obtain ⟨g2, h2, hg2, h⟩ := parseGroups_cons_whole h
  obtain ⟨g4, h4, hg4, h⟩ := parseGroups_cons_whole h
  obtain ⟨g8, h8, hg8, -⟩ := parseGroups_cons_whole h
  refine ⟨_, g1, g2, g4, g8, h1, h2, h4, h8, standsAt_cons_iff.mpr ⟨ht, ?_⟩⟩
  simp only [standsAt_append_iff, List.length_append, ← Nat.add_assoc]
  exact ⟨⟨⟨hg1, hg2⟩, hg4⟩, hg8⟩

/-- Settles O30: the section that stands there is what IOP reads. -/
theorem untruncatedSectionIsWhole : Obligations.UntruncatedSectionIsWhole := by
  intro fr off htr
  obtain ⟨total, g1, g2, g4, g8, h1, h2, h4, h8, h⟩ := standsAt_section_of_untruncated htr
  rw [iop_of_standsAt h1 h2 h4 h8 h]
  exact ⟨total, g1, g2, g4, g8, h1, h2, h4, h8, h.slice_eq rfl, sectionBytes_length total h1 h2 h4 h8, rfl⟩

/-! ## A section that the end of the frame cuts -/

/-- The frame ends after the first `k` bytes of `b`, which begin at offset `cur`. -/
def CutAt (fr : List Byte) (cur : Nat) (b : List Byte) (k : Nat) : Prop := k < b.length ∧ fr.drop cur = b.take k

theorem CutAt.fx_none {fr b : List Byte} {cur k n : Nat} (h : CutAt fr cur b k) (hn : k < n) : fx fr cur n = none := by
  obtain ⟨hk, hdrop⟩ := h
  have hlen := congrArg List.length hdrop
  rw [List.length_drop, List.length_take, Nat.min_eq_left hk.le] at hlen
  exact fx_eq_none_iff.mpr (by omega)

/-- The cut lies in the first part, or the first part stands whole and the cut lies in the second. -/
theorem CutAt.append_cases {fr a b : List Byte} {cur k : Nat} (h : CutAt fr cur (a ++ b) k) :
    CutAt fr cur a k ∨ a.length ≤ k ∧ StandsAt fr cur a ∧ CutAt fr (cur + a.length) b (k - a.length) := by
  obtain ⟨hk, hdrop⟩ := h
  rw [List.length_append] at hk
  rw [List.take_append] at hdrop
  by_cases ha : k < a.length
  · exact .inl ⟨ha, by rw [hdrop, Nat.sub_eq_zero_of_le ha.le, List.take_zero, List.append_nil]⟩
  · have hle := Nat.not_lt.mp ha
    rw [List.take_of_length_le hle] at hdrop
    refine .inr ⟨hle, ⟨_, hdrop.symm⟩, by omega, ?_⟩
    rw [← List.drop_drop, hdrop, List.drop_left]

/-- R138: an element as an item of its section. -/
def elementItem (w : Nat) (e : Byte × List Byte) : SectionItem := ⟨1 + w, some (wireElem w e)⟩

/-- R65: a group is its count byte and its elements. -/
theorem groupItems_eq (w : Nat) (es : List (Byte × List Byte)) :
    groupItems w es = ⟨1, none⟩ :: es.map (elementItem w) := rfl

theorem groupItems_elems (w : Nat) (es : List (Byte × List Byte)) :
    (groupItems w es).filterMap SectionItem.elem = es.map (wireElem w) := by
  simp [groupItems, List.filterMap_map]

theorem groupItems_size {w : Nat} {es : List (Byte × List Byte)} (hg : legalGroup w es) :
    ((groupItems w es).map SectionItem.size).sum = (groupBytes es).length := by
  rw [groupBytes_length hg]
  simp [groupItems, Function.comp_def, Nat.mul_comm]

/-- R137, R139, R145: a parse from `cur` on that a lenient stop ends behind the whole items `xs`. -/
def GroupResult.stoppedAfter (xs : List SectionItem) (cur : Nat) : GroupResult :=
  ⟨xs.filterMap SectionItem.elem, cur + (xs.map SectionItem.size).sum, true⟩

/-- R139: a cut among the elements of a group. -/
theorem parseGroup_of_cutAt {fr : List Byte} {w : Nat} {es : List (Byte × List Byte)} {cur k : Nat}
    (hw : ∀ e ∈ es, e.2.length = w) (h : CutAt fr cur (es.flatMap elementBytes) k) :
    parseGroup fr w es.length cur = .stoppedAfter (wholeItems k (es.map (elementItem w))) cur := by
  induction es generalizing cur k with
  | nil => exact absurd h.1 (Nat.not_lt_zero k)
  | cons e es ih =>
    have hlen := elementBytes_length (hw e (List.mem_cons_self ..))
    rw [List.flatMap_cons] at h
    rcases h.append_cases with hcut | ⟨hk, he, hes⟩
    · have hk : k < 1 + w := hlen ▸ hcut.1
      rw [List.map_cons, wholeItems, if_neg (show ¬(elementItem w e).size ≤ k from Nat.not_le.mpr hk)]
      exact parseGroup_of_fx_none _ (hcut.fx_none hk)
    · rw [hlen] at hk hes
      rw [← Nat.add_assoc] at hes
      have hrest := ih (fun x hx => hw x (List.mem_cons_of_mem _ hx)) hes
      simp only [List.length_cons, parseGroup, he.fx_eq hlen (by omega), hrest, mkElem_elementBytes, List.map_cons,
        wholeItems, elementItem, if_pos hk, GroupResult.stoppedAfter, List.filterMap_cons, List.sum_cons,
        ← Nat.add_assoc]

/-- R137, R139: a cut inside a group ends the parse, whatever classes were to follow. -/
theorem parseGroups_of_cutAt_group {fr : List Byte} {w : Nat} {es : List (Byte × List Byte)} {cur k : Nat}
    (hg : legalGroup w es) (h : CutAt fr cur (groupBytes es) k) (ws : List Nat) :
    parseGroups fr (w :: ws) cur = .stoppedAfter (wholeItems k (groupItems w es)) cur := by
  obtain ⟨hcount, hw⟩ := hg
  rcases CutAt.append_cases (a := [BitVec.ofNat 8 es.length]) h with hcut | ⟨hk, hc, hes⟩
  · have hk : k < 1 := hcut.1
    rw [groupItems_eq, wholeItems, if_neg (Nat.not_le.mpr hk)]
    exact parseGroups_of_fx_none w ws (hcut.fx_none hk)
  · rw [List.length_singleton] at hk hes
    have hgroup := parseGroup_of_cutAt hw hes
    simp only [parseGroups, hc.fx_byte, be_count hcount, hgroup, groupItems_eq, wholeItems, if_pos hk,
      GroupResult.stoppedAfter, if_true, List.filterMap_cons, List.map_cons, List.sum_cons, ← Nat.add_assoc]

/-- R65: the bytes of groups, each with its width class. -/
def groupsBytes (gs : List (Nat × List (Byte × List Byte))) : List Byte := gs.flatMap fun g => groupBytes g.2

/-- R65: the items of groups, each with its width class. -/
def groupsItems (gs : List (Nat × List (Byte × List Byte))) : List SectionItem := gs.flatMap fun g => groupItems g.1 g.2

/-- R133, R137, R139, R145: of groups that the end of the frame cuts, the parse takes the items whole before the cut. -/
theorem parseGroups_of_cutAt {fr : List Byte} {gs : List (Nat × List (Byte × List Byte))} {cur k : Nat}
    (hgs : ∀ g ∈ gs, legalGroup g.1 g.2) (h : CutAt fr cur (groupsBytes gs) k) :
    parseGroups fr (gs.map Prod.fst) cur = .stoppedAfter (wholeItems k (groupsItems gs)) cur := by
  induction gs generalizing cur k with
  | nil => exact absurd h.1 (Nat.not_lt_zero k)
  | cons g gs ih =>
    obtain ⟨hg, hrest⟩ := List.forall_mem_cons.mp hgs
    have hsize := groupItems_size hg
    have hitems : groupsItems (g :: gs) = groupItems g.1 g.2 ++ groupsItems gs := rfl
    rw [hitems]
    rcases CutAt.append_cases (a := groupBytes g.2) (b := groupsBytes gs) h with hcut | ⟨hk, hwhole, hcut⟩
    · rw [wholeItems_append_of_lt _ _ _ (hsize ▸ hcut.1)]
      exact parseGroups_of_cutAt_group hg hcut _
    · rw [wholeItems_append_of_le _ _ _ (hsize ▸ hk), List.map_cons, parseGroups_of_standsAt hg hwhole, ih hrest hcut]
      simp only [GroupResult.stoppedAfter, List.filterMap_append, groupItems_elems, List.map_append, List.sum_append,
        hsize, Nat.add_assoc]

/-- R65: the groups of a section with their width classes. -/
def sectionGroups (g1 g2 g4 g8 : List (Byte × List Byte)) : List (Nat × List (Byte × List Byte)) :=
  [(1, g1), (2, g2), (4, g4), (8, g8)]

theorem sectionBytes_eq (total : Byte) (g1 g2 g4 g8 : List (Byte × List Byte)) :
    sectionBytes total g1 g2 g4 g8 = [total] ++ groupsBytes (sectionGroups g1 g2 g4 g8) := by
  simp [sectionBytes, groupsBytes, sectionGroups]

theorem sectionItems_eq (g1 g2 g4 g8 : List (Byte × List Byte)) :
    sectionItems g1 g2 g4 g8 = ⟨1, none⟩ :: groupsItems (sectionGroups g1 g2 g4 g8) := by
  simp [sectionItems, groupsItems, sectionGroups]

/-- R137, R139, R145: a section whose total byte stands and that the end of the frame cuts. -/
theorem iop_of_cutAt {fr : List Byte} {off k : Nat} {total : Byte} {g1 g2 g4 g8 : List (Byte × List Byte)}
    (h1 : legalGroup 1 g1) (h2 : legalGroup 2 g2) (h4 : legalGroup 4 g4) (h8 : legalGroup 8 g8) (hk : 0 < k)
    (h : CutAt fr off (sectionBytes total g1 g2 g4 g8) k) :
    iop fr off =
      let whole := wholeItems k (sectionItems g1 g2 g4 g8)
      let elems := whole.filterMap SectionItem.elem
      ⟨elems, total.toNat, (whole.map SectionItem.size).sum, true, total.toNat != elems.length⟩ := by
  have hlegal : ∀ g ∈ sectionGroups g1 g2 g4 g8, legalGroup g.1 g.2 := by
    simp only [sectionGroups, List.forall_mem_cons]
    exact ⟨h1, h2, h4, h8, nofun⟩
  rw [sectionBytes_eq] at h
  rcases h.append_cases with hcut | ⟨-, ht, hcut⟩
  · exact absurd hcut.1 (Nat.not_lt.mpr hk)
  · have hgroups : parseGroups fr widthClasses (off + 1) = _ := parseGroups_of_cutAt hlegal hcut
    rw [iop_of_total ht, hgroups, sectionItems_eq, wholeItems, if_pos (show 1 ≤ k from hk)]
    simp only [GroupResult.stoppedAfter, List.length_singleton, List.filterMap_cons, List.map_cons, List.sum_cons,
      Nat.add_assoc, Nat.add_sub_cancel_left]

/-! ## Bytes added at the end of the frame -/

/-- R139: a parse with more bytes there goes on behind what it took without them, and only when it was cut. -/
structure GroupResult.ExtendedBy (r q : GroupResult) : Prop where
  elems : r.elems <+: q.elems
  cur : r.cur ≤ q.cur
  whole : r.stopped = false → q = r

theorem fx_append_frame {fr b : List Byte} {cur n : Nat} (h : fx fr cur n = some b) (hn : 0 < n) (more : List Byte) :
    fx (fr ++ more) cur n = some b :=
  ((standsAt_of_fx h).append_frame more).fx_eq (length_of_fx h) hn

theorem parseGroup_append_frame (fr more : List Byte) (w g cur : Nat) :
    (parseGroup fr w g cur).ExtendedBy (parseGroup (fr ++ more) w g cur) := by
  induction g generalizing cur with
  | zero => exact ⟨List.prefix_rfl, le_rfl, fun _ => rfl⟩
  | succ g ih =>
    cases he : fx fr cur (1 + w) with
    | none =>
      have hforward := (parseGroup_of (fr ++ more) w (g + 1) cur).cursor
      rw [parseGroup_of_fx_none g he]
      exact ⟨List.nil_prefix, by rw [hforward]; exact Nat.le_add_right .., nofun⟩
    | some e =>
      obtain ⟨helems, hcur, hwhole⟩ := ih (cur + 1 + w)
      simp only [parseGroup, he, fx_append_frame he (by omega) more]
      exact ⟨List.cons_prefix_cons.mpr ⟨rfl, helems⟩, hcur, fun hs => by rw [hwhole hs]⟩

theorem parseGroups_append_frame (fr more : List Byte) {ws : List Nat} (hws : ∀ w ∈ ws, w ∈ widthClasses) (cur : Nat) :
    (parseGroups fr ws cur).ExtendedBy (parseGroups (fr ++ more) ws cur) := by
  induction ws generalizing cur with
  | nil => exact ⟨List.prefix_rfl, le_rfl, fun _ => rfl⟩
  | cons w ws ih =>
    have htail : ∀ w' ∈ ws, w' ∈ widthClasses := fun w' h => hws w' (List.mem_cons_of_mem _ h)
    cases hc : fx fr cur 1 with
    | none =>
      have hforward := (parseGroups_of (fr ++ more) (w :: ws) cur hws).forward
      rw [parseGroups_of_fx_none w ws hc]
      exact ⟨List.nil_prefix, hforward, nofun⟩
    | some c =>
      obtain ⟨helems, hcur, hwhole⟩ := parseGroup_append_frame fr more w (be c) (cur + 1)
      simp only [parseGroups, hc, fx_append_frame hc Nat.one_pos more]
      cases hs : (parseGroup fr w (be c) (cur + 1)).stopped with
      | false =>
        obtain ⟨qelems, qcur, qwhole⟩ := ih htail (parseGroup fr w (be c) (cur + 1)).cur
        simp only [hwhole hs, hs, Bool.false_eq_true, if_false]
        exact ⟨(List.prefix_append_right_inj _).mpr qelems, qcur, fun hq => by rw [qwhole hq]⟩
      | true =>
        have hforward := (parseGroups_of (fr ++ more) ws (parseGroup (fr ++ more) w (be c) (cur + 1)).cur htail).forward
        simp only [if_true]
        split
        · exact ⟨helems, hcur, fun h => nomatch hs.symm.trans h⟩
        · exact ⟨helems.trans (List.prefix_append ..), hcur.trans hforward, fun h => nomatch hs.symm.trans h⟩

/-- Settles O31: the cut after `k` bytes; the total byte absent; bytes added behind the frame. -/
theorem truncationKeepsDecodedElements : Obligations.TruncationKeepsDecodedElements := by
  refine ⟨?_, fun fr off h => (iop_of fr off).absent h, fun fr more off h => ?_⟩
  · intro before total g1 g2 g4 g8 k h1 h2 h4 h8 section_ whole elems hk hlt
    exact iop_of_cutAt h1 h2 h4 h8 hk ⟨hlt, List.drop_left⟩
  · have ht := standsAt_byte_of_lt h
    obtain ⟨helems, hcur, hwhole⟩ := parseGroups_append_frame fr more (fun _ hw => hw) (off + 1)
    rw [iop_of_total ht, iop_of_total (ht.append_frame more)]
    exact ⟨helems, Nat.sub_le_sub_right hcur off, fun hs => by rw [hwhole hs]⟩

/-! ## The bounds of a section -/

/-- R149: each width class takes its count byte and at most 255 elements. -/
theorem parseGroups_cur_le (fr : List Byte) (ws : List Nat) (cur : Nat) :
    (parseGroups fr ws cur).cur ≤ cur + (ws.map fun w => 1 + (1 + w) * 255).sum := by
  induction ws generalizing cur with
  | nil => exact le_rfl
  | cons w ws ih =>
    rw [List.map_cons, List.sum_cons]
    cases hc : fx fr cur 1 with
    | none => simp [parseGroups_of_fx_none w ws hc]
    | some c =>
      have r := parseGroup_of fr w (be c) (cur + 1)
      have hgroup : (parseGroup fr w (be c) (cur + 1)).cur ≤ cur + (1 + (1 + w) * 255) := by
        rw [r.cursor, Nat.add_assoc]
        gcongr
        exact r.count.trans (count_byte_le hc)
      have hrest := ih (parseGroup fr w (be c) (cur + 1)).cur
      simp only [parseGroups, hc]
      split
      · omega
      · dsimp only
        omega

/-- R149: the total byte, the four count bytes and at most 255 elements of each class. -/
theorem iop_consumed_le (fr : List Byte) (off : Nat) : (iop fr off).consumed ≤ 4850 := by
  by_cases h : off < fr.length
  · have hcur := parseGroups_cur_le fr widthClasses (off + 1)
    rw [iop_of_total (standsAt_byte_of_lt h)]
    simp only [widthClasses, List.map_cons, List.map_nil, List.sum_cons, List.sum_nil] at hcur ⊢
    omega
  · rw [(iop_of fr off).absent (Nat.not_lt.mp h)]
    exact Nat.zero_le _

/-- Settles O32: the count and the end of the frame are in `iop_of`, the 4850 bytes in `iop_consumed_le`. -/
theorem ioSectionBounds : Obligations.IoSectionBounds := by
  intro fr off
  have io := iop_of fr off
  refine ⟨io.count, iop_consumed_le fr off, fun h => ?_, fun h => by rw [io.absent h]⟩
  have := io.inside h
  omega

/-! ## Another total byte -/

theorem readsSameFrom_set (fr : List Byte) (off : Nat) (x : Byte) : ReadsSameFrom (off + 1) fr (fr.set off x) := by
  intro c n hc
  rw [fx_eq, fx_eq, List.length_set, List.drop_set_of_lt hc]

/-- Settles O34: behind the total byte FX reads the same bytes, so the groups parse the same. -/
theorem totalDoesNotSteerParse : Obligations.TotalDoesNotSteerParse := by
  intro fr off x h
  have hx : StandsAt (fr.set off x) off [x] := by
    have hset := standsAt_byte_of_lt (show off < (fr.set off x).length by rwa [List.length_set])
    rwa [List.getElem_set_self] at hset
  rw [iop_of_total hx, iop_of_total (standsAt_byte_of_lt h), parseGroups_congr (readsSameFrom_set fr off x) _ le_rfl]

/-! ## Operation IOE -/

/-- Settles O28: the state of `execIoe`, with no case to split. -/
theorem ioeOperation : Obligations.IoeOperation :=
  fun r _ => ⟨decode_encode (.ioe r), rfl⟩

end Sys2Proof.Machine

/-! PROOFS. RSQ, REC and FRAME (45_record_sequencer.md): how RSQ answers on records that stand whole, on the first that
does not, and without a count byte; how REC and FRAME end by its answer, and what they leave unchanged. -/

namespace Sys2Proof.Machine

/-! ## RSQ's answers -/

theorem RecordsAt.length_eq {policy : TsBit63Policy} {fr : List Byte} {n cur fin : Nat} {rs : List Record}
    (h : RecordsAt policy fr n cur rs fin) : rs.length = n :=
  (readRecords_facts (readRecords_of_recordsAt h)).count

/-- R151: RSQ's loop returns whole records and nothing else. -/
theorem recordsAt_of_readRecords {policy : TsBit63Policy} {fr : List Byte} {n cur fin : Nat} {rs : List Record}
    (h : readRecords policy fr n cur = .ok (rs, fin)) : RecordsAt policy fr n cur rs fin := by
  induction n generalizing cur rs with
  | zero => cases h; exact .done _
  | succ n ih =>
    unfold readRecords at h
    split at h
    · cases h
    · next r next hr =>
      obtain ⟨hroom, hstamp, rfl, rfl⟩ := readRecord_ok_iff.mp hr
      split at h
      · cases h
      · next rs' fin' hrest => cases h; exact .more hroom hstamp (ih hrest)

theorem recordsAt_of_rsq {policy : TsBit63Policy} {fr : List Byte} {off : Nat} {q : RecResult}
    (h : rsq policy fr off = .ok q) : ∃ n, RecordsAt policy fr n (off + 1) q.recs q.fin := by
  unfold rsq at h
  split at h
  · cases h
  · next c _ =>
    split at h
    · cases h
    · next hrecs => cases h; exact ⟨be c, recordsAt_of_readRecords hrecs⟩

/-- R152. -/
theorem rsq_of_count_absent (policy : TsBit63Policy) {fr : List Byte} {off : Nat} (h : fr.length ≤ off) :
    rsq policy fr off = .error ⟨.malformedField, off, off⟩ := by
  simp only [rsq, fx_none (show fr.length < off + 1 from Nat.lt_succ_of_le h)]

/-- R154, R155: a pass fails with the fault of the record at its cursor, the fields tested in wire order. -/
theorem readRecord_of_recordFault {policy : TsBit63Policy} {fr : List Byte} {cur off : Nat} {c : Cause}
    (h : recordFault policy fr cur = some (c, off)) : readRecord policy fr cur = .error ⟨c, off, off⟩ := by
  unfold recordFault at h
  split at h
  · next h8 => cases h; simp only [readRecord, fx_none h8]
  · next h8 =>
    have hstamp := fx_some (Nat.not_lt.mp h8)
    split at h
    · next hfit => cases h; simp only [readRecord, hstamp, tsd_eq_none_iff.mpr hfit]
    · next hfit =>
      have htsd := tsd_eq_some_iff.mpr ⟨not_not.mp hfit, rfl⟩
      split at h
      · next h9 => cases h; simp only [readRecord, hstamp, htsd, fx_none (c := cur + 8) (n := 1) h9]
      · next h9 =>
        have hprio := fx_some (c := cur + 8) (n := 1) (Nat.not_lt.mp h9)
        split at h
        · next h24 =>
          cases h
          simp only [readRecord, hstamp, htsd, hprio, fx_none (c := cur + 9) (n := 15) h24]
        · cases h

/-- R151, R159: the loop ends at the first pass that fails, whatever records came before it. -/
theorem readRecords_of_readRecord_error {policy : TsBit63Policy} {fr : List Byte} {k n start cur : Nat}
    {rs : List Record} {f : Failure} (hrecs : RecordsAt policy fr k start rs cur) (hk : k < n)
    (hf : readRecord policy fr cur = .error f) : readRecords policy fr n start = .error f := by
  induction hrecs generalizing n with
  | done cur =>
    cases n with
    | zero => cases hk
    | succ n => simp only [readRecords, hf]
  | more room stamp _ ih =>
    cases n with
    | zero => cases hk
    | succ n =>
      simp only [readRecords, readRecord_ok_iff.mpr ⟨room, stamp, rfl, rfl⟩, ih (Nat.lt_of_succ_lt_succ hk) hf]

theorem rsq_of_readRecords_error {s : State} {off : Nat} {f : Failure} (hroom : off < s.job.flen)
    (h : readRecords s.params.tsBit63 s.frame (Memory.read s.fb off).toNat (off + 1) = .error f) :
    rsq s.params.tsBit63 s.frame off = .error f := by
  simp [rsq, s.fx_frame, Nat.succ_le_of_lt hroom, s.bytes_one, h]

/-! ## How REC ends -/

theorem exec_rec_of_rsq (r : BitVec 5) {s : State} {q : RecResult}
    (h : rsq s.params.tsBit63 s.frame s.job.argOff = .ok q) :
    exec (.recOp r) s = .next (s.commit q { Valid.clear with recs := true }) := by
  simp only [exec, execRec, decodeRecords, h]

theorem exec_rec_of_rsq_error (r : BitVec 5) {s : State} {f : Failure}
    (h : rsq s.params.tsBit63 s.frame s.job.argOff = .error f) : exec (.recOp r) s = .next (s.fail f) := by
  simp only [exec, execRec, decodeRecords, h]

/-- Settles O35: RSQ returns the records that stand there, and REC commits them. -/
theorem recCompletes : Obligations.RecCompletes := by
  intro r s rs fin hroom hrecs
  rw [← hrecs.length_eq]
  exact exec_rec_of_rsq r (rsq_of_recordsAt hroom hrecs)

/-- Settles O36: the pass at the bad record fails with its fault, and the loop with that pass. -/
theorem recFailsAtFirstBadRecord : Obligations.RecFailsAtFirstBadRecord := by
  intro r s rs k cur off c hroom hk hrecs hfault
  have hloop := readRecords_of_readRecord_error hrecs hk (readRecord_of_recordFault hfault)
  exact exec_rec_of_rsq_error r (rsq_of_readRecords_error hroom hloop)

/-- Settles O38: no record stands from anywhere on, so `recCompletes` applies. -/
theorem recOfZeroRecords : Obligations.RecOfZeroRecords := by
  intro r s hroom hzero
  have hx := recCompletes r s [] (s.job.argOff + 1) hroom (by rw [hzero]; exact .done _)
  rwa [hzero] at hx

/-! ## How FRAME ends -/

theorem exec_frame_of_rsq_error (r : BitVec 5) {s : State} {l : BitVec 32} {f : Failure}
    (hhv : hv s.params s.frame = .ok (.codec8, l)) (hq : rsq s.params.tsBit63 s.frame 9 = .error f) :
    exec (.frame r) s = .next (s.fail f) := by
  rw [exec_frame_of_ok r hhv, State.frameCodec_of_rsq_error hq]

/-- Settles O37: behind the last byte RSQ finds no count byte. -/
theorem recordCountAbsent : Obligations.RecordCountAbsent := by
  refine ⟨fun r s h => ?_, fun r s h9 hz hid hl => ?_⟩
  · exact exec_rec_of_rsq_error r (rsq_of_count_absent _ (by rwa [s.frame_length]))
  · exact exec_frame_of_rsq_error r (hv_of_codec (c := .codec8) h9.ge hz hl hid)
      (rsq_of_count_absent _ (by rw [s.frame_length, h9]))

/-- Settles O41: HV selects Codec8, and RSQ returns the records that stand from offset 10 on. -/
theorem frameCompletes : Obligations.FrameCompletes := by
  intro r s rs fin h10 hz hl hid hrecs
  rw [← hrecs.length_eq]
  exact exec_frame_of_rsq r (hv_of_codec (c := .codec8) (by omega) hz hl hid) (rsq_of_recordsAt h10 hrecs)

/-- Settles O42: the six ids are those of the codecs other than Codec8. -/
theorem frameRefusesOtherCodecs : Obligations.FrameRefusesOtherCodecs := by
  intro r s h9 hz hl hmem
  have hid : ∃ c : Codec, c ≠ .codec8 ∧ Memory.read s.fb 8 = c.id := by
    simp only [List.mem_cons, List.not_mem_nil, or_false] at hmem
    rcases hmem with h | h | h | h | h | h
    · exact ⟨.codec8Extended, nofun, h⟩
    · exact ⟨.codec12, nofun, h⟩
    · exact ⟨.codec13, nofun, h⟩
    · exact ⟨.codec14, nofun, h⟩
    · exact ⟨.codec15, nofun, h⟩
    · exact ⟨.codec16, nofun, h⟩
  obtain ⟨c, hc, hid⟩ := hid
  exact ⟨9, by rw [exec_frame_of_ok r (hv_of_codec h9 hz hl hid), s.frameCodec_of_ne_codec8 hc]⟩

/-- R95: ROUTE fails only where HV does. -/
theorem hv_of_exec_route_failed {r : BitVec 5} {s t : State} {c : Cause} (ht : exec (.route r) s = .next t)
    (hk : t.status.kind = .failed c) : ∃ f, hv s.params s.frame = .error f ∧ t = s.fail f := by
  rcases execRoute_cases r s with ⟨f, hf, hx⟩ | ⟨c', l, -, hx⟩ <;> cases hx.symm.trans ht
  · exact ⟨f, hf, rfl⟩
  · cases hk

/-- R95, R102: where ROUTE succeeds, `CODEC_SEL` is HV's selection. -/
theorem hv_of_exec_route_ok {r : BitVec 5} {s t : State} (ht : exec (.route r) s = .next t)
    (hk : t.status.kind = .ok) : ∃ l, hv s.params s.frame = .ok (t.route.codecSel, l) := by
  rcases execRoute_cases r s with ⟨f, -, hx⟩ | ⟨c, l, hc, hx⟩ <;> cases hx.symm.trans ht
  · cases hk
  · exact ⟨l, hc⟩

/-- R151, R174: REC fails only where RSQ does, at the offset where its cursor stands. -/
theorem rsq_of_exec_rec_failed {r : BitVec 5} {s u : State} {c : Cause} (hu : exec (.recOp r) s = .next u)
    (hk : u.status.kind = .failed c) :
    rsq s.params.tsBit63 s.frame s.job.argOff = .error ⟨c, u.errOff, u.errOff⟩ := by
  rcases execRec_cases r s with ⟨⟨cause, off, cur⟩, hf, hx⟩ | ⟨q, -, hx⟩ <;> cases hx.symm.trans hu
  · obtain rfl : cur = off := (rsq_error hf).1
    cases hk
    exact hf
  · cases hk

/-- Settles O43: FRAME takes HV's answer as ROUTE does, and under Codec8 RSQ's at offset 9 as REC does. -/
theorem frameFailsAsRouteThenRec : Obligations.FrameFailsAsRouteThenRec := by
  refine ⟨fun r r' s t c ht hk => ?_, fun r r' r'' s t u c ht hok hsel hu hk => ?_⟩
  · obtain ⟨f, hf, rfl⟩ := hv_of_exec_route_failed ht hk
    exact exec_frame_of_error r' hf
  · obtain ⟨l, hhv⟩ := hv_of_exec_route_ok ht hok
    rw [hsel] at hhv
    exact exec_frame_of_rsq_error r'' hhv (rsq_of_exec_rec_failed hu hk)

/-! ## What REC and FRAME commit, and what they leave unchanged -/

/-- FRAME and, under FRAME, a codec row end in a failure or commit RSQ's records from offset 9 on. -/
theorem exec_frame_or_codec_cases {r : BitVec 5} {c : Codec} {l : BitVec 32} {i : Instr} {s t : State}
    (hi : i = .frame r ∨ (i = c.instr l ∧ ∃ q, decodeCtrl s.job.word = .ok (.frame q))) (ht : exec i s = .next t) :
    (∃ f, t = s.fail f) ∨
    ∃ c' l' q, rsq s.params.tsBit63 s.frame 9 = .ok q ∧
      t = (s.setRoute c' l').commit q { Valid.clear with route := true, recs := true } := by
  have hframe : (∃ f, t = s.fail f) ∨ ∃ c' l', t = s.frameCodec c' l' := by
    rcases hi with rfl | ⟨rfl, q, hq⟩
    · rcases execFrame_cases r s with ⟨f, -, hx⟩ | ⟨c', l', -, hx⟩ <;> cases hx.symm.trans ht
      · exact .inl ⟨f, rfl⟩
      · exact .inr ⟨c', l', rfl⟩
    · cases (exec_codec_of_frame hq c l).symm.trans ht
      exact .inr ⟨c, l, rfl⟩
  rcases hframe with hf | ⟨c', l', rfl⟩
  · exact .inl hf
  · rcases s.frameCodec_cases c' l' with ⟨-, hx⟩ | ⟨f, -, -, hx⟩ | ⟨q, -, hq, hx⟩
    · exact .inl ⟨_, hx⟩
    · exact .inl ⟨f, hx⟩
    · exact .inr ⟨c', l', q, hq, hx⟩

/-- R145, R157: a record whose section was cut leaves no room for another one. -/
theorem recordAt_untruncated {fr : List Byte} {cur : Nat}
    (hroom : cur + 24 + (iop fr (cur + 24)).consumed + 24 ≤ fr.length) : (recordAt fr cur).ioTr = false := by
  cases htr : (iop fr (cur + 24)).tr with
  | false => exact htr
  | true =>
    have := (iop_of fr (cur + 24)).cut htr
    omega

theorem RecordsAt.untruncated {policy : TsBit63Policy} {fr : List Byte} {n cur fin : Nat} {rs : List Record}
    (h : RecordsAt policy fr n cur rs fin) : ∀ r ∈ rs.dropLast, r.ioTr = false := by
  induction h with
  | done cur => exact nofun
  | more room stamp rest ih =>
    cases rest with
    | done => exact nofun
    | more room' stamp' rest' =>
      rw [List.dropLast_cons_cons, List.forall_mem_cons]
      exact ⟨recordAt_untruncated room', ih⟩

/-- R157, as the record store shows it after a commit. -/
theorem State.recAt_commit_untruncated {s : State} {q : RecResult} {v : Valid} {policy : TsBit63Policy}
    {fr : List Byte} {off k : Nat} (hq : rsq policy fr off = .ok q) (hk : k + 1 < (s.commit q v).recCnt.toNat) :
    ((s.commit q v).recAt k).ioTr = false := by
  obtain ⟨n, hrecs⟩ := recordsAt_of_rsq hq
  have hlen : k + 1 < q.recs.length := hk.trans_le (BitVec.toNat_ofNat .. ▸ Nat.mod_le ..)
  have hinit : k < q.recs.dropLast.length := by rw [List.length_dropLast]; omega
  have hmem : q.recs[k] ∈ q.recs.dropLast := List.getElem_dropLast hinit ▸ List.getElem_mem hinit
  change (q.recs.getD k Record.zero).ioTr = false
  rw [List.getD_eq_getElem _ _ (by omega)]
  exact hrecs.untruncated _ hmem

/-- Settles O39: a successful REC or FRAME commits what RSQ returned. -/
theorem truncationOnlyInLastRecord : Obligations.TruncationOnlyInLastRecord := by
  intro r i s t hi ht hok k hk
  rcases hi with rfl | rfl
  · rcases execRec_cases r s with ⟨f, -, hx⟩ | ⟨q, hq, hx⟩ <;> cases hx.symm.trans ht
    · cases hok
    · exact State.recAt_commit_untruncated hq hk
  · rcases exec_frame_or_codec_cases (c := .codec8) (l := 0) (.inl rfl) ht with ⟨f, rfl⟩ | ⟨c, l, q, hq, rfl⟩
    · cases hok
    · exact State.recAt_commit_untruncated hq hk

theorem State.keepsResults_fail (s : State) (f : Failure) : s.KeepsResults (s.fail f) :=
  ⟨⟨rfl, rfl, rfl⟩, ⟨rfl, rfl, rfl⟩, rfl, rfl⟩

/-- Settles O56: a failure leaves every result, a commit the numbers, and REC's commit the route group too. -/
theorem recordFormsFrame : Obligations.RecordFormsFrame := by
  intro r c l i s t hi ht
  refine ⟨exec_keepsInputs ht, ?_⟩
  rcases hi with rfl | hi
  · rcases execRec_cases r s with ⟨f, -, hx⟩ | ⟨q, -, hx⟩ <;> cases hx.symm.trans ht
    · exact ⟨⟨rfl, rfl, rfl⟩, fun _ => rfl, nofun, fun _ => s.keepsResults_fail f⟩
    · exact ⟨⟨rfl, rfl, rfl⟩, fun _ => rfl, fun _ => rfl, fun hk => absurd rfl hk⟩
  · have hne : i ≠ .recOp r := by
      rcases hi with rfl | ⟨rfl, -⟩
      · nofun
      · cases c <;> nofun
    rcases exec_frame_or_codec_cases hi ht with ⟨f, rfl⟩ | ⟨c', l', q, -, rfl⟩
    · exact ⟨⟨rfl, rfl, rfl⟩, fun _ => rfl, nofun, fun _ => s.keepsResults_fail f⟩
    · exact ⟨⟨rfl, rfl, rfl⟩, fun h => absurd h hne, fun _ => rfl, fun hk => absurd rfl hk⟩

end Sys2Proof.Machine

/-! PROOFS. The exceptions (60_exceptions.md): how an operation ends, what a failure leaves, and what marks the run as
refused (R176). -/

namespace Sys2Proof.Machine

/-! ## The idle block -/

theorem blockStep_idle {s : State} (h : s.status.busy = false) : blockStep s = .next s := by
  simp [blockStep, fetch, h]

/-- Settles O8: with no access due, the step is the block's own. -/
theorem idleBlockHolds : Obligations.IdleBlockHolds :=
  fun _ hb => ⟨fun hh => (step_of_nil hh).trans (blockStep_idle hb),
    fun _ hh => (step_of_wait hh).trans (blockStep_idle hb)⟩

/-! ## How an operation ends -/

section
variable {i : Instr} {s t : State}

/-- R170: a failure, a success, or the FIELD that R89 refuses. -/
theorem Ending.outcome (h : Ending i s t) : (∃ f, t = s.fail f) ∨ (∃ a b, t.status = okStatus a b) ∨
    ∃ r, i = .field r ∧ legalWidth s.job.argW = false ∧ t = s.abandon := by
  cases h with
  | failed f => exact .inl ⟨f, rfl⟩
  | abandoned r hi hw => exact .inr (.inr ⟨r, hi, hw, rfl⟩)
  | _ => exact .inr (.inl ⟨_, _, rfl⟩)

/-- R90: a FIELD that was started has a legal width, so no operation is refused once it runs. -/
theorem Ending.fail_or_ok (h : Ending i s t) (hw : ∀ r, i = .field r → 1 ≤ s.job.argW.toNat ∧ s.job.argW.toNat ≤ 8) :
    ((∃ f, t = s.fail f) ∨ ∃ a b, t.status = okStatus a b) ∧ t.refusedStart = s.refusedStart := by
  have hlegal : ∀ r, i = .field r → legalWidth s.job.argW ≠ false := fun r hi => by
    simp [legalWidth_eq_true_iff.mpr (hw r hi)]
  constructor
  · rcases h.outcome with hf | hok | ⟨r, hi, hbad, -⟩
    · exact .inl hf
    · exact .inr hok
    · exact absurd hbad (hlegal r hi)
  · rcases h.refusedStart with hr | ⟨r, hi, hbad, -⟩
    · exact hr
    · exact absurd hbad (hlegal r hi)

/-- R178: a running operation (`KIND = NONE`) that ends with an error kind or `NoLayout` raised it. -/
theorem exec_eq_fail_of_failed {c : Cause} (hs : s.status.kind = .none) (ht : exec i s = .next t)
    (hc : t.status.kind = .failed c) : ∃ f, f.cause = c ∧ t = s.fail f := by
  rcases (ending_of_exec ht).outcome with ⟨f, rfl⟩ | ⟨a, b, hok⟩ | ⟨r, -, -, rfl⟩
  · exact ⟨f, Kind.failed.inj hc, rfl⟩
  · rw [hok] at hc
    cases hc
  · cases hs.symm.trans hc

/-- R132. -/
theorem exec_ioe_ok {r : BitVec 5} (ht : exec (.ioe r) s = .next t) : t.status.kind = .ok := by
  cases ht
  rfl

/-- R175: the operations on one field raise one kind. -/
theorem malformedField_of_unit_failed {r : BitVec 5} {c : Cause} (hi : i = .ts r ∨ i = .gps r ∨ i = .field r)
    (hs : s.status.kind = .none) (ht : exec i s = .next t) (hc : t.status.kind = .failed c) : c = .malformedField := by
  rcases hi with rfl | rfl | rfl
  · rcases execTs_cases r s with ⟨-, hx⟩ | ⟨-, -, hx⟩ <;> cases hx.symm.trans ht <;> cases hc
    rfl
  · rcases execGps_cases r s with ⟨-, hx⟩ | ⟨-, hx⟩ <;> cases hx.symm.trans ht <;> cases hc
    rfl
  · rcases execField_cases r s with ⟨-, hx⟩ | ⟨-, -, hx⟩ | ⟨-, -, hx⟩ <;> cases hx.symm.trans ht
    · cases hs.symm.trans hc
    · cases hc
      rfl
    · cases hc

end

/-- Settles O49: `exec_ending` gives the next state, and `Ending.fail_or_ok` its status. -/
theorem everyOperationFinishes : Obligations.EveryOperationFinishes := by
  intro i s hw
  obtain ⟨t, ht, he⟩ := exec_ending i s
  refine ⟨t, ht, ?_⟩
  rcases (he.fail_or_ok hw).1 with ⟨f, rfl⟩ | ⟨a, b, hok⟩
  · exact ⟨rfl, rfl, .inr ⟨f.cause, rfl⟩⟩
  · rw [hok]
    exact ⟨rfl, rfl, .inl rfl⟩

/-- Settles O50: the state is that of `State.fail`. -/
theorem failureLeavesNoResult : Obligations.FailureLeavesNoResult := by
  intro i s t c hs ht hc
  have hioe : ∀ r, i ≠ .ioe r := by
    rintro r rfl
    cases (exec_ioe_ok ht).symm.trans hc
  have hunit : (∃ r, i = .ts r ∨ i = .gps r ∨ i = .field r) → c = .malformedField := fun ⟨_, hi⟩ =>
    malformedField_of_unit_failed hi hs ht hc
  have hinputs := exec_keepsInputs ht
  obtain ⟨f, rfl, rfl⟩ := exec_eq_fail_of_failed hs ht hc
  exact ⟨rfl, rfl, s.keepsResults_fail f, hinputs, hioe, hunit⟩

/-! ## The mark of a refused run -/

theorem State.runRefused_eq_true_iff {s : State} :
    s.runRefused = true ↔ s.status.kind = .failed .noLayout ∨ s.refusedStart ≠ none := by
  simp [State.runRefused, Option.isSome_iff_ne_none]

theorem State.runRefused_eq_false_iff {s : State} :
    s.runRefused = false ↔ s.status.kind ≠ .failed .noLayout ∧ s.refusedStart = none := by
  simp [State.runRefused]

theorem startVerdict_ofNat_refused_iff (s : State) (v : Nat) (y : RefusedStart) :
    startVerdict s (BitVec.ofNat 9 v) = .refused y ↔ v / 256 % 2 = 1 ∧ s.status.busy = false ∧
      (v % 8 = 7 ∧ y = .reservedOp ∨ v % 8 = 6 ∧ (s.argW.toNat < 1 ∨ 8 < s.argW.toNat) ∧ y = .illegalWidth) := by
  rw [startVerdict_refused_iff, ctrlStart_ofNat, ctrlOp_ofNat_eq_iff, ctrlOp_ofNat_eq_iff, legalWidth_eq_false_iff]
  rfl

theorem writeCtrl_refused {s : State} {w : BitVec 9} {y : RefusedStart} (h : startVerdict s w = .refused y) :
    writeCtrl w s = .next (s.refuseStart y) := by
  rw [writeCtrl, h]

/-- R43: `CTRL` has one number. -/
theorem eq_zero_of_ofNumber_ctrl {n : Nat} (h : RegName.ofNumber n = some .ctrl) : n = 0 :=
  ((List.getElem?_inj (l := registerTable) (i := 0) (by decide) (by decide)).mp h.symm).symm

/-- A write marks the run in one way, a start that is refused. -/
theorem writeReg_marks {r : RegName} {v : Nat} {s t : State} (h : writeReg r v s = .next t)
    (hs : s.runRefused = false) (ht : t.runRefused = true) :
    r = .ctrl ∧ ∃ y, startVerdict s (BitVec.ofNat 9 v) = .refused y := by
  cases r
  case ctrl =>
    rcases writeCtrl_cases (BitVec.ofNat 9 v) s with ⟨-, hw⟩ | ⟨-, hw⟩ | ⟨y, hv, -⟩ | ⟨-, hw⟩
    · cases hw.symm.trans h
      cases ht
    · cases hw.symm.trans h
    · exact ⟨rfl, y, hv⟩
    · cases hw.symm.trans h
      cases hs.symm.trans ht
  all_goals cases h <;> cases hs.symm.trans ht

/-- Of the host's accesses only a write to `CTRL` marks the run. -/
theorem hostStep_marks {a : Access} {s t : State} (h : hostStep a s = .next t)
    (hs : s.runRefused = false) (ht : t.runRefused = true) :
    ∃ v y, a = .writeReg 0 v ∧ startVerdict s (BitVec.ofNat 9 v) = .refused y := by
  cases a with
  | writeReg n v =>
    simp only [hostStep, onRegister] at h
    split at h
    · next r hr =>
      obtain ⟨rfl, y, hv⟩ := writeReg_marks h hs ht
      exact ⟨v, y, by rw [eq_zero_of_ofNumber_ctrl hr], hv⟩
    · cases h
  | readReg n =>
    simp only [hostStep, onRegister] at h
    split at h <;> cases h
    cases hs.symm.trans ht
  | writeFB off b =>
    obtain ⟨-, -, rfl⟩ := hostStep_writeFB_next_iff.mp h
    cases hs.symm.trans ht
  | readFB off =>
    simp only [hostStep] at h
    split at h <;> cases h
    cases hs.symm.trans ht
  | reset =>
    cases h
    cases ht

/-- The block marks the run by `NoLayout` alone. -/
theorem blockStep_marks {s t : State}
    (hw : ∀ r, decodeCtrl s.job.word = .ok (.field r) → 1 ≤ s.job.argW.toNat ∧ s.job.argW.toNat ≤ 8)
    (h : blockStep s = .next t) (hs : s.runRefused = false) (ht : t.runRefused = true) :
    s.status.busy = true ∧ t.status.kind = .failed .noLayout := by
  rcases blockStep_cases h with ⟨-, rfl⟩ | ⟨hb, i, hd, hx⟩
  · cases hs.symm.trans ht
  · obtain ⟨-, hmark⟩ := (ending_of_exec hx).fail_or_ok fun r hi => hw r (hi ▸ hd)
    obtain ⟨-, hnone⟩ := State.runRefused_eq_false_iff.mp hs
    exact ⟨hb, (State.runRefused_eq_true_iff.mp ht).resolve_right (· (hmark.trans hnone))⟩

theorem step_of_refused_start {s : State} {v : Nat} {rest : List Move} {why : RefusedStart}
    (hh : s.host = .access (.writeReg 0 v) :: rest)
    (hv : startVerdict { s with host := rest } (BitVec.ofNat 9 v) = .refused why) :
    step s = .next { s with host := rest, refusedStart := some why } ∧
      ({ s with host := rest, refusedStart := some why } : State).runRefused = true :=
  ⟨(step_of_writeCtrl hh).trans (writeCtrl_refused hv), State.runRefused_eq_true_iff.mpr (.inr nofun)⟩

theorem exec_marks_noLayout_only {i : Instr} {s t : State}
    (hw : ∀ r, i = .field r → 1 ≤ s.job.argW.toNat ∧ s.job.argW.toNat ≤ 8) (ht : exec i s = .next t) :
    t.refusedStart = s.refusedStart ∧
      (t.status.kind = .failed .noLayout → t.runRefused = true ∧ t.valid = Valid.clear) ∧
      (s.refusedStart = none → t.status.kind ≠ .failed .noLayout → t.runRefused = false) := by
  obtain ⟨hend, hmark⟩ := (ending_of_exec ht).fail_or_ok hw
  refine ⟨hmark, fun hk => ⟨State.runRefused_eq_true_iff.mpr (.inl hk), ?_⟩, fun hs hk =>
    State.runRefused_eq_false_iff.mpr ⟨hk, hmark.trans hs⟩⟩
  rcases hend with ⟨f, rfl⟩ | ⟨a, b, hok⟩
  · rfl
  · rw [hok] at hk
    cases hk

theorem step_marks {s t : State}
    (hw : ∀ r, decodeCtrl s.job.word = .ok (.field r) → 1 ≤ s.job.argW.toNat ∧ s.job.argW.toNat ≤ 8)
    (h : step s = .next t) (hs : s.runRefused = false) (ht : t.runRefused = true) :
    (∃ (v : Nat) (rest : List Move), s.host = .access (.writeReg 0 v) :: rest ∧ v / 256 % 2 = 1 ∧
      s.status.busy = false ∧ (v % 8 = 7 ∨ v % 8 = 6 ∧ (s.argW.toNat < 1 ∨ 8 < s.argW.toNat))) ∨
    (s.status.busy = true ∧ t.status.kind = .failed .noLayout) := by
  rcases step_cases h with ⟨-, hx⟩ | ⟨rest, -, hx⟩ | ⟨a, rest, hh, hx⟩
  · exact .inr (blockStep_marks hw hx hs ht)
  · exact .inr (blockStep_marks (s := { s with host := rest }) hw hx hs ht)
  · obtain ⟨v, y, rfl, hv⟩ := hostStep_marks hx hs ht
    obtain ⟨hstart, hb, hop⟩ := (startVerdict_ofNat_refused_iff _ v y).mp hv
    exact .inl ⟨v, rest, hh, hstart, hb, hop.imp And.left fun ⟨h6, hbad, _⟩ => ⟨h6, hbad⟩⟩

/-- Of the host's accesses an accepted start alone makes an idle block busy. -/
theorem Accessed.runRefused_of_started {s t : State} (h : Accessed s t) (hs : s.status.busy = false)
    (ht : t.status.busy = true) : t.runRefused = false := by
  cases h with
  | started w hv => rfl
  | reset => rfl
  | _ => cases hs.symm.trans ht

theorem step_runRefused_of_started {s t : State} (h : step s = .next t) (hs : s.status.busy = false)
    (ht : t.status.busy = true) : t.runRefused = false := by
  rcases step_cases h with ⟨-, hx⟩ | ⟨rest, -, hx⟩ | ⟨a, rest, -, hx⟩
  · cases (blockStep_idle hs).symm.trans hx
    cases hs.symm.trans ht
  · cases (blockStep_idle (s := { s with host := rest }) hs).symm.trans hx
    cases hs.symm.trans ht
  · exact (hostStep_accessed hx).runRefused_of_started hs ht

/-- Settles O60: a refused start, an operation, any step, a new start and a reset. -/
theorem refusalsMarkTheRun : Obligations.RefusalsMarkTheRun := by
  refine ⟨fun s v rest why hh hstart hb hop => ?_, fun i s t => exec_marks_noLayout_only, fun s t => step_marks,
    fun s t => step_runRefused_of_started, fun s t rest hh ht => ?_, rfl⟩
  · exact step_of_refused_start hh ((startVerdict_ofNat_refused_iff _ v why).mpr ⟨hstart, hb, hop⟩)
  · cases (step_of_reset hh).symm.trans ht
    rfl

end Sys2Proof.Machine

/-! PROOFS. The host's accesses that start nothing (10_state.md section 10, 70_reset_and_hazards.md section 3): a FIELD
start with an illegal width, the moves without a meaning, and the writes of one register. -/

namespace Sys2Proof.Machine

/-! ## A FIELD start with an illegal width -/

/-- R90: an idle block refuses the start; without `START`, and in a busy block, the write is ignored. -/
theorem writeCtrl_illegalWidth (s : State) {v : Nat} (h6 : v % 8 = 6) (hw : s.argW.toNat < 1 ∨ 8 < s.argW.toNat) :
    writeCtrl (BitVec.ofNat 9 v) s = .next
      { s with
        refusedStart :=
          if v / 256 % 2 = 1 ∧ s.status.busy = false then some .illegalWidth else s.refusedStart } := by
  split
  · next h =>
    exact writeCtrl_refused ((startVerdict_ofNat_refused_iff s v _).mpr ⟨h.1, h.2, .inr ⟨h6, hw, rfl⟩⟩)
  · next h =>
    rw [← ctrlStart_ofNat, Classical.not_and_iff_not_or_not, Bool.not_eq_true, Bool.not_eq_false] at h
    exact writeCtrl_ignored h

/-- Settles O11: the write's verdict. -/
theorem illegalWidthStartChangesNothing : Obligations.IllegalWidthStartChangesNothing :=
  fun s _ rest hh h6 hw => (step_of_writeCtrl hh).trans (writeCtrl_illegalWidth { s with host := rest } h6 hw)

/-! ## An access by a register's number -/

section
variable {s : State} {rest : List Move} {n v : Nat}

theorem step_of_writeReg {r : RegName} (hn : RegName.ofNumber n = some r)
    (hh : s.host = .access (.writeReg n v) :: rest) : step s = writeReg r v { s with host := rest } := by
  rw [step_of_access hh]
  simp only [hostStep, onRegister, hn]

theorem ofNumber_eq_none_iff : RegName.ofNumber n = none ↔ 32 ≤ n :=
  List.getElem?_eq_none_iff

/-- R43 lists 32 registers. -/
theorem step_of_unlisted_register (hn : 32 ≤ n)
    (hh : s.host = .access (.writeReg n v) :: rest ∨ s.host = .access (.readReg n) :: rest) :
    step s = .fault (.noSuchRegister n) := by
  rcases hh with hh | hh <;> rw [step_of_access hh] <;>
    simp only [hostStep, onRegister, ofNumber_eq_none_iff.mpr hn]

/-- R43: the registers that the host may write. -/
def RegName.writable : List RegName := [.ctrl, .flen, .argOff, .argW, .recSel, .elemSel]

theorem writeReg_readOnly {r : RegName} (hr : r ∉ RegName.writable) (v : Nat) (s : State) :
    writeReg r v s = .fault (.readOnlyRegister r) := by
  cases r with
  | ctrl | flen | argOff | argW | recSel | elemSel => exact absurd (by decide) hr
  | _ => rfl

/-- R43: the numbers of the registers that the host may write. -/
theorem number_of_writable :
    ∀ n < 32, ∀ r ∈ RegName.writable, RegName.ofNumber n = some r → n ∈ [0, 2, 3, 4, 17, 29] := by
  decide

theorem step_of_readOnly_register (hn : n < 32) (hro : n ∉ [0, 2, 3, 4, 17, 29])
    (hh : s.host = .access (.writeReg n v) :: rest) :
    ∃ r, RegName.ofNumber n = some r ∧ step s = .fault (.readOnlyRegister r) := by
  have hr : RegName.ofNumber n = some registerTable[n] := List.getElem?_eq_getElem hn
  have hnot : registerTable[n] ∉ RegName.writable := fun hmem => hro (number_of_writable n hn _ hmem hr)
  exact ⟨_, hr, (step_of_writeReg hr hh).trans (writeReg_readOnly hnot v _)⟩

end

/-! ## A move beyond the buffer -/

theorem fits_eq_false_iff {s : State} {n : Nat} : s.fits n = false ↔ ∃ m, s.params.frameMax = some m ∧ m < n := by
  rw [← Bool.not_eq_true, fits_eq_true_iff]
  simp

theorem startVerdict_ofNat_overCapacity_iff (s : State) (v : Nat) :
    startVerdict s (BitVec.ofNat 9 v) = .overCapacity ↔
      v / 256 % 2 = 1 ∧ s.status.busy = false ∧ v % 8 ≠ 7 ∧ (v % 8 = 6 → 1 ≤ s.argW.toNat ∧ s.argW.toNat ≤ 8) ∧
        ∃ m, s.params.frameMax = some m ∧ m < s.flen := by
  rw [startVerdict_overCapacity_iff, ctrlStart_ofNat, ne_eq, ctrlOp_ofNat_eq_iff, ctrlOp_ofNat_eq_iff,
    legalWidth_eq_true_iff, fits_eq_false_iff]
  rfl

theorem writeCtrl_overCapacity {s : State} {w : BitVec 9} (h : startVerdict s w = .overCapacity) :
    writeCtrl w s = .fault .flenAboveFrameMax := by
  rw [writeCtrl, h]

section
variable {s : State} {rest : List Move} {off : Nat} {b : Byte}

/-- R197. -/
theorem step_of_writeFB_busy (hb : s.status.busy = true) (hh : s.host = .access (.writeFB off b) :: rest) :
    step s = .fault .bufferWrittenWhileBusy :=
  (step_of_access hh).trans (if_pos hb)

theorem step_of_writeFB_beyond (hb : s.status.busy = false) (hroom : s.fits (off + 1) = false)
    (hh : s.host = .access (.writeFB off b) :: rest) : step s = .fault (.noSuchOffset off) :=
  (step_of_access hh).trans ((if_neg (Bool.eq_false_iff.mp hb)).trans (if_neg (Bool.eq_false_iff.mp hroom)))

theorem step_of_readFB_beyond (hroom : s.fits (off + 1) = false) (hh : s.host = .access (.readFB off) :: rest) :
    step s = .fault (.noSuchOffset off) :=
  (step_of_access hh).trans (if_neg (Bool.eq_false_iff.mp hroom))

end

/-- Settles O12: the start's verdict, the buffer port and the register numbers. -/
theorem meaninglessHostMovesStop : Obligations.MeaninglessHostMovesStop := by
  have beyond : ∀ {s : State} {off m : Nat}, s.params.frameMax = some m → m ≤ off → s.fits (off + 1) = false :=
    fun hm hle => fits_eq_false_iff.mpr ⟨_, hm, Nat.lt_succ_of_le hle⟩
  refine ⟨fun s v m rest hh hstart hb h7 h6 hm hlt => ?_, fun s off b rest hh hb => step_of_writeFB_busy hb hh,
    fun s off m b rest hh hb hm hle => step_of_writeFB_beyond hb (beyond hm hle) hh,
    fun s off m rest hh hm hle => step_of_readFB_beyond (beyond hm hle) hh,
    fun s n v rest => step_of_unlisted_register, fun s n v rest => step_of_readOnly_register⟩
  rw [step_of_writeCtrl hh]
  exact writeCtrl_overCapacity ((startVerdict_ofNat_overCapacity_iff _ v).mpr ⟨hstart, hb, h7, h6, m, hm, hlt⟩)

/-- Settles O13: each number's register, and `writeReg` of it. -/
theorem hostWritesOneRegister : Obligations.HostWritesOneRegister :=
  fun _ _ _ => ⟨step_of_writeReg (r := .flen) rfl, step_of_writeReg (r := .argOff) rfl,
    step_of_writeReg (r := .argW) rfl, step_of_writeReg (r := .recSel) rfl, step_of_writeReg (r := .elemSel) rfl⟩

end Sys2Proof.Machine
